-- ==== Sys2Proof/Word.lean ====
section
/-! DEFINITION. The word types of the core: 32-bit words (00_scope R16, 20_memory R75), binary32 patterns (00_scope R18)
and bytes. -/

namespace Sys2Proof

/-- A 32-bit word: a register, a command word, a byte address (10_state R31, 20_memory R70). -/
abbrev Word := BitVec 32

/-- The bit pattern of an IEEE-754 binary32 value: bit 31 sign, 30:23 biased exponent, 22:0 fraction (20_memory R75). -/
abbrev F32 := BitVec 32

/-- One byte of the sample RAM, as the port orders the bytes of a word (20_memory R75). -/
abbrev Byte := BitVec 8

end Sys2Proof
end

