-- ==== Sys2Proof/Syntax.lean ====
section
/-! DEFINITION. The 21 commands of the command set FDCORE-1, one constructor per row of the opcode map (30_encoding R106). -/

namespace Sys2Proof

/-- A command. `band` is the BAND field of format B and `n` the N field of format P, both unsigned integers
(30_encoding R105); every other operand stands in a register. -/
inductive Instr where
  | fdDesign
  | eqInit
  | eqSetBandGain (band : Nat)
  | eqSetAllGains
  | eqProcessBlock (n : Nat)
  | eqGetCoefficients
  | eqSetCoefficients
  | eqReset
  | eqGetBandFrequency (band : Nat)
  | ctrlInit
  | ctrlStart
  | ctrlProcessBlock (n : Nat)
  | ctrlGetState
  | ctrlGetCurrentBand
  | ctrlGetProgress
  | ctrlGetCorrectionGains
  | ctrlGetMeasuredLevels
  | ctrlStop
  | ctrlApplyGains
  | ctrlGetLastError
  | ctrlGetCpuUsage
  deriving DecidableEq, Repr, Inhabited

end Sys2Proof
end

