-- ==== Sys2Proof/WellFormed.lean ====
section
/-! DEFINITION. Which commands a command word can hold: BAND has 4 bits and N has 16 (30_encoding R103, R104). -/

namespace Sys2Proof

/-- BAND is 0..15; values 10 to 15 are representable and out of range for the command (30_encoding R103). -/
abbrev bandFits (band : Nat) : Prop := band < 16

/-- N is 0..65535 (30_encoding R104, 00_scope R15). -/
abbrev lengthFits (n : Nat) : Prop := n < 65536

/-- The operand of the command fits its field. -/
def Instr.wellFormed : Instr → Bool
  | .fdDesign => true
  | .eqInit => true
  | .eqSetBandGain band => decide (bandFits band)
  | .eqSetAllGains => true
  | .eqProcessBlock n => decide (lengthFits n)
  | .eqGetCoefficients => true
  | .eqSetCoefficients => true
  | .eqReset => true
  | .eqGetBandFrequency band => decide (bandFits band)
  | .ctrlInit => true
  | .ctrlStart => true
  | .ctrlProcessBlock n => decide (lengthFits n)
  | .ctrlGetState => true
  | .ctrlGetCurrentBand => true
  | .ctrlGetProgress => true
  | .ctrlGetCorrectionGains => true
  | .ctrlGetMeasuredLevels => true
  | .ctrlStop => true
  | .ctrlApplyGains => true
  | .ctrlGetLastError => true
  | .ctrlGetCpuUsage => true

end Sys2Proof
end

