-- ==== Sys2Proof/Decode.lean ====
section
/-! DEFINITION. Decoding and encoding of command words (30_encoding R100 to R109). A command is one 32-bit word; every word
decodes to a command or to a rejection by name. -/

namespace Sys2Proof

/-- `w[hi:lo]` read as an unsigned integer (00_scope R16). -/
def field (hi lo : Nat) (w : Word) : Nat := w.toNat / 2 ^ lo % 2 ^ (hi + 1 - lo)

/-- Why a word is rejected (30_encoding R100, R109). -/
inductive DecodeError where
  /-- The opcode is not in the opcode map. -/
  | unassignedOpcode
  /-- Format N with a nonzero bit in 31:8. -/
  | nonzeroAboveOpcode
  /-- Format B with a nonzero bit in 31:12. -/
  | nonzeroAboveBand
  /-- Format P with a nonzero bit in 31:24. -/
  | nonzeroAboveLength
  deriving DecidableEq, Repr

/-- One row of the opcode map: its format, with the command its field makes. -/
inductive OpcodeRow where
  | formatN (i : Instr)
  | formatB (command : Nat → Instr)
  | formatP (command : Nat → Instr)

/-- The opcode map (30_encoding R106). -/
def opcodeRow : Nat → Option OpcodeRow
  | 0x01 => some (.formatN .fdDesign)
  | 0x10 => some (.formatN .eqInit)
  | 0x11 => some (.formatB .eqSetBandGain)
  | 0x12 => some (.formatN .eqSetAllGains)
  | 0x13 => some (.formatP .eqProcessBlock)
  | 0x14 => some (.formatN .eqGetCoefficients)
  | 0x15 => some (.formatN .eqSetCoefficients)
  | 0x16 => some (.formatN .eqReset)
  | 0x17 => some (.formatB .eqGetBandFrequency)
  | 0x20 => some (.formatN .ctrlInit)
  | 0x21 => some (.formatN .ctrlStart)
  | 0x22 => some (.formatP .ctrlProcessBlock)
  | 0x23 => some (.formatN .ctrlGetState)
  | 0x24 => some (.formatN .ctrlGetCurrentBand)
  | 0x25 => some (.formatN .ctrlGetProgress)
  | 0x26 => some (.formatN .ctrlGetCorrectionGains)
  | 0x27 => some (.formatN .ctrlGetMeasuredLevels)
  | 0x28 => some (.formatN .ctrlStop)
  | 0x29 => some (.formatN .ctrlApplyGains)
  | 0x2A => some (.formatN .ctrlGetLastError)
  | 0x2B => some (.formatN .ctrlGetCpuUsage)
  | _ => none

/-- Decoding (30_encoding R100): the opcode is w[7:0], BAND is w[11:8] and N is w[23:8]. -/
def decode (w : Word) : Except DecodeError Instr :=
  match opcodeRow (field 7 0 w) with
  | none => .error .unassignedOpcode
  | some (.formatN i) => if field 31 8 w = 0 then .ok i else .error .nonzeroAboveOpcode
  | some (.formatB command) =>
    if field 31 12 w = 0 then .ok (command (field 11 8 w)) else .error .nonzeroAboveBand
  | some (.formatP command) =>
    if field 31 24 w = 0 then .ok (command (field 23 8 w)) else .error .nonzeroAboveLength

/-- The opcode of a command (30_encoding R106). -/
def Instr.opcode : Instr → Nat
  | .fdDesign => 0x01
  | .eqInit => 0x10
  | .eqSetBandGain _ => 0x11
  | .eqSetAllGains => 0x12
  | .eqProcessBlock _ => 0x13
  | .eqGetCoefficients => 0x14
  | .eqSetCoefficients => 0x15
  | .eqReset => 0x16
  | .eqGetBandFrequency _ => 0x17
  | .ctrlInit => 0x20
  | .ctrlStart => 0x21
  | .ctrlProcessBlock _ => 0x22
  | .ctrlGetState => 0x23
  | .ctrlGetCurrentBand => 0x24
  | .ctrlGetProgress => 0x25
  | .ctrlGetCorrectionGains => 0x26
  | .ctrlGetMeasuredLevels => 0x27
  | .ctrlStop => 0x28
  | .ctrlApplyGains => 0x29
  | .ctrlGetLastError => 0x2A
  | .ctrlGetCpuUsage => 0x2B

/-- The value of the operand field above the opcode: BAND, N, or nothing (30_encoding R102 to R104). -/
def Instr.operandField : Instr → Nat
  | .eqSetBandGain band => band
  | .eqProcessBlock n => n
  | .eqGetBandFrequency band => band
  | .ctrlProcessBlock n => n
  | .fdDesign => 0
  | .eqInit => 0
  | .eqSetAllGains => 0
  | .eqGetCoefficients => 0
  | .eqSetCoefficients => 0
  | .eqReset => 0
  | .ctrlInit => 0
  | .ctrlStart => 0
  | .ctrlGetState => 0
  | .ctrlGetCurrentBand => 0
  | .ctrlGetProgress => 0
  | .ctrlGetCorrectionGains => 0
  | .ctrlGetMeasuredLevels => 0
  | .ctrlStop => 0
  | .ctrlApplyGains => 0
  | .ctrlGetLastError => 0
  | .ctrlGetCpuUsage => 0

/-- The command word of a well-formed command: the operand field stands at bit 8, the opcode in 7:0, every other bit 0
(30_encoding R102 to R104). -/
def encode (i : Instr) : Word := BitVec.ofNat 32 (i.opcode + 2 ^ 8 * i.operandField)

/-- The command the decoder reads from a word whose low `nbits` bits are those of `w`, every higher bit 0. A command is one
32-bit word (30_encoding R101). -/
def decodeTableWord (nbits w : Nat) : Option Instr :=
  match decode (BitVec.ofNat 32 (w % 2 ^ nbits)) with
  | .ok i => some i
  | .error _ => none

end Sys2Proof
end

