-- ==== Sys2Proof/Config.lean ====
section
/-! DEFINITION. The OPEN parameters of 00_scope R14, fixed when the core is built (70_reset R334). Each is a constant with no
body: nothing can be proved of its value, so what is proved holds for every value of it. The decided constants of
00_scope R10 to R13 are in Machine/Constants.lean. -/

namespace Sys2Proof

/-- The six controller states, in the order the source lists them (10_state R48). `error` is representable and no rule
sets it (10_state R49). -/
inductive CtrlState where
  | idle
  | measuring
  | computing
  | applying
  | done
  | error
  deriving DecidableEq, Repr, Inhabited

/-- The binary32 operations that can produce a NaN (00_scope R18, R20); the index of NAN_BITS. -/
inductive ArithOp where
  | add
  | sub
  | mul
  | div
  | sqrt
  deriving DecidableEq, Repr, Inhabited

/-- A NaN encoding: its sign bit, and its fraction less one. The biased exponent of a NaN is 255 and its fraction is any of
1 to 2^23 - 1, so these two fields name every NaN encoding exactly once (20_memory R75). -/
structure NanPattern where
  sign : Bool
  fractionLessOne : Fin 8388607
  deriving DecidableEq, Repr, Inhabited

/-- The numeric primitives of 00_scope R20: total functions from binary32 to binary32. -/
structure Primitives where
  sin : F32 → F32
  cos : F32 → F32
  pow10 : F32 → F32
  log10 : F32 → F32
  deriving Inhabited

/-- The core's SIN, COS, POW10 and LOG10 (00_scope R14, R20; 93 I1, I2). Log 4. -/
opaque Config.primitives : Primitives

/-- TRIG_ULP, the accuracy tolerance of the primitives in units in the last place (00_scope R14, R20). Log 5. -/
opaque Config.trigUlp : Rat

/-- NAN_BITS: which NaN an operation on two operands returns, payloads kept or not (00_scope R14; 93 I3). Log 6. -/
opaque Config.nanBits : ArithOp → F32 → F32 → NanPattern

/-- SAMPLE_RAM_WORDS less one: every size from 1 to 1073740800 words is a value of this type (20_memory R71). Log 7. -/
opaque Config.sampleRamWordsLessOne : Fin 1073740800

/-- MIC_CAL[0..9], the MicCalibrationTable (00_scope R14, 10_state R57; 93 I4). Log 8. -/
opaque Config.micCal : Fin 10 → F32

/-- CPU_USAGE(state) (00_scope R14, 10_state R57; 93 I5). Log 8. -/
opaque Config.cpuUsage : CtrlState → F32

end Sys2Proof
end

