-- ==== Sys2Proof/Machine/State.lean ====
section
/-! DEFINITION. The state of the core as plain data (10_state R30 to R62), the accesses of the host port that wait for the
step, the reasons a step can stop, and the state after reset (10_state R59, 70_reset R330). -/

namespace Sys2Proof.Machine

/-- A step that stops with a fault. There is no constructor: the core raises no exception, trap or fault
(60_exceptions R300, R309), and every failure is a value of STATUS or a response of the port. -/
inductive Fault where
  deriving DecidableEq, Repr

/-- A step that has no meaning. -/
inductive Refusal where
  /-- Raised by the arm of `exec` for a command that has no meaning yet, with its mnemonic. No arm raises it. Safe: the
  machine stops instead of going on. -/
  | notModelled (mnemonic : String)
  deriving DecidableEq, Repr

/-- The host-visible registers (10_state R32). CMD keeps nothing (10_state R33; log 10). -/
structure Regs where
  /-- STATUS (10_state R34). -/
  status : Word
  /-- ARG_GAIN, f32 in dB. -/
  argGain : F32
  /-- ARG_Q, f32. -/
  argQ : F32
  /-- ARG_FC, f32 in Hz. -/
  argFc : F32
  /-- ARG_FS, f32 in Hz. -/
  argFs : F32
  /-- ARG_IN, a sample-RAM word index. -/
  argIn : Word
  /-- ARG_OUT, a sample-RAM word index. -/
  argOut : Word
  /-- RESULT_F, f32. -/
  resultF : F32
  /-- RESULT_I, int32. -/
  resultI : Word
  /-- GAIN_ARR (10_state R38). -/
  gainArr : Vector F32 10
  /-- RESULT_ARR (10_state R39). -/
  resultArr : Vector F32 10
  /-- DESIGN_OUT (10_state R40). -/
  designOut : Vector F32 5
  /-- COEF_ARR, coefficient j of band b at 5b + j (10_state R41). -/
  coefArr : Vector F32 50
  deriving DecidableEq, Repr

/-- A coefficient set `[b0, b1, b2, a1, a2]`, a0 being 1 (00_scope R27). -/
structure Coefficients where
  b0 : F32
  b1 : F32
  b2 : F32
  a1 : F32
  a2 : F32
  deriving DecidableEq, Repr, Inhabited

/-- The delay line of a direct-form-I section: its last two inputs and last two outputs (10_state R46). -/
structure DelayLine where
  x1 : F32
  x2 : F32
  y1 : F32
  y2 : F32
  deriving DecidableEq, Repr, Inhabited

/-- The band parameter record band_gain, band_q, band_opaque (10_state R47). No command reads it back (10_state R60). -/
structure BandRecord where
  gain : F32
  q : F32
  isOpaque : Bool
  deriving DecidableEq, Repr, Inhabited

/-- The state of the BandFilterEngine (10_state R44 to R47). -/
structure Equalizer where
  /-- eq_init. -/
  initialized : Bool
  /-- coef[b]. -/
  coef : Vector Coefficients 10
  /-- dl[b]. -/
  delay : Vector DelayLine 10
  /-- band_gain[b], band_q[b], band_opaque[b]. -/
  bands : Vector BandRecord 10
  deriving DecidableEq, Repr

/-- The tone-generator unit (10_state R55). -/
structure Tone where
  /-- tg_coeff. -/
  coeff : F32
  /-- tg_y1. -/
  y1 : F32
  /-- tg_y2. -/
  y2 : F32
  /-- tg_n. -/
  n : Nat
  deriving DecidableEq, Repr

/-- The frequency-detector unit (10_state R56). -/
structure Detector where
  /-- dt_k. -/
  k : Nat
  /-- dt_len. -/
  len : Nat
  /-- dt_coeff. -/
  coeff : F32
  /-- dt_s1. -/
  s1 : F32
  /-- dt_s2. -/
  s2 : F32
  deriving DecidableEq, Repr

/-- The four error codes (10_state R54). No rule writes `bufferOverflow`. -/
inductive ErrorCode where
  | none
  | invalidState
  | invalidParameters
  | bufferOverflow
  deriving DecidableEq, Repr, Inhabited

/-- The CalibrationController's session (10_state R48 to R54) with the two units it drives (44 R230). -/
structure Calibration where
  state : CtrlState
  band : Nat
  cnt : Nat
  iteration : Nat
  measured : Vector F32 10
  correction : Vector F32 10
  cumulative : Vector F32 10
  lastError : ErrorCode
  tone : Tone
  det : Detector
  deriving DecidableEq, Repr

/-- Memory as (byte address, byte) cells: addresses strictly rising, no cell holding what an unlisted address reads as. -/
abbrev Memory := List Host.Cell

/-- How many bits a host access asks for (20_memory R72, R73). -/
inductive AccessSize where
  | byte
  | half
  | word
  deriving DecidableEq, Repr, Inhabited

/-- One interaction of the host with the core (60_exceptions R318): an access of the port, or the reset input
(70_reset R330, R331). -/
inductive HostAccess where
  | read (addr : Word) (size : AccessSize)
  | write (addr : Word) (size : AccessSize) (data : Word)
  | reset
  deriving DecidableEq, Repr, Inhabited

/-- What the port gives back for the access it served last (60_exceptions R318, 20_memory R73). -/
inductive PortResponse where
  /-- Nothing has been served since reset. -/
  | none
  /-- A write was accepted; nothing is given back. -/
  | ack
  /-- A read returned this word. -/
  | data (w : Word)
  /-- The access was refused with a bus error (20_memory R73; log 2). -/
  | busError
  deriving DecidableEq, Repr, Inhabited

/-- The state of the core. `pending` and `response` are the model's own (log 1): the accesses that have arrived at the port
and are held until they are served, oldest first (20_memory R80, R82), and the port's last answer. -/
structure State where
  regs : Regs
  eq : Equalizer
  cal : Calibration
  sram : Memory
  pending : List HostAccess
  response : PortResponse
  deriving DecidableEq, Repr

/-- Every register is 0x00000000 after reset (10_state R59). -/
def Regs.reset : Regs :=
  { status := 0, argGain := 0, argQ := 0, argFc := 0, argFs := 0, argIn := 0, argOut := 0, resultF := 0, resultI := 0,
    gainArr := Vector.replicate 10 0, resultArr := Vector.replicate 10 0, designOut := Vector.replicate 5 0,
    coefArr := Vector.replicate 50 0 }

/-- A delay line at rest: four times +0.0 (10_state R59). -/
def DelayLine.rest : DelayLine := { x1 := 0, x2 := 0, y1 := 0, y2 := 0 }

/-- The equalizer after reset (10_state R59): uninitialized, every coefficient and delay value +0.0. -/
def Equalizer.reset : Equalizer :=
  { initialized := false
    coef := Vector.replicate 10 { b0 := 0, b1 := 0, b2 := 0, a1 := 0, a2 := 0 }
    delay := Vector.replicate 10 DelayLine.rest
    bands := Vector.replicate 10 { gain := 0, q := 0, isOpaque := false } }

/-- The tone unit after reset (10_state R55). -/
def Tone.reset : Tone := { coeff := 0, y1 := 0, y2 := 0, n := 0 }

/-- The detector unit after reset (10_state R56): dt_len = ANALYSIS_SAMPLES = 4800, the rest 0. -/
def Detector.reset : Detector := { k := 0, len := 4800, coeff := 0, s1 := 0, s2 := 0 }

/-- The controller after reset (10_state R59). -/
def Calibration.reset : Calibration :=
  { state := .idle, band := 0, cnt := 0, iteration := 0, measured := Vector.replicate 10 0,
    correction := Vector.replicate 10 0, cumulative := Vector.replicate 10 0, lastError := .none,
    tone := Tone.reset, det := Detector.reset }

/-- The machine right after reset (10_state R59, 70_reset R330): no access waits and none has been answered (log 1). -/
def State.reset : State :=
  { regs := Regs.reset, eq := Equalizer.reset, cal := Calibration.reset, sram := [], pending := [], response := .none }

end Sys2Proof.Machine
end

