-- ==== Sys2Proof/Machine/Flags.lean ====
section
/-! DEFINITION. The STATUS word, the only flags of the core (10_state R34, R43). -/

namespace Sys2Proof.Machine

/-- STATUS with the fields OK (bit 0), NULL (bit 1) and ILLEGAL (bit 2); bits 31:3 are 0 (10_state R34). -/
def statusWord (ok null illegal : Bool) : Word :=
  BitVec.ofNat 32 (ok.toNat + 2 * null.toNat + 4 * illegal.toNat)

/-- OK = 1: the command completed (10_state R34). -/
def statusOk : Word := statusWord true false false

/-- OK = 0: the command failed (60_exceptions R302). -/
def statusFailed : Word := statusWord false false false

/-- NULL = 1: an array getter returned null (10_state R34). -/
def statusNull : Word := statusWord false true false

/-- ILLEGAL = 1: the command word was rejected (30_encoding R110). -/
def statusIllegal : Word := statusWord false false true

/-- STATUS of a command with a boolean result (10_state R34). -/
def statusOf (ok : Bool) : Word := if ok then statusOk else statusFailed

end Sys2Proof.Machine
end

