-- ==== Sys2Proof/Machine/Binary32.lean ====
section
/-! DEFINITION. IEEE-754 binary32 arithmetic, roundTiesToEven, one rounding per operator, with subnormals (00_scope R18), and
SQRT, f32, clamp and round_half_away (00_scope R19 to R23). Each operation takes its operands apart, computes on exact
integers, and rounds once at the end. -/

namespace Sys2Proof.Machine

/-! ## Patterns (20_memory R75) -/

/-- The sign bit. -/
def signBit (w : F32) : Bool := w.toNat / 2 ^ 31 = 1

/-- The biased exponent, bits 30:23. -/
def expField (w : F32) : Nat := w.toNat / 2 ^ 23 % 2 ^ 8

/-- The fraction, bits 22:0. -/
def fracField (w : F32) : Nat := w.toNat % 2 ^ 23

/-- The pattern with this sign whose bits 30:0 are `magnitude`. -/
def ofSignMagnitude (sign : Bool) (magnitude : Nat) : F32 :=
  BitVec.ofNat 32 ((if sign then 2 ^ 31 else 0) + magnitude)

/-- Bits 30:0 of an infinity. -/
def infinityMagnitude : Nat := 255 * 2 ^ 23

/-- A NaN has biased exponent 255 and a nonzero fraction. -/
def isNaN (w : F32) : Bool := expField w = 255 && fracField w ≠ 0

/-- A finite value has a biased exponent below 255. -/
def isFinite (w : F32) : Bool := expField w < 255

/-- The pattern a NaN-producing operation returns: NAN_BITS applied to the operation and its operands (00_scope R14; log 6).
An operation of one operand gives that operand twice. -/
def nanResult (op : ArithOp) (a b : F32) : F32 :=
  let p := Config.nanBits op a b
  ofSignMagnitude p.sign (infinityMagnitude + (p.fractionLessOne.val + 1))

/-! ## Taking values apart -/

/-- What a pattern stands for. `finite s m e` is (-1)^s · m · 2^e, a zero having m = 0. -/
inductive Unpacked where
  | nan
  | infinite (sign : Bool)
  | finite (sign : Bool) (m : Nat) (e : Int)
  deriving DecidableEq, Repr

/-- The value of a pattern: subnormals have exponent -149 and no implicit bit. -/
def unpack (w : F32) : Unpacked :=
  if expField w = 255 then
    if fracField w = 0 then .infinite (signBit w) else .nan
  else if expField w = 0 then .finite (signBit w) (fracField w) (-149)
  else .finite (signBit w) (2 ^ 23 + fracField w) ((expField w : Int) - 150)

/-! ## Rounding -/

/-- m / 2^d rounded to the nearest integer, ties to even. -/
def roundShift (m d : Nat) : Nat :=
  let q := m / 2 ^ d
  let r := m % 2 ^ d
  if 2 * r > 2 ^ d ∨ (2 * r = 2 ^ d ∧ q % 2 = 1) then q + 1 else q

/-- The exponent of the last place of binary32 at a value m · 2^e with m > 0: 23 places below its leading bit, and at least
-149 (gradual underflow). -/
def lastPlace (m : Nat) (e : Int) : Int := max ((Nat.log2 m : Int) + e - 23) (-149)

/-- Bits 30:0 of m · 2^e rounded to binary32, roundTiesToEven, m > 0. A significand of 2^24 carries into the exponent, and
everything from the exponent 255 on is infinity. -/
def roundMagnitude (m : Nat) (e : Int) : Nat :=
  let q := lastPlace m e
  let n := if q ≤ e then m * 2 ^ (e - q).toNat else roundShift m (q - e).toNat
  min ((q + 149).toNat * 2 ^ 23 + n) infinityMagnitude

/-- (-1)^sign · m · 2^e rounded to binary32; m = 0 gives a zero of that sign. -/
def roundPack (sign : Bool) (m : Nat) (e : Int) : F32 :=
  ofSignMagnitude sign (if m = 0 then 0 else roundMagnitude m e)

/-- `2 * m`, plus one when something was left over: an odd last bit stands for the rest of a result that is not exact, and
roundPack of it is the rounding of the exact result as long as the last bit is below the rounding position. -/
def withSticky (m : Nat) (rest : Bool) : Nat := 2 * m + (if rest then 1 else 0)

/-! ## The operations -/

/-- The signed integer (-1)^sign · m. -/
def signed (sign : Bool) (m : Nat) : Int := if sign then -(m : Int) else (m : Int)

/-- The exact sum of two finite values, rounded once. An exact zero is -0.0 only when both operands are negative zeros. -/
def addFinite (sa : Bool) (ma : Nat) (ea : Int) (sb : Bool) (mb : Nat) (eb : Int) : F32 :=
  let q := min ea eb
  let x := signed sa (ma * 2 ^ (ea - q).toNat) + signed sb (mb * 2 ^ (eb - q).toNat)
  if x = 0 then ofSignMagnitude (sa && sb) 0 else roundPack (x < 0) x.natAbs q

/-- Addition of unpacked values; `invalid` is the result when an operand is a NaN or the infinities cancel. -/
def addUnpacked (invalid : F32) : Unpacked → Unpacked → F32
  | .nan, _ => invalid
  | _, .nan => invalid
  | .infinite s, .infinite t => if s = t then ofSignMagnitude s infinityMagnitude else invalid
  | .infinite s, .finite _ _ _ => ofSignMagnitude s infinityMagnitude
  | .finite _ _ _, .infinite t => ofSignMagnitude t infinityMagnitude
  | .finite sa ma ea, .finite sb mb eb => addFinite sa ma ea sb mb eb

/-- The value with its sign changed. -/
def Unpacked.negate : Unpacked → Unpacked
  | .nan => .nan
  | .infinite s => .infinite (!s)
  | .finite s m e => .finite (!s) m e

/-- `a + b` (00_scope R18). -/
def fAdd (a b : F32) : F32 := addUnpacked (nanResult .add a b) (unpack a) (unpack b)

/-- `a - b` (00_scope R18). -/
def fSub (a b : F32) : F32 := addUnpacked (nanResult .sub a b) (unpack a) (unpack b).negate

/-- Multiplication of unpacked values; zero times infinity is invalid. -/
def mulUnpacked (invalid : F32) : Unpacked → Unpacked → F32
  | .nan, _ => invalid
  | _, .nan => invalid
  | .infinite s, .infinite t => ofSignMagnitude (s != t) infinityMagnitude
  | .infinite s, .finite t m _ => if m = 0 then invalid else ofSignMagnitude (s != t) infinityMagnitude
  | .finite s m _, .infinite t => if m = 0 then invalid else ofSignMagnitude (s != t) infinityMagnitude
  | .finite sa ma ea, .finite sb mb eb => roundPack (sa != sb) (ma * mb) (ea + eb)

/-- `a * b` (00_scope R18). -/
def fMul (a b : F32) : F32 := mulUnpacked (nanResult .mul a b) (unpack a) (unpack b)

/-- The quotient of two finite values, the divisor nonzero: 50 extra places make the integer quotient longer than 25 bits. -/
def divFinite (sign : Bool) (ma : Nat) (ea : Int) (mb : Nat) (eb : Int) : F32 :=
  let n := ma * 2 ^ 50
  roundPack sign (withSticky (n / mb) (n % mb ≠ 0)) (ea - eb - 51)

/-- Division of unpacked values; 0/0 and infinity/infinity are invalid, a finite nonzero value over zero is infinite. -/
def divUnpacked (invalid : F32) : Unpacked → Unpacked → F32
  | .nan, _ => invalid
  | _, .nan => invalid
  | .infinite _, .infinite _ => invalid
  | .infinite s, .finite t _ _ => ofSignMagnitude (s != t) infinityMagnitude
  | .finite s _ _, .infinite t => ofSignMagnitude (s != t) 0
  | .finite sa ma ea, .finite sb mb eb =>
    if mb = 0 then if ma = 0 then invalid else ofSignMagnitude (sa != sb) infinityMagnitude
    else divFinite (sa != sb) ma ea mb eb

/-- `a / b` (00_scope R18). -/
def fDiv (a b : F32) : F32 := divUnpacked (nanResult .div a b) (unpack a) (unpack b)

/-- The integer square root of `m` below 2^bits, found from its highest bit down, added to the root found so far. -/
def rootBits (m : Nat) : (bits : Nat) → (root : Nat) → Nat
  | 0, root => root
  | k + 1, root => rootBits m k (if (root + 2 ^ k) * (root + 2 ^ k) ≤ m then root + 2 ^ k else root)

/-- The square root of m · 2^e with m > 0: m is shifted left by 60 or 61 places, so that the exponent is even and the
integer root, below 2^43, has at least 30 bits. -/
def sqrtFinite (m : Nat) (e : Int) : F32 :=
  let shift : Nat := if e % 2 = 0 then 60 else 61
  let wide := m * 2 ^ shift
  let root := rootBits wide 43 0
  roundPack false (withSticky root (root * root ≠ wide)) ((e - shift) / 2 - 1)

/-- SQRT, the IEEE squareRoot (00_scope R20): a NaN below zero, and a zero is its own root. -/
def fSqrt (a : F32) : F32 :=
  match unpack a with
  | .nan => nanResult .sqrt a a
  | .infinite s => if s then nanResult .sqrt a a else a
  | .finite s m e => if m = 0 then a else if s then nanResult .sqrt a a else sqrtFinite m e

/-- Unary minus flips the sign bit (00_scope R18). -/
def fNeg (a : F32) : F32 := a ^^^ 0x80000000#32

/-- Where a pattern that is no NaN stands in the order of the values; both zeros stand at 0. -/
def orderKey (w : F32) : Int := signed (signBit w) (w.toNat % 2 ^ 31)

/-- `a < b`; false when either is a NaN (00_scope R22). -/
def fLt (a b : F32) : Bool := !isNaN a && !isNaN b && decide (orderKey a < orderKey b)

/-- `a > b`; false when either is a NaN (00_scope R22). -/
def fGt (a b : F32) : Bool := fLt b a

/-- `f32(i)` of a natural number (00_scope R19). -/
def fOfNat (i : Nat) : F32 := roundPack false i 0

/-- clamp(v, lo, hi) (00_scope R22). -/
def fClamp (v lo hi : F32) : F32 := if fLt v lo then lo else if fGt v hi then hi else v

/-- round_half_away(x) of a finite x (00_scope R23): |x| + 1/2, cut to an integer. A value that is not finite, which the rule
leaves out and no command reaches, gives 0 (log 12). -/
def roundHalfAway (x : F32) : Int :=
  match unpack x with
  | .nan => 0
  | .infinite _ => 0
  | .finite s m e =>
    signed s (if 0 ≤ e then m * 2 ^ e.toNat else (2 * m + 2 ^ (-e).toNat) / 2 ^ ((-e).toNat + 1))

end Sys2Proof.Machine
end

