-- ==== Sys2Proof/Machine/Constants.lean ====
section
/-! DEFINITION. The fixed configuration constants (00_scope R10, R11), the parameters the spec decides (00_scope R13), and the
integer codes of the controller states (10_state R48). -/

namespace Sys2Proof.Machine

/-- NUM_BANDS (00_scope R10). -/
def numBands : Nat := 10

/-- BAND_FREQ[0..9]: 25, 40, 63, 100, 160, 250, 400, 630, 1000, 1600 Hz (00_scope R10). -/
def bandFreq : Vector F32 10 :=
  #v[0x41C80000#32, 0x42200000#32, 0x427C0000#32, 0x42C80000#32, 0x43200000#32,
    0x437A0000#32, 0x43C80000#32, 0x441D8000#32, 0x447A0000#32, 0x44C80000#32]

/-- FS, 48000 Hz (00_scope R10). -/
def sampleRate : F32 := 0x473B8000#32

/-- GAIN_MIN_DB, -12 dB (00_scope R10). -/
def gainMinDb : F32 := 0xC1400000#32

/-- GAIN_MAX_DB, +12 dB (00_scope R10). -/
def gainMaxDb : F32 := 0x41400000#32

/-- Q_MIN, 0.1 (00_scope R10). -/
def qMin : F32 := 0x3DCCCCCD#32

/-- Q_MAX, 20 (00_scope R10). -/
def qMax : F32 := 0x41A00000#32

/-- CAL_Q, the fixed calibration Q 2.0 (00_scope R10). -/
def calQ : F32 := 0x40000000#32

/-- DAMPING, 0.7 (00_scope R10). -/
def damping : F32 := 0x3F333333#32

/-- MAX_ITERATIONS (00_scope R10): the number of sweeps (44 R250). -/
def maxIterations : Nat := 3

/-- TONE_AMPLITUDE, 0.5 (00_scope R10). -/
def toneAmplitude : F32 := 0x3F000000#32

/-- LEVEL_FLOOR_DB, -120 (00_scope R10). -/
def levelFloorDb : F32 := 0xC2F00000#32

/-- MAG_THRESHOLD, 1e-9 (00_scope R10). -/
def magThreshold : F32 := 0x3089705F#32

/-- SETTLING_SAMPLES (00_scope R11). -/
def settlingSamples : Nat := 9600

/-- ANALYSIS_SAMPLES (00_scope R11). -/
def analysisSamples : Nat := 4800

/-- TOTAL_SAMPLES_PER_TONE (00_scope R11). -/
def totalSamplesPerTone : Nat := 14400

/-- FADE_SAMPLES (00_scope R11). -/
def fadeSamples : Nat := 480

/-- DEFAULT_Q, 2.0 (00_scope R13). -/
def defaultQ : F32 := 0x40000000#32

/-- REFINE_ENABLED (00_scope R13). -/
def refineEnabled : Bool := true

/-- BAND_FREQ_SENTINEL, +0.0 (00_scope R13). -/
def bandFreqSentinel : F32 := 0#32

/-- SAMPLE_RAM_WORDS, at least 1 and at most 1073740800 (20_memory R71; log 7). -/
def sampleRamWords : Nat := Config.sampleRamWordsLessOne.val + 1

/-! The real literals of the pseudocode. -/

/-- +0.0. -/
def fZero : F32 := 0#32

/-- 1.0. -/
def fOne : F32 := 0x3F800000#32

/-- 2.0. -/
def fTwo : F32 := 0x40000000#32

/-- -2.0. -/
def fMinusTwo : F32 := 0xC0000000#32

/-- 10.0. -/
def fTen : F32 := 0x41200000#32

/-- 20.0. -/
def fTwenty : F32 := 0x41A00000#32

/-- 40.0. -/
def fForty : F32 := 0x42200000#32

/-- 0.95, the progress while Computing and Applying (44 R272). -/
def fNinetyFivePercent : F32 := 0x3F733333#32

/-- 2*PI (00_scope R21). -/
def fTwoPi : F32 := 0x40C90FDB#32

/-- The number CTRL_GET_STATE returns (10_state R48). -/
def stateCode : CtrlState → Nat
  | .idle => 0
  | .measuring => 1
  | .computing => 2
  | .applying => 3
  | .done => 4
  | .error => 5

end Sys2Proof.Machine
end

