-- ==== Sys2Proof/Machine/Memory.lean ====
section
/-! DEFINITION. The sample RAM as cells of bytes at their port addresses (20_memory R70 to R77): reading and writing a byte,
a word in little-endian order, a sample by its word index, and a block of samples. -/

namespace Sys2Proof.Machine

/-- What an unlisted byte reads as: 0x00, the reset content of the sample RAM (10_state R58). -/
def unlistedByte : Byte := 0

/-- The byte at an address. -/
def readByte : Memory → Nat → Byte
  | [], _ => unlistedByte
  | (k, v) :: rest, a => if k = a then v else readByte rest a

/-- Puts a byte at an address, keeping the cells in order and leaving out a cell that reads as an unlisted one. -/
def writeByte : Memory → Nat → Byte → Memory
  | [], a, v => if v = unlistedByte then [] else [(a, v)]
  | (k, b) :: rest, a, v =>
    if a < k then if v = unlistedByte then (k, b) :: rest else (a, v) :: (k, b) :: rest
    else if a = k then if v = unlistedByte then rest else (a, v) :: rest
    else (k, b) :: writeByte rest a v

/-- The canonical form: addresses strictly rising, and no cell that reads as an unlisted one. -/
def memoryWf : Memory → Bool
  | [] => true
  | (k, v) :: rest => (v != unlistedByte) && rest.all (fun c => decide (k < c.1)) && memoryWf rest

/-- The word whose lowest byte is at `a`: the byte at the lowest address is bits 7:0 (20_memory R75). -/
def readWord (m : Memory) (a : Nat) : Word :=
  readByte m (a + 3) ++ readByte m (a + 2) ++ readByte m (a + 1) ++ readByte m a

/-- Stores a word with its lowest byte at `a` (20_memory R75). -/
def writeWord (m : Memory) (a : Nat) (w : Word) : Memory :=
  writeByte (writeByte (writeByte (writeByte m a (w.extractLsb' 0 8)) (a + 1) (w.extractLsb' 8 8))
    (a + 2) (w.extractLsb' 16 8)) (a + 3) (w.extractLsb' 24 8)

/-- The byte offset of SRAM[i] (20_memory R71). -/
def sramAddress (i : Nat) : Nat := 0x1000 + 4 * i

/-- SRAM[i] (20_memory R71, R72). -/
def readSram (m : Memory) (i : Nat) : F32 := readWord m (sramAddress i)

/-- SRAM[i] <- v (20_memory R71, R72). -/
def writeSram (m : Memory) (i : Nat) (v : F32) : Memory := writeWord m (sramAddress i) v

/-- SRAM[base + i] for i = 0..n-1 (20_memory R76, R77). -/
def readBlock (m : Memory) (base n : Nat) : List F32 := (List.range n).map fun i => readSram m (base + i)

/-- SRAM[base + i] <- the i-th sample, in rising order of i (20_memory R76, R77). -/
def writeBlock : Memory → Nat → List F32 → Memory
  | m, _, [] => m
  | m, base, v :: rest => writeBlock (writeSram m base v) (base + 1) rest

/-- Whether a block of n samples from this word index lies in the sample RAM, on unbounded integers (20_memory R77). -/
def blockInRam (base n : Nat) : Bool := decide (base + n ≤ sampleRamWords)

end Sys2Proof.Machine
end

