-- ==== Sys2Proof/Machine/Operands.lean ====
section
/-! DEFINITION. Operand assembly (30_encoding R105): buffer bases, the two clamps of the setters (41 R155), and the per-band
tables read at a band index. A real operand is the pattern its register holds, with no conversion. -/

namespace Sys2Proof.Machine

/-- A buffer base is the register's pattern as an unsigned word index, with no scaling (30_encoding R105). -/
def bufferBase (w : Word) : Nat := w.toNat

/-- Both buffers of a process command of length n lie in the sample RAM (20_memory R77, 41 R160, 44 R243). -/
def buffersInRam (s : State) (n : Nat) : Bool :=
  blockInRam (bufferBase s.regs.argIn) n && blockInRam (bufferBase s.regs.argOut) n

/-- The n input samples of a process command, read before anything is written (20_memory R76). -/
def inputBlock (s : State) (n : Nat) : List F32 := readBlock s.sram (bufferBase s.regs.argIn) n

/-- clampGain(g) (41 R155). -/
def clampGain (g : F32) : F32 := fClamp g gainMinDb gainMaxDb

/-- clampQ(q) (41 R155). -/
def clampQ (q : F32) : F32 := fClamp q qMin qMax

/-- BAND_FREQ[b] of the controller's band index. The index is 0..9 wherever a rule reads the table (10_state R50); past the
table the model reads +0.0 (log 11). -/
def bandFreqAt (b : Nat) : F32 := bandFreq[b]?.getD fZero

/-- MIC_CAL[b] of the controller's band index, likewise (44 R247; log 11). -/
def micCalAt (b : Nat) : F32 := if h : b < 10 then Config.micCal ⟨b, h⟩ else fZero

/-- COEF_ARR[5b + j] is coefficient j of band b (10_state R41). -/
def coefficientsAt (arr : Vector F32 50) (b : Fin 10) : Coefficients :=
  { b0 := arr[5 * b.val], b1 := arr[5 * b.val + 1], b2 := arr[5 * b.val + 2],
    a1 := arr[5 * b.val + 3], a2 := arr[5 * b.val + 4] }

/-- Coefficient j of a set, j = 0..4 meaning b0, b1, b2, a1, a2 (10_state R41). -/
def coefficientOf (c : Coefficients) (j : Nat) : F32 :=
  match j with
  | 0 => c.b0
  | 1 => c.b1
  | 2 => c.b2
  | 3 => c.a1
  | _ => c.a2

end Sys2Proof.Machine
end

