-- ==== Sys2Proof/Machine/Ops.lean ====
section
/-! DEFINITION. The operations the commands share: ending a command with a STATUS word (10_state R35), the failure primitive
(60_exceptions R302), the rejection of a command word (30_encoding R110), the writes of result registers (10_state R37), and the
writing of an output block (20_memory R76). The core has no trap entry and no trap return (60_exceptions R309, R310): the failure
primitive takes their place. -/

namespace Sys2Proof.Machine

/-- `reg(STATUS) <- w` (10_state R35). -/
def setStatus (w : Word) (s : State) : State := { s with regs := { s.regs with status := w } }

/-- The command completed: OK = 1 (10_state R34). -/
def complete (s : State) : State := setStatus statusOk s

/-- `last_error <- code` (10_state R54). -/
def setLastError (code : ErrorCode) (s : State) : State := { s with cal := { s.cal with lastError := code } }

/-- `fail(code)` (60_exceptions R302): STATUS is 0, and a controller failure records its code. -/
def failWith (code : Option ErrorCode) (s : State) : State :=
  match code with
  | none => setStatus statusFailed s
  | some c => setStatus statusFailed (setLastError c s)

/-- `reject(w)` (30_encoding R110): STATUS is ILLEGAL and nothing else changes. -/
def rejectWord (s : State) : State := setStatus statusIllegal s

/-- `reg(RESULT_F) <- v` (10_state R37). -/
def setResultF (v : F32) (s : State) : State := { s with regs := { s.regs with resultF := v } }

/-- `reg(RESULT_I) <- v` as int32 (10_state R37, 00_scope R16). -/
def setResultI (v : Int) (s : State) : State := { s with regs := { s.regs with resultI := BitVec.ofInt 32 v } }

/-- `reg(RESULT_ARR[b]) <- v[b]` for every band (10_state R39). -/
def setResultArr (v : Vector F32 10) (s : State) : State := { s with regs := { s.regs with resultArr := v } }

/-- `SRAM[ARG_OUT + i] <- outbuf[i]` for the whole block (20_memory R76, R77). -/
def storeOutput (outbuf : List F32) (s : State) : State :=
  { s with sram := writeBlock s.sram (bufferBase s.regs.argOut) outbuf }

/-- The number CTRL_GET_LAST_ERROR returns (10_state R54). -/
def errorNumber : ErrorCode → Nat
  | .none => 0
  | .invalidState => 1
  | .invalidParameters => 2
  | .bufferOverflow => 3

end Sys2Proof.Machine
end

