-- ==== Sys2Proof/Machine/Designer.lean ====
section
/-! DEFINITION. FilterDesigner (40 R130 to R136) and the command FD_DESIGN. -/

namespace Sys2Proof.Machine

/-- FD(fc, g, Q, fs) with given primitives, one rounding per operator in the order written (40 R131).
DESIGN CHOICE (safe): for a NaN gain, A = POW10 of a NaN is the primitive's own value, as 00_scope R20 and 93 I2 leave it, so that
the coefficients are free there; 41 R155 and 44 R256 say that a NaN gain makes them NaN, which needs POW10(NaN) to be one. Log 17. -/
def designWith (p : Primitives) (fc g q fs : F32) : Coefficients :=
  let a := p.pow10 (fDiv g fForty)
  let w0 := fDiv (fMul fTwoPi fc) fs
  let sn := p.sin w0
  let cs := p.cos w0
  let alpha := fDiv sn (fMul fTwo q)
  let b0 := fAdd fOne (fMul alpha a)
  let b1 := fMul fMinusTwo cs
  let b2 := fSub fOne (fMul alpha a)
  let a0 := fAdd fOne (fDiv alpha a)
  let a1 := fMul fMinusTwo cs
  let a2 := fSub fOne (fDiv alpha a)
  { b0 := fDiv b0 a0, b1 := fDiv b1 a0, b2 := fDiv b2 a0, a1 := fDiv a1 a0, a2 := fDiv a2 a0 }

/-- FD of the core, with its own primitives (00_scope R20, 40 R131). -/
def design (fc g q fs : F32) : Coefficients := designWith Config.primitives fc g q fs

/-- FD(BAND_FREQ[b], g, q, FS), every internal use of the designer (40 R136). -/
def designBand (b : Fin 10) (g q : F32) : Coefficients := design bandFreq[b] g q sampleRate

/-- `reg(DESIGN_OUT[j]) <- cj` (10_state R40, 40 R135). -/
def setDesignOut (c : Coefficients) (s : State) : State :=
  { s with regs := { s.regs with designOut := #v[c.b0, c.b1, c.b2, c.a1, c.a2] } }

/-- FD_DESIGN (40 R135): no clamp, no failure, and nothing else is read or written. -/
def execFdDesign (s : State) : Host.Outcome State Fault Refusal :=
  .next (complete (setDesignOut (design s.regs.argFc s.regs.argGain s.regs.argQ s.regs.argFs) s))

end Sys2Proof.Machine
end

