-- ==== Sys2Proof/Machine/Equalizer.lean ====
section
/-! DEFINITION. BandFilterEngine (41 R150 to R169): the cascade, the gain setters, and the EQ commands. The equalizer never
writes last_error. -/

namespace Sys2Proof.Machine

/-! ## The cascade -/

/-- SectionStep (41 R152): the direct-form-I section with these coefficients and this delay line, on one input. -/
def sectionStep (c : Coefficients) (d : DelayLine) (x : F32) : F32 × DelayLine :=
  let acc := fMul c.b0 x
  let acc := fAdd acc (fMul c.b1 d.x1)
  let acc := fAdd acc (fMul c.b2 d.x2)
  let acc := fSub acc (fMul c.a1 d.y1)
  let acc := fSub acc (fMul c.a2 d.y2)
  (acc, { x1 := x, x2 := d.x1, y1 := acc, y2 := d.y1 })

/-- Section b of the cascade on the value that reaches it (41 R151). -/
def cascadeSection (coef : Vector Coefficients 10) (v : F32 × Vector DelayLine 10) (b : Fin 10) :
    F32 × Vector DelayLine 10 :=
  let r := sectionStep coef[b] v.2[b] v.1
  (r.1, v.2.set b r.2)

/-- CascadeSample (41 R153): one sample through sections 0 to 9 in rising order. -/
def cascadeSample (coef : Vector Coefficients 10) (delay : Vector DelayLine 10) (x : F32) : F32 × Vector DelayLine 10 :=
  (List.finRange 10).foldl (cascadeSection coef) (x, delay)

/-- The samples of a block through the cascade, in order (41 R158). -/
def cascadeBlock (coef : Vector Coefficients 10) : Vector DelayLine 10 → List F32 → List F32 × Vector DelayLine 10
  | delay, [] => ([], delay)
  | delay, x :: rest =>
    let r := cascadeSample coef delay x
    let t := cascadeBlock coef r.2 rest
    (r.1 :: t.1, t.2)

/-- What EQ_PROCESS_BLOCK makes of its input: the cascade's output, or a bit copy when eq_init is false (41 R158, R159). -/
def filterBlock (e : Equalizer) (inbuf : List F32) : List F32 × Equalizer :=
  if e.initialized then
    let r := cascadeBlock e.coef e.delay inbuf
    (r.1, { e with delay := r.2 })
  else (inbuf, e)

/-! ## The setters -/

/-- One band redesigned at a clamped gain and Q, its record written, its delay line left alone (41 R156). -/
def setBand (b : Fin 10) (gain q : F32) (e : Equalizer) : Equalizer :=
  let g := clampGain gain
  let q := clampQ q
  { e with
    coef := e.coef.set b (designBand b g q)
    bands := e.bands.set b { gain := g, q := q, isOpaque := false } }

/-- SetAllGains on an initialized equalizer: every band redesigned, delay lines left alone (41 R163). -/
def setAllBands (gains : Vector F32 10) (q : F32) (e : Equalizer) : Equalizer :=
  let q := clampQ q
  { e with
    coef := Vector.ofFn fun b => designBand b (clampGain gains[b]) q
    bands := Vector.ofFn fun b => { gain := clampGain gains[b], q := q, isOpaque := false } }

/-- SetAllGainsCore (44 R252): the equalizer afterwards and whether it succeeded; it fails when eq_init is false. -/
def setAllGainsCore (gains : Vector F32 10) (q : F32) (e : Equalizer) : Equalizer × Bool :=
  if e.initialized then (setAllBands gains q e, true) else (e, false)

/-- Every band designed at 0 dB with DEFAULT_Q, every delay line cleared, eq_init true (41 R150). -/
def flatEqualizer : Equalizer :=
  { initialized := true
    coef := Vector.ofFn fun b => designBand b fZero defaultQ
    delay := Vector.replicate 10 { x1 := fZero, x2 := fZero, y1 := fZero, y2 := fZero }
    bands := Vector.replicate 10 { gain := fZero, q := defaultQ, isOpaque := false } }

/-- Every coefficient replaced by COEF_ARR, every band record marked opaque, delay lines left alone (41 R165). -/
def loadCoefficients (arr : Vector F32 50) (e : Equalizer) : Equalizer :=
  { e with
    coef := Vector.ofFn fun b => coefficientsAt arr b
    bands := e.bands.map fun r => { r with isOpaque := true } }

/-- COEF_ARR as EQ_GET_COEFFICIENTS writes it: entry 5b + j is coef[b][j] (41 R164). -/
def exportedCoefficients (coef : Vector Coefficients 10) : Vector F32 50 :=
  Vector.ofFn fun m => coefficientOf coef[m.val / 5] (m.val % 5)

/-! ## The commands -/

/-- EQ_INIT (41 R150). -/
def execEqInit (s : State) : Host.Outcome State Fault Refusal :=
  .next (complete { s with eq := flatEqualizer })

/-- EQ_SET_BAND_GAIN (41 R156): fails when the equalizer is uninitialized or the band is out of range. -/
def execEqSetBandGain (band : Nat) (s : State) : Host.Outcome State Fault Refusal :=
  .next <|
    if h : s.eq.initialized ∧ band < 10 then
      complete { s with eq := setBand ⟨band, h.2⟩ s.regs.argGain s.regs.argQ s.eq }
    else failWith none s

/-- EQ_SET_ALL_GAINS (41 R163): fails when the equalizer is uninitialized. -/
def execEqSetAllGains (s : State) : Host.Outcome State Fault Refusal :=
  .next <|
    if s.eq.initialized then complete { s with eq := setAllBands s.regs.gainArr s.regs.argQ s.eq }
    else failWith none s

/-- EQ_PROCESS_BLOCK (41 R158): fails when a buffer leaves the sample RAM. -/
def execEqProcessBlock (n : Nat) (s : State) : Host.Outcome State Fault Refusal :=
  .next <|
    if buffersInRam s n then
      let r := filterBlock s.eq (inputBlock s n)
      complete (storeOutput r.1 { s with eq := r.2 })
    else failWith none s

/-- EQ_GET_COEFFICIENTS (41 R164): runs whether or not eq_init is true. -/
def execEqGetCoefficients (s : State) : Host.Outcome State Fault Refusal :=
  .next (complete { s with regs := { s.regs with coefArr := exportedCoefficients s.eq.coef } })

/-- EQ_SET_COEFFICIENTS (41 R165): fails when the equalizer is uninitialized; no value is checked. -/
def execEqSetCoefficients (s : State) : Host.Outcome State Fault Refusal :=
  .next <|
    if s.eq.initialized then complete { s with eq := loadCoefficients s.regs.coefArr s.eq }
    else failWith none s

/-- EQ_RESET (41 R166): every delay line cleared, in any state. -/
def execEqReset (s : State) : Host.Outcome State Fault Refusal :=
  .next (complete { s with
    eq := { s.eq with delay := Vector.replicate 10 { x1 := fZero, x2 := fZero, y1 := fZero, y2 := fZero } } })

/-- EQ_GET_BAND_FREQUENCY (41 R167): the table entry, or the sentinel, which is no failure. -/
def execEqGetBandFrequency (band : Nat) (s : State) : Host.Outcome State Fault Refusal :=
  .next (complete (setResultF (if h : band < 10 then bandFreq[band] else bandFreqSentinel) s))

end Sys2Proof.Machine
end

