-- ==== Sys2Proof/Machine/FrequencyDetector.lean ====
section
/-! DEFINITION. FrequencyDetector (43 R210 to R218), the internal Goertzel detector of one bin. -/

namespace Sys2Proof.Machine

/-- The bin index of DetInit: round_half_away((f32(len)·freq)/FS) (43 R211). -/
def detectorBin (freq : F32) (len : Nat) : Nat :=
  (roundHalfAway (fDiv (fMul (fOfNat len) freq) sampleRate)).toNat

/-- DetInit(freq, len) with given primitives (43 R211). -/
def detInitWith (p : Primitives) (freq : F32) (len : Nat) : Detector :=
  let k := detectorBin freq len
  let w := fDiv (fMul fTwoPi (fOfNat k)) (fOfNat len)
  { k := k, len := len, coeff := fMul fTwo (p.cos w), s1 := fZero, s2 := fZero }

/-- DetInit(freq, len) of the core (43 R211). -/
def detInit (freq : F32) (len : Nat) : Detector := detInitWith Config.primitives freq len

/-- DetUpdate(x) (43 R213). -/
def detUpdate (x : F32) (d : Detector) : Detector :=
  { d with s1 := fAdd (fSub (fMul d.coeff d.s1) d.s2) x, s2 := d.s1 }

/-- The magnitude DetFinalize computes (43 R214). -/
def detMagnitude (d : Detector) : F32 :=
  let power := fSub (fAdd (fMul d.s1 d.s1) (fMul d.s2 d.s2)) (fMul (fMul d.coeff d.s1) d.s2)
  fDiv (fSqrt (fMul fTwo power)) (fOfNat d.len)

/-- DetFinalize() with given primitives (43 R214): the level in dB, or the floor when the magnitude is not above
MAG_THRESHOLD, a NaN magnitude included (43 R215). -/
def detFinalizeWith (p : Primitives) (d : Detector) : F32 :=
  let mag := detMagnitude d
  if fGt mag magThreshold then fMul fTwenty (p.log10 mag) else levelFloorDb

/-- DetFinalize() of the core (43 R214). It does not change the detector. -/
def detFinalize (d : Detector) : F32 := detFinalizeWith Config.primitives d

end Sys2Proof.Machine
end

