-- ==== Sys2Proof/Machine/ToneGenerator.lean ====
section
/-! DEFINITION. ToneGenerator (42 R190 to R197), the internal unit that makes the speaker samples while Measuring. -/

namespace Sys2Proof.Machine

/-- ToneInit(freq) with given primitives (42 R191): y[-1] = -sin(w0), y[-2] = -sin(2·w0). -/
def toneInitWith (p : Primitives) (freq : F32) : Tone :=
  let w0 := fDiv (fMul fTwoPi freq) sampleRate
  { coeff := fMul fTwo (p.cos w0), y1 := fNeg (p.sin w0), y2 := fNeg (p.sin (fMul fTwo w0)), n := 0 }

/-- ToneInit(freq) of the core (42 R191). -/
def toneInit (freq : F32) : Tone := toneInitWith Config.primitives freq

/-- Env(n), the fade envelope (42 R193): k/480 for the distance k < 480 from either end of the tone, 1.0 in between. -/
def envelope (n : Nat) : F32 :=
  if totalSamplesPerTone ≤ n then fZero
  else
    let k := min n (totalSamplesPerTone - 1 - n)
    if k < fadeSamples then fDiv (fOfNat k) (fOfNat fadeSamples) else fOne

/-- ToneNext() (42 R192): one speaker sample, and the unit after it. -/
def toneNext (t : Tone) : F32 × Tone :=
  let y := fSub (fMul t.coeff t.y1) t.y2
  (fMul (fMul toneAmplitude (envelope t.n)) y, { coeff := t.coeff, y1 := y, y2 := t.y1, n := t.n + 1 })

end Sys2Proof.Machine
end

