-- ==== Sys2Proof/Machine/Controller.lean ====
section
/-! DEFINITION. CalibrationController (44 R230 to R280): the state machine, its ticks, and the CTRL commands. -/

namespace Sys2Proof.Machine

/-! ## Measuring -/

/-- StartBand(b) (44 R231). -/
def startBand (b : Nat) (c : Calibration) : Calibration :=
  { c with tone := toneInit (bandFreqAt b), det := detInit (bandFreqAt b) analysisSamples, cnt := 0 }

/-- The analysis window: the index since tone start lies in [9600, 14400) (44 R236). -/
def inWindow (cnt : Nat) : Bool := decide (settlingSamples ≤ cnt ∧ cnt < settlingSamples + analysisSamples)

/-- `measured[band] <- DetFinalize() + MIC_CAL[band]` (44 R247). A band index past the array, which no run reaches, writes
nothing (log 11). -/
def storeLevel (c : Calibration) : Calibration :=
  { c with measured := c.measured.setIfInBounds c.band (fAdd (detFinalize c.det) (micCalAt c.band)) }

/-- The end of a tone (44 R244, R246): the level is stored and the next band starts, or the sweep ends in Computing. -/
def finishTone (c : Calibration) : Calibration :=
  let c := storeLevel c
  let c := { c with band := c.band + 1 }
  if c.band = numBands then { c with state := .computing } else startBand c.band c

/-- One sample of MeasureBlock (44 R238, R244): the speaker sample, then the microphone sample into the detector if it is in
the window, then the count. -/
def measureSample (mic : F32) (c : Calibration) : F32 × Calibration :=
  let r := toneNext c.tone
  let c := { c with tone := r.2, det := if inWindow c.cnt then detUpdate mic c.det else c.det, cnt := c.cnt + 1 }
  (r.1, if c.cnt = totalSamplesPerTone then finishTone c else c)

/-- MeasureBlock (44 R244): the samples in order, as long as the state is Measuring; the speaker words after the end of the
sweep are +0.0 (44 R246). -/
def measureBlock : List F32 → Calibration → List F32 × Calibration
  | [], c => ([], c)
  | mic :: rest, c =>
    if c.state = .measuring then
      let r := measureSample mic c
      let t := measureBlock rest r.2
      (r.1 :: t.1, t.2)
    else (List.replicate (rest.length + 1) fZero, c)

/-! ## Computing and Applying -/

/-- The correction of a band (44 R248): the measured level with its sign changed, clamped. -/
def correctionOf (level : F32) : F32 := fClamp (fNeg level) gainMinDb gainMaxDb

/-- The cumulative gain of a band after this sweep's correction (44 R248). -/
def accumulate (iteration : Nat) (cumulative correction : F32) : F32 :=
  if iteration = 0 then correction
  else fClamp (fAdd cumulative (fMul correction damping)) gainMinDb gainMaxDb

/-- ComputeTick (44 R248). -/
def computeTick (c : Calibration) : Calibration :=
  { c with
    correction := Vector.ofFn fun b => correctionOf c.measured[b]
    cumulative := Vector.ofFn fun b => accumulate c.iteration c.cumulative[b] (correctionOf c.measured[b])
    state := .applying }

/-- The controller's part of ApplyTick (44 R249): the next sweep, or Done. -/
def advanceIteration (c : Calibration) : Calibration :=
  if refineEnabled ∧ c.iteration + 1 < maxIterations then
    startBand 0 { c with iteration := c.iteration + 1, band := 0, state := .measuring }
  else { c with state := .done }

/-- ApplyTick (44 R249): the equalizer is programmed with the cumulative gains; a failure of that is ignored (44 R252). -/
def applyTick (s : State) : State :=
  { s with eq := (setAllGainsCore s.cal.cumulative calQ s.eq).1, cal := advanceIteration s.cal }

/-! ## The tick -/

/-- The all-zero block (44 R237). -/
def silence (n : Nat) : List F32 := List.replicate n fZero

/-- One accepted CTRL_PROCESS_BLOCK on its input block (44 R234): the speaker block, and the state before that block is
stored. -/
def tick (inbuf : List F32) (s : State) : List F32 × State :=
  match s.cal.state with
  | .measuring =>
    let r := measureBlock inbuf s.cal
    (r.1, { s with cal := r.2 })
  | .computing => (silence inbuf.length, { s with cal := computeTick s.cal })
  | .applying => (silence inbuf.length, applyTick s)
  | .idle => (silence inbuf.length, s)
  | .done => (silence inbuf.length, s)
  | .error => (silence inbuf.length, s)

/-! ## Getters' values -/

/-- The progress estimate (44 R272). -/
def progress (c : Calibration) : F32 :=
  match c.state with
  | .idle => fZero
  | .measuring =>
    fAdd (fDiv (fOfNat c.band) fTen) (fDiv (fDiv (fOfNat c.cnt) (fOfNat totalSamplesPerTone)) fTen)
  | .computing => fNinetyFivePercent
  | .applying => fNinetyFivePercent
  | .done => fOne
  | .error => fZero

/-- The current band, -1 when not measuring (44 R271). -/
def currentBand (c : Calibration) : Int := if c.state = .measuring then (c.band : Int) else -1

/-- An array getter (44 R273, R274): null outside Done, with RESULT_ARR left as it was. -/
def arrayGetter (v : Vector F32 10) (s : State) : State :=
  if s.cal.state = .done then complete (setResultArr v s) else setStatus statusNull s

/-! ## The commands -/

/-- CTRL_INIT (44 R232): the controller and its two units at their reset values; the equalizer is not touched. -/
def execCtrlInit (s : State) : Host.Outcome State Fault Refusal :=
  .next (complete { s with cal := Calibration.reset })

/-- CTRL_START (44 R233): only legal from Idle. -/
def execCtrlStart (s : State) : Host.Outcome State Fault Refusal :=
  .next <|
    if s.cal.state = .idle then
      complete { s with cal := { startBand 0 { s.cal with iteration := 0, band := 0 } with state := .measuring } }
    else failWith (some .invalidState) s

/-- CTRL_PROCESS_BLOCK (44 R234): a range failure records InvalidParameters and is no tick (44 R243). -/
def execCtrlProcessBlock (n : Nat) (s : State) : Host.Outcome State Fault Refusal :=
  .next <|
    if buffersInRam s n then
      let r := tick (inputBlock s n) s
      complete (storeOutput r.1 r.2)
    else failWith (some .invalidParameters) s

/-- CTRL_GET_STATE (44 R270). -/
def execCtrlGetState (s : State) : Host.Outcome State Fault Refusal :=
  .next (complete (setResultI (stateCode s.cal.state) s))

/-- CTRL_GET_CURRENT_BAND (44 R271). -/
def execCtrlGetCurrentBand (s : State) : Host.Outcome State Fault Refusal :=
  .next (complete (setResultI (currentBand s.cal) s))

/-- CTRL_GET_PROGRESS (44 R272). -/
def execCtrlGetProgress (s : State) : Host.Outcome State Fault Refusal :=
  .next (complete (setResultF (progress s.cal) s))

/-- CTRL_GET_CORRECTION_GAINS (44 R273): the cumulative gains. -/
def execCtrlGetCorrectionGains (s : State) : Host.Outcome State Fault Refusal :=
  .next (arrayGetter s.cal.cumulative s)

/-- CTRL_GET_MEASURED_LEVELS (44 R274). -/
def execCtrlGetMeasuredLevels (s : State) : Host.Outcome State Fault Refusal :=
  .next (arrayGetter s.cal.measured s)

/-- CTRL_STOP (44 R275): Idle at once; the arrays, last_error, the units and the equalizer keep their values. -/
def execCtrlStop (s : State) : Host.Outcome State Fault Refusal :=
  .next (complete { s with cal := { s.cal with state := .idle, band := 0, cnt := 0, iteration := 0 } })

/-- CTRL_APPLY_GAINS (44 R276): the given gains go into cumulative unclamped, then the equalizer is programmed with them;
the command's OK is the equalizer's answer. -/
def execCtrlApplyGains (s : State) : Host.Outcome State Fault Refusal :=
  let r := setAllGainsCore s.regs.gainArr calQ s.eq
  .next (setStatus (statusOf r.2) { s with eq := r.1, cal := { s.cal with cumulative := s.regs.gainArr } })

/-- CTRL_GET_LAST_ERROR (44 R279): reading does not clear the code. -/
def execCtrlGetLastError (s : State) : Host.Outcome State Fault Refusal :=
  .next (complete (setResultI (errorNumber s.cal.lastError) s))

/-- CTRL_GET_CPU_USAGE (44 R280). -/
def execCtrlGetCpuUsage (s : State) : Host.Outcome State Fault Refusal :=
  .next (complete (setResultF (Config.cpuUsage s.cal.state) s))

end Sys2Proof.Machine
end

