-- ==== Sys2Proof/Machine/Dispatch.lean ====
section
/-! DEFINITION. The dispatch: one arm per command, one call of its meaning. -/

namespace Sys2Proof.Machine

def exec (i : Instr) (s : State) : Host.Outcome State Fault Refusal :=
  match i with
  | .fdDesign => Sys2Proof.Machine.execFdDesign s
  | .eqInit => Sys2Proof.Machine.execEqInit s
  | .eqSetBandGain band => Sys2Proof.Machine.execEqSetBandGain band s
  | .eqSetAllGains => Sys2Proof.Machine.execEqSetAllGains s
  | .eqProcessBlock n => Sys2Proof.Machine.execEqProcessBlock n s
  | .eqGetCoefficients => Sys2Proof.Machine.execEqGetCoefficients s
  | .eqSetCoefficients => Sys2Proof.Machine.execEqSetCoefficients s
  | .eqReset => Sys2Proof.Machine.execEqReset s
  | .eqGetBandFrequency band => Sys2Proof.Machine.execEqGetBandFrequency band s
  | .ctrlInit => Sys2Proof.Machine.execCtrlInit s
  | .ctrlStart => Sys2Proof.Machine.execCtrlStart s
  | .ctrlProcessBlock n => Sys2Proof.Machine.execCtrlProcessBlock n s
  | .ctrlGetState => Sys2Proof.Machine.execCtrlGetState s
  | .ctrlGetCurrentBand => Sys2Proof.Machine.execCtrlGetCurrentBand s
  | .ctrlGetProgress => Sys2Proof.Machine.execCtrlGetProgress s
  | .ctrlGetCorrectionGains => Sys2Proof.Machine.execCtrlGetCorrectionGains s
  | .ctrlGetMeasuredLevels => Sys2Proof.Machine.execCtrlGetMeasuredLevels s
  | .ctrlStop => Sys2Proof.Machine.execCtrlStop s
  | .ctrlApplyGains => Sys2Proof.Machine.execCtrlApplyGains s
  | .ctrlGetLastError => Sys2Proof.Machine.execCtrlGetLastError s
  | .ctrlGetCpuUsage => Sys2Proof.Machine.execCtrlGetCpuUsage s

end Sys2Proof.Machine
end

