-- ==== Sys2Proof/Machine/HostPort.lean ====
section
/-! DEFINITION. The host port (20_memory R70 to R82): the address map, reads and writes of registers and sample RAM, the bus
error, the command register, and the reset input (70_reset R330, R331). -/

namespace Sys2Proof.Machine

/-- The host-visible registers by name (10_state R32). -/
inductive HostReg where
  | cmd
  | status
  | argGain
  | argQ
  | argFc
  | argFs
  | argIn
  | argOut
  | resultF
  | resultI
  | gainArr (i : Fin 10)
  | resultArr (i : Fin 10)
  | designOut (j : Fin 5)
  | coefArr (m : Fin 50)
  deriving DecidableEq, Repr

/-- The register at a byte offset of the register space, a multiple of 4 (10_state R32, 20_memory R89). -/
def registerAt (offset : Nat) : Option HostReg :=
  if offset = 0x000 then some .cmd
  else if offset = 0x004 then some .status
  else if offset = 0x008 then some .argGain
  else if offset = 0x00C then some .argQ
  else if offset = 0x010 then some .argFc
  else if offset = 0x014 then some .argFs
  else if offset = 0x018 then some .argIn
  else if offset = 0x01C then some .argOut
  else if offset = 0x020 then some .resultF
  else if offset = 0x024 then some .resultI
  else if h : 0x040 ≤ offset ∧ offset < 0x068 then some (.gainArr ⟨(offset - 0x040) / 4, by omega⟩)
  else if h : 0x080 ≤ offset ∧ offset < 0x0A8 then some (.resultArr ⟨(offset - 0x080) / 4, by omega⟩)
  else if h : 0x0C0 ≤ offset ∧ offset < 0x0D4 then some (.designOut ⟨(offset - 0x0C0) / 4, by omega⟩)
  else if h : 0x100 ≤ offset ∧ offset < 0x1C8 then some (.coefArr ⟨(offset - 0x100) / 4, by omega⟩)
  else none

/-- What stands at an address of the port (20_memory R89). -/
inductive Location where
  | register (r : HostReg)
  | sample (i : Nat)
  | reserved
  deriving DecidableEq, Repr

/-- The address map (20_memory R70, R71, R74, R89). -/
def locate (addr : Word) : Location :=
  let a := addr.toNat
  if a < 0x1000 then
    match registerAt a with
    | some r => .register r
    | none => .reserved
  else
    let i := (a - 0x1000) / 4
    if i < sampleRamWords then .sample i else .reserved

/-- A read of a register; CMD is write-only and reads 0x00000000 (10_state R32). -/
def readRegister (r : HostReg) (s : State) : Word :=
  match r with
  | .cmd => 0
  | .status => s.regs.status
  | .argGain => s.regs.argGain
  | .argQ => s.regs.argQ
  | .argFc => s.regs.argFc
  | .argFs => s.regs.argFs
  | .argIn => s.regs.argIn
  | .argOut => s.regs.argOut
  | .resultF => s.regs.resultF
  | .resultI => s.regs.resultI
  | .gainArr i => s.regs.gainArr[i]
  | .resultArr i => s.regs.resultArr[i]
  | .designOut j => s.regs.designOut[j]
  | .coefArr m => s.regs.coefArr[m]

/-- A write of a register that is not CMD: the RW registers store the word (10_state R36), the RO ones ignore it
(10_state R32, 20_memory R79). -/
def writeRegister (r : HostReg) (w : Word) (s : State) : State :=
  match r with
  | .cmd => s
  | .status => s
  | .argGain => { s with regs := { s.regs with argGain := w } }
  | .argQ => { s with regs := { s.regs with argQ := w } }
  | .argFc => { s with regs := { s.regs with argFc := w } }
  | .argFs => { s with regs := { s.regs with argFs := w } }
  | .argIn => { s with regs := { s.regs with argIn := w } }
  | .argOut => { s with regs := { s.regs with argOut := w } }
  | .resultF => s
  | .resultI => s
  | .gainArr i => { s with regs := { s.regs with gainArr := s.regs.gainArr.set i w } }
  | .resultArr _ => s
  | .designOut _ => s
  | .coefArr m => { s with regs := { s.regs with coefArr := s.regs.coefArr.set m w } }

/-- A read at a location; reserved offsets read 0x00000000 (20_memory R74, R79). -/
def readLocation (l : Location) (s : State) : Word :=
  match l with
  | .register r => readRegister r s
  | .sample i => readSram s.sram i
  | .reserved => 0

/-- A write at a location other than CMD; a write to a reserved offset is ignored (20_memory R74, R79). -/
def writeLocation (l : Location) (w : Word) (s : State) : State :=
  match l with
  | .register r => writeRegister r w s
  | .sample i => { s with sram := writeSram s.sram i w }
  | .reserved => s

/-- The port takes whole aligned words only (20_memory R72, R73). -/
def accessAligned (addr : Word) (size : AccessSize) : Bool := size == .word && addr.toNat % 4 == 0

/-- The port's answer to the access being served. -/
def respond (r : PortResponse) (s : State) : State := { s with response := r }

/-- A write of a word to CMD (10_state R33, 30_encoding R100): the command it encodes, or the rejection. -/
def runCommandWord (w : Word) (s : State) : Host.Outcome State Fault Refusal :=
  match decode w with
  | .ok i => exec i s
  | .error _ => .next (rejectWord s)

/-- One interaction of the host with the core (60_exceptions R318). A misaligned or sub-word access is refused with a bus
error, which changes no state of the core (20_memory R73; log 2). Reset puts every piece of state at its reset value; the
accesses that came after it stay held (70_reset R331; log 3). -/
def serve (a : HostAccess) (s : State) : Host.Outcome State Fault Refusal :=
  match a with
  | .reset => .next { State.reset with pending := s.pending }
  | .read addr size =>
    .next (if accessAligned addr size then respond (.data (readLocation (locate addr) s)) s else respond .busError s)
  | .write addr size data =>
    if accessAligned addr size then
      if locate addr = .register .cmd then runCommandWord data (respond .ack s)
      else .next (respond .ack (writeLocation (locate addr) data s))
    else .next (respond .busError s)

/-- The byte offset of CMD (10_state R32). -/
def cmdOffset : Word := 0

/-- The host's write of a command word to CMD (10_state R33). -/
def commandAccess (w : Word) : HostAccess := .write cmdOffset .word w

end Sys2Proof.Machine
end

