-- ==== Sys2Proof/Machine/Step.lean ====
section
/-! DEFINITION. The step: the oldest access held at the port is served (20_memory R80, R82). -/

namespace Sys2Proof.Machine

/-- One step. With no access held, the core keeps its state and does nothing (60_exceptions R320). -/
def step (s : State) : Host.Outcome State Fault Refusal :=
  match s.pending with
  | [] => .next s
  | a :: rest => serve a { s with pending := rest }

/-- The host's write of a command word to CMD placed where the step takes its next access: at the head of the accesses held
(log 1). The bits of the word from `nbits` on are 0. -/
def State.withFetchWord (s : State) (nbits w : Nat) : State :=
  { s with pending := commandAccess (BitVec.ofNat 32 (w % 2 ^ nbits)) :: s.pending }

end Sys2Proof.Machine
end

