-- ==== Sys2Proof/Machine/Accuracy.lean ====
section
/-! DEFINITION. What binary32 results are measured against: the exact value of a pattern, rounding to nearest with ties to even
(00_scope R18), and the accuracy contract of the numeric primitives (00_scope R20): for finite arguments SIN, COS, POW10 and
LOG10 differ from the exact real value by at most TRIG_ULP units in the last place. The machine itself takes the primitives
without the contract (log 4); a statement that needs it has it as a hypothesis. -/

namespace Sys2Proof.Machine

/-- The exact value of a finite pattern; 0 for a pattern that has none. -/
def ratValue (w : F32) : Rat :=
  match unpack w with
  | .nan => 0
  | .infinite _ => 0
  | .finite s m e => (signed s m : Rat) * (2 : Rat) ^ e

/-- The largest finite binary32. -/
def largestFinite : F32 := 0x7F7FFFFF#32

/-- From this magnitude on, halfway between the largest finite value and 2^128, roundTiesToEven gives an infinity. -/
def overflowThreshold : Rat := 2 ^ 128 - 2 ^ 103

/-- `r` is the exact real result `x` rounded to binary32, roundTiesToEven (00_scope R18): an infinity of the sign of `x` when
`x` overflows, and otherwise a finite value as near to `x` as any other, with an even last bit when another is as near. -/
def roundsToNearestEven (x : ℝ) (r : F32) : Prop :=
  if |x| < (overflowThreshold : ℝ) then
    isFinite r = true ∧ ∀ c : F32, isFinite c = true →
      |(ratValue r : ℝ) - x| ≤ |(ratValue c : ℝ) - x| ∧
        (|(ratValue c : ℝ) - x| = |(ratValue r : ℝ) - x| → ratValue c ≠ ratValue r → r.toNat % 2 = 0)
  else r = ofSignMagnitude (decide (x < 0)) infinityMagnitude

/-- `r` differs from the real `y` by at most `tolerance` units in the last place (00_scope R20). The unit at `y` is the distance
of the closest two binary32 values that lie around it. A `y` beyond the largest binary32 gives the infinity of its sign, as
40 R134 says of POW10. Log 5. -/
def withinUlps (tolerance : Rat) (r : F32) (y : ℝ) : Prop :=
  (|y| ≤ (ratValue largestFinite : ℝ) →
    isFinite r ∧
      ∀ a b : F32, isFinite a → isFinite b → (ratValue a : ℝ) ≤ y → y ≤ (ratValue b : ℝ) → ratValue a < ratValue b →
        |(ratValue r : ℝ) - y| ≤ (tolerance : ℝ) * ((ratValue b : ℝ) - (ratValue a : ℝ))) ∧
  ((ratValue largestFinite : ℝ) < y → r = ofSignMagnitude false infinityMagnitude) ∧
  (y < -(ratValue largestFinite : ℝ) → r = ofSignMagnitude true infinityMagnitude)

/-- SIN(0) = 0 and COS(0) = 1, which the contract gives whatever the tolerance (40 R134; 95_test_vectors, V-FD). Either zero is
an argument, and either is a result. Log 16. -/
def exactAtZero (p : Primitives) : Prop :=
  ∀ x : F32, x = 0x00000000#32 ∨ x = 0x80000000#32 →
    (p.sin x = 0x00000000#32 ∨ p.sin x = 0x80000000#32) ∧ p.cos x = 0x3F800000#32

/-- The contract of the four primitives for finite arguments, LOG10 for positive ones (00_scope R20; 93 I1, I2), with the values
at zero that 40 R134 takes from it. -/
def accuratePrimitives (tolerance : Rat) (p : Primitives) : Prop :=
  (∀ x : F32, isFinite x → withinUlps tolerance (p.sin x) (Real.sin (ratValue x : ℝ))) ∧
  (∀ x : F32, isFinite x → withinUlps tolerance (p.cos x) (Real.cos (ratValue x : ℝ))) ∧
  (∀ x : F32, isFinite x → withinUlps tolerance (p.pow10 x) ((10 : ℝ) ^ (ratValue x : ℝ))) ∧
  (∀ x : F32, isFinite x → 0 < ratValue x → withinUlps tolerance (p.log10 x) (Real.logb 10 (ratValue x : ℝ))) ∧
  exactAtZero p

/-- The contract as the core's own primitives owe it (00_scope R14, R20). -/
def coreContract : Prop := accuratePrimitives Config.trigUlp Config.primitives

end Sys2Proof.Machine
end

