-- ==== Sys2Proof/Safety.lean ====
section
/-! DEFINITION. What holds of the core between host accesses: the legal STATUS words (10_state R34), the controller's
invariants (44 R239, R263), the ranges of the integers (00_scope R24), the linked delay lines (41 R154), the design invariant
(10_state R61) and the canonical form of the sample RAM. -/

namespace Sys2Proof.Machine

/-- STATUS holds at most one of OK, NULL and ILLEGAL, and its other bits are 0 (10_state R34). -/
abbrev statusLegal (s : State) : Prop :=
  s.regs.status = 0 ∨ s.regs.status = 1 ∨ s.regs.status = 2 ∨ s.regs.status = 4

/-- The sample RAM is in canonical form, and every cell lies in the window of the SAMPLE_RAM_WORDS words (20_memory R71). -/
abbrev ramSafe (s : State) : Prop :=
  memoryWf s.sram = true ∧ ∀ c ∈ s.sram, sramAddress 0 ≤ c.1 ∧ c.1 < sramAddress sampleRamWords

/-- The controller between commands (44 R239, R263; 10_state R49 to R51). Computing and Applying stand in a sweep, Done after
the last one. -/
abbrev controllerSafe (c : Calibration) : Prop :=
  match c.state with
  | .idle => c.band = 0 ∧ c.cnt = 0 ∧ c.iteration = 0
  | .measuring =>
    c.band < numBands ∧ c.cnt < totalSamplesPerTone ∧ c.iteration < maxIterations ∧ c.tone.n = c.cnt
  | .computing => c.band = numBands ∧ c.cnt = totalSamplesPerTone ∧ c.iteration < maxIterations
  | .applying => c.band = numBands ∧ c.cnt = totalSamplesPerTone ∧ c.iteration < maxIterations
  | .done => c.band = numBands ∧ c.cnt = totalSamplesPerTone ∧ c.iteration + 1 = maxIterations
  | .error => False

/-- The integers of the two units stay in their ranges (10_state R55, R56), and no rule has written BufferOverflow
(10_state R54). -/
abbrev unitsSafe (c : Calibration) : Prop :=
  c.tone.n ≤ totalSamplesPerTone ∧ c.det.k ≤ analysisSamples ∧ 1 ≤ c.det.len ∧ c.det.len ≤ analysisSamples ∧
    c.lastError ≠ .bufferOverflow

/-- The outputs a section remembers are the inputs the next section remembers (41 R154). -/
abbrev delaysLinked (e : Equalizer) : Prop :=
  ∀ b : Fin 9, (e.delay[b.val]).y1 = (e.delay[b.val + 1]).x1 ∧ (e.delay[b.val]).y2 = (e.delay[b.val + 1]).x2

/-- Once the equalizer is initialized, the coefficients of a band that is not opaque are the designer's output for its gain
and Q, bit for bit (10_state R61, 41 R168). -/
abbrev designsKept (e : Equalizer) : Prop :=
  e.initialized = true → ∀ b : Fin 10, (e.bands[b]).isOpaque = false →
    e.coef[b] = designBand b (e.bands[b]).gain (e.bands[b]).q

end Sys2Proof.Machine
end

