-- ==== Sys2Proof/Certificates/Slice0/Obligations.lean ====
section
/-! DEFINITION. The statements for the provers. A next state is given as the old one with the parts that change named, so that
each statement of a result is also its frame. -/

namespace Sys2Proof.Claims

open Sys2Proof.Machine

/-- The samples a process command of length n reads: SRAM[ARG_IN + i] for i = 0..n-1 (20_memory R77). -/
def inputSamples (s : State) (n : Nat) : List F32 :=
  (List.range n).map fun i => readSram s.sram (s.regs.argIn.toNat + i)

/-- Both buffers of length n lie in the sample RAM, on unbounded integers (20_memory R77). -/
abbrev inRange (s : State) (n : Nat) : Prop :=
  s.regs.argIn.toNat + n ≤ sampleRamWords ∧ s.regs.argOut.toNat + n ≤ sampleRamWords

/-- The output words of length n at ARG_OUT hold `out`, and every byte outside them is the byte of the old memory. -/
abbrev stores (s : State) (n : Nat) (out : Nat → F32) (after : Memory) : Prop :=
  (∀ i < n, readSram after (s.regs.argOut.toNat + i) = out i) ∧
    ∀ a, a < sramAddress s.regs.argOut.toNat ∨ sramAddress (s.regs.argOut.toNat + n) ≤ a →
      readByte after a = readByte s.sram a

/-- What the port answers to an aligned read of a word at this byte offset: `v`, with nothing else changed. -/
abbrev readsAt (s : State) (offset : Nat) (v : Word) : Prop :=
  ∀ rest, step { s with pending := .read (BitVec.ofNat 32 offset) .word :: rest } =
    .next { s with pending := rest, response := .data v }

/-- What an aligned write of `w` at this byte offset leaves: the registers `regs` and the memory `after`, the write
acknowledged, with nothing else changed. -/
abbrev writesAt (s : State) (offset : Nat) (w : Word) (regs : Regs) (after : Memory) : Prop :=
  ∀ rest, step { s with pending := .write (BitVec.ofNat 32 offset) .word w :: rest } =
    .next { s with regs := regs, sram := after, pending := rest, response := .ack }

/-- A block through one section, sample by sample (41 R152). -/
def sectionBlock (c : Coefficients) : DelayLine → List F32 → List F32 × DelayLine
  | d, [] => ([], d)
  | d, x :: rest =>
    let r := sectionStep c d x
    let t := sectionBlock c r.2 rest
    (r.1 :: t.1, t.2)

/-- A block through the cascade section by section: section b runs over the whole block before section b + 1 (41 R153). -/
def sectionBySection (coef : Vector Coefficients 10) (delay : Vector DelayLine 10) (inbuf : List F32) :
    List F32 × Vector DelayLine 10 :=
  (List.finRange 10).foldl
    (fun (v : List F32 × Vector DelayLine 10) (b : Fin 10) =>
      let r := sectionBlock coef[b] v.2[b] v.1
      (r.1, v.2.set b r.2))
    (inbuf, delay)

/-- Commands one after another, as long as each answers a next state. -/
def runCommands : List Instr → State → Option State
  | [], s => some s
  | i :: rest, s =>
    match exec i s with
    | .next t => runCommands rest t
    | .fault _ => none
    | .refused _ => none

/-- The oscillator's next value, y = tg_coeff * tg_y1 - tg_y2 (42 R192). -/
abbrev oscillatorNext (t : Tone) : F32 := fSub (fMul t.coeff t.y1) t.y2

/-- The speaker sample of the tone unit, (0.5 * Env(tg_n)) * y (42 R192). -/
abbrev speakerSample (t : Tone) : F32 := fMul (fMul 0x3F000000#32 (envelope t.n)) (oscillatorNext t)

/-- The tone unit after k samples: each moves tg_y1 to tg_y2, y to tg_y1, and counts (42 R192). -/
def toneAfter (t : Tone) : Nat → Tone
  | 0 => t
  | k + 1 =>
    let u := toneAfter t k
    { coeff := u.coeff, y1 := oscillatorNext u, y2 := u.y1, n := u.n + 1 }

/-- The detector after these samples: for each, s0 = ((dt_coeff * dt_s1) - dt_s2) + x goes to dt_s1 and dt_s1 to dt_s2
(43 R213). -/
def detectorAfter : Detector → List F32 → Detector
  | d, [] => d
  | d, x :: rest => detectorAfter { d with s1 := fAdd (fSub (fMul d.coeff d.s1) d.s2) x, s2 := d.s1 } rest

/-- The level the detector reads, from its power and magnitude (43 R214). -/
abbrev detectorLevel (d : Detector) : F32 :=
  let power := fSub (fAdd (fMul d.s1 d.s1) (fMul d.s2 d.s2)) (fMul (fMul d.coeff d.s1) d.s2)
  let mag := fDiv (fSqrt (fMul 0x40000000#32 power)) (fOfNat d.len)
  if fGt mag 0x3089705F#32 then fMul 0x41A00000#32 (Config.primitives.log10 mag) else 0xC2F00000#32

/-- The tone and the detector as StartBand sets them up for a band frequency (42 R191, 43 R211). -/
abbrev bandStarted (freq : F32) (c : Calibration) : Prop :=
  let p := Config.primitives
  let w0 := fDiv (fMul 0x40C90FDB#32 freq) 0x473B8000#32
  let k := (roundHalfAway (fDiv (fMul (fOfNat 4800) freq) 0x473B8000#32)).toNat
  let w := fDiv (fMul 0x40C90FDB#32 (fOfNat k)) (fOfNat 4800)
  c.cnt = 0 ∧
    c.tone = { coeff := fMul 0x40000000#32 (p.cos w0), y1 := fNeg (p.sin w0),
               y2 := fNeg (p.sin (fMul 0x40000000#32 w0)), n := 0 } ∧
    c.det = { k := k, len := 4800, coeff := fMul 0x40000000#32 (p.cos w), s1 := 0, s2 := 0 }

end Sys2Proof.Claims

open Sys2Proof Sys2Proof.Machine Sys2Proof.Claims

/-! ## Encoding -/

/-- 30_encoding R100, R102 to R106: the word of every well-formed command decodes to that command, whatever its operand. -/
def Obligations.DecodeOfEncodeIsTheCommand : Prop :=
  ∀ i : Instr, i.wellFormed = true → decode (encode i) = .ok i

/-- 30_encoding R100, R101: a word that decodes to a command is that command's one word, and the command is well-formed. -/
def Obligations.EncodeOfDecodeIsTheWord : Prop :=
  ∀ (w : Word) (i : Instr), decode w = .ok i → i.wellFormed = true ∧ encode i = w

/-- 30_encoding R109: the reserved opcodes, whatever the other bits, and the assigned opcodes with a nonzero must-be-0 bit. -/
def Obligations.ReservedEncodingsAreRejected : Prop :=
  ∀ w : Word,
    ((w.toNat % 256 = 0x00 ∨ (0x02 ≤ w.toNat % 256 ∧ w.toNat % 256 ≤ 0x0F) ∨
        (0x18 ≤ w.toNat % 256 ∧ w.toNat % 256 ≤ 0x1F) ∨ 0x2C ≤ w.toNat % 256) →
      decode w = .error .unassignedOpcode) ∧
    ((w.toNat % 256 = 0x11 ∨ w.toNat % 256 = 0x17) ∧ w.toNat / 2 ^ 12 ≠ 0 → decode w = .error .nonzeroAboveBand) ∧
    ((w.toNat % 256 = 0x13 ∨ w.toNat % 256 = 0x22) ∧ w.toNat / 2 ^ 24 ≠ 0 → decode w = .error .nonzeroAboveLength) ∧
    ((w.toNat % 256 = 0x01 ∨ w.toNat % 256 = 0x10 ∨ w.toNat % 256 = 0x12 ∨
        (0x14 ≤ w.toNat % 256 ∧ w.toNat % 256 ≤ 0x16) ∨ w.toNat % 256 = 0x20 ∨ w.toNat % 256 = 0x21 ∨
        (0x23 ≤ w.toNat % 256 ∧ w.toNat % 256 ≤ 0x2B)) ∧ w.toNat / 2 ^ 8 ≠ 0 →
      decode w = .error .nonzeroAboveOpcode)

/-- 30_encoding R113: words written out by the spec and what they decode to. -/
def Obligations.WordsOfTheSpecDecode : Prop :=
  decode 0x00000001#32 = .ok .fdDesign ∧ decode 0x00000010#32 = .ok .eqInit ∧
    decode 0x00000811#32 = .ok (.eqSetBandGain 8) ∧ decode 0x00000A17#32 = .ok (.eqGetBandFrequency 10) ∧
    decode 0x0001E013#32 = .ok (.eqProcessBlock 480) ∧ decode 0x0001E022#32 = .ok (.ctrlProcessBlock 480) ∧
    decode 0x00FFFF22#32 = .ok (.ctrlProcessBlock 65535) ∧ decode 0x00000021#32 = .ok .ctrlStart ∧
    decode 0x00000121#32 = .error .nonzeroAboveOpcode ∧ decode 0x01000013#32 = .error .nonzeroAboveLength ∧
    decode 0x0000002C#32 = .error .unassignedOpcode

/-! ## The step and the host port -/

/-- 10_state R33, 20_memory R80: the step that takes the write of a command word from the port runs the command it decodes to,
on the state with that access taken and acknowledged (log 1). With no access held the core does nothing (60_exceptions R320). -/
def Obligations.StepRunsTheDecodedCommand : Prop :=
  (∀ (s : State) (w : Word) (rest : List HostAccess) (i : Instr),
    s.pending = .write 0 .word w :: rest → decode w = .ok i →
      step s = exec i { s with pending := rest, response := .ack }) ∧
  ∀ s : State, s.pending = [] → step s = .next s

/-- 30_encoding R110: a rejected word writes STATUS = 4 and changes nothing else. -/
def Obligations.RejectedWordWritesOnlyStatus : Prop :=
  ∀ (s : State) (w : Word) (rest : List HostAccess) (e : DecodeError),
    s.pending = .write 0 .word w :: rest → decode w = .error e →
      step s = .next { s with pending := rest, response := .ack, regs := { s.regs with status := 0x00000004#32 } }

/-- 20_memory R73: a misaligned or sub-word access gets a bus error and changes no state of the core. That the run goes on
after it is the model's reading (log 2). -/
def Obligations.BusErrorChangesNoState : Prop :=
  ∀ (s : State) (addr data : Word) (size : AccessSize) (rest : List HostAccess),
    ¬ (size = .word ∧ addr.toNat % 4 = 0) →
      step { s with pending := .read addr size :: rest } = .next { s with pending := rest, response := .busError } ∧
      step { s with pending := .write addr size data :: rest } = .next { s with pending := rest, response := .busError }

/-- 10_state R32, 20_memory R71, R74, R79: what every aligned read returns, with no side effect. -/
def Obligations.ReadsReturnTheCurrentValue : Prop :=
  ∀ s : State,
    readsAt s 0x000 0 ∧ readsAt s 0x004 s.regs.status ∧ readsAt s 0x008 s.regs.argGain ∧
    readsAt s 0x00C s.regs.argQ ∧ readsAt s 0x010 s.regs.argFc ∧ readsAt s 0x014 s.regs.argFs ∧
    readsAt s 0x018 s.regs.argIn ∧ readsAt s 0x01C s.regs.argOut ∧ readsAt s 0x020 s.regs.resultF ∧
    readsAt s 0x024 s.regs.resultI ∧
    (∀ i : Fin 10, readsAt s (0x040 + 4 * i.val) s.regs.gainArr[i]) ∧
    (∀ i : Fin 10, readsAt s (0x080 + 4 * i.val) s.regs.resultArr[i]) ∧
    (∀ j : Fin 5, readsAt s (0x0C0 + 4 * j.val) s.regs.designOut[j]) ∧
    (∀ m : Fin 50, readsAt s (0x100 + 4 * m.val) s.regs.coefArr[m]) ∧
    (∀ i, i < sampleRamWords → readsAt s (0x1000 + 4 * i) (readSram s.sram i)) ∧
    (∀ o, o % 4 = 0 → o < 2 ^ 32 →
      (0x028 ≤ o ∧ o < 0x040) ∨ (0x068 ≤ o ∧ o < 0x080) ∨ (0x0A8 ≤ o ∧ o < 0x0C0) ∨ (0x0D4 ≤ o ∧ o < 0x100) ∨
        (0x1C8 ≤ o ∧ o < 0x1000) ∨ 0x1000 + 4 * sampleRamWords ≤ o →
      readsAt s o 0)

/-- 10_state R32, R36, 20_memory R74, R79: an aligned write of a register other than CMD stores the exact word in an RW
register, and is ignored by an RO register and at a reserved offset. -/
def Obligations.WritesStoreOrAreIgnored : Prop :=
  ∀ (s : State) (w : Word),
    writesAt s 0x008 w { s.regs with argGain := w } s.sram ∧ writesAt s 0x00C w { s.regs with argQ := w } s.sram ∧
    writesAt s 0x010 w { s.regs with argFc := w } s.sram ∧ writesAt s 0x014 w { s.regs with argFs := w } s.sram ∧
    writesAt s 0x018 w { s.regs with argIn := w } s.sram ∧ writesAt s 0x01C w { s.regs with argOut := w } s.sram ∧
    (∀ i : Fin 10, writesAt s (0x040 + 4 * i.val) w { s.regs with gainArr := s.regs.gainArr.set i w } s.sram) ∧
    (∀ m : Fin 50, writesAt s (0x100 + 4 * m.val) w { s.regs with coefArr := s.regs.coefArr.set m w } s.sram) ∧
    writesAt s 0x004 w s.regs s.sram ∧ writesAt s 0x020 w s.regs s.sram ∧ writesAt s 0x024 w s.regs s.sram ∧
    (∀ i : Fin 10, writesAt s (0x080 + 4 * i.val) w s.regs s.sram) ∧
    (∀ j : Fin 5, writesAt s (0x0C0 + 4 * j.val) w s.regs s.sram) ∧
    (∀ o, o % 4 = 0 → o < 2 ^ 32 →
      (0x028 ≤ o ∧ o < 0x040) ∨ (0x068 ≤ o ∧ o < 0x080) ∨ (0x0A8 ≤ o ∧ o < 0x0C0) ∨ (0x0D4 ≤ o ∧ o < 0x100) ∨
        (0x1C8 ≤ o ∧ o < 0x1000) ∨ 0x1000 + 4 * sampleRamWords ≤ o →
      writesAt s o w s.regs s.sram)

/-- 20_memory R71, R75: a word written to SRAM[i] is what SRAM[i] reads afterwards, its lowest byte at offset 0x1000 + 4i, and
every other sample keeps its value. -/
def Obligations.SampleRamKeepsTheWordWritten : Prop :=
  ∀ (s : State) (w : Word) (i : Nat), i < sampleRamWords → memoryWf s.sram = true →
    ∃ after, writesAt s (0x1000 + 4 * i) w s.regs after ∧ readSram after i = w ∧
      readByte after (0x1000 + 4 * i) = w.extractLsb' 0 8 ∧ readByte after (0x1000 + 4 * i + 1) = w.extractLsb' 8 8 ∧
      readByte after (0x1000 + 4 * i + 2) = w.extractLsb' 16 8 ∧
      readByte after (0x1000 + 4 * i + 3) = w.extractLsb' 24 8 ∧
      (∀ j, j ≠ i → readSram after j = readSram s.sram j) ∧
      ∀ a, a < 0x1000 + 4 * i ∨ 0x1000 + 4 * i + 4 ≤ a → readByte after a = readByte s.sram a

/-- 70_reset R330, R331: the reset event puts every piece of state at its reset value; the accesses behind it stay held
(log 3). -/
def Obligations.ResetEventRestoresTheResetState : Prop :=
  ∀ (s : State) (rest : List HostAccess),
    step { s with pending := .reset :: rest } = .next { State.reset with pending := rest }

/-- 10_state R59: the value each piece of the core's state takes when the core resets. -/
def Obligations.ResetValuesOfTheTable : Prop :=
  let r := State.reset.regs
  let e := State.reset.eq
  let c := State.reset.cal
  readRegister .cmd State.reset = 0 ∧
  (r.status = 0 ∧ r.argGain = 0 ∧ r.argQ = 0 ∧ r.argFc = 0 ∧ r.argFs = 0 ∧ r.argIn = 0 ∧ r.argOut = 0 ∧
    r.resultF = 0 ∧ r.resultI = 0) ∧
  (∀ i : Fin 10, r.gainArr[i] = 0 ∧ r.resultArr[i] = 0) ∧ (∀ j : Fin 5, r.designOut[j] = 0) ∧
  (∀ m : Fin 50, r.coefArr[m] = 0) ∧
  e.initialized = false ∧
  (∀ b : Fin 10, e.coef[b] = ⟨0, 0, 0, 0, 0⟩ ∧ e.delay[b] = ⟨0, 0, 0, 0⟩ ∧ e.bands[b] = ⟨0, 0, false⟩) ∧
  c.state = .idle ∧ c.band = 0 ∧ c.cnt = 0 ∧ c.iteration = 0 ∧
  (∀ b : Fin 10, c.measured[b] = 0 ∧ c.correction[b] = 0 ∧ c.cumulative[b] = 0) ∧ c.lastError = .none ∧
  c.tone = ⟨0, 0, 0, 0⟩ ∧ c.det = ⟨0, 4800, 0, 0, 0⟩ ∧ ∀ a, readByte State.reset.sram a = 0

/-! ## Rules about every command -/

/-- 10_state R35, 60_exceptions R300, R321: every command, in every state, completes, and leaves STATUS 0, 1 or 2. -/
def Obligations.EveryCommandCompletes : Prop :=
  ∀ (i : Instr) (s : State), ∃ t, exec i s = .next t ∧
    (t.regs.status = 0 ∨ t.regs.status = 1 ∨ t.regs.status = 2) ∧ t.pending = s.pending ∧ t.response = s.response

/-- 10_state R34: every step keeps STATUS one of the legal words: at most one of OK, NULL and ILLEGAL, and zeros above. -/
def Obligations.StepKeepsStatusLegal : Prop :=
  ∀ s t : State, statusLegal s → step s = .next t → statusLegal t

/-- 44 R230: the complete transition table of the controller. A tick is a CTRL_PROCESS_BLOCK that passes the range check; the
tone of band 9 completes in a block when the sweep position 14400·band + cnt reaches 144000 in it (44 R240). -/
def Obligations.ControllerTransitions : Prop :=
  ∀ (i : Instr) (s t : State), exec i s = .next t →
    (i = .ctrlStart → s.cal.state = .idle →
      t.cal.state = .measuring ∧ t.cal.iteration = 0 ∧ t.cal.band = 0) ∧
    (i = .ctrlStart → s.cal.state ≠ .idle →
      t.cal.state = s.cal.state ∧ t.regs.status = 0 ∧ t.cal.lastError = .invalidState) ∧
    (∀ n, i = .ctrlProcessBlock n → inRange s n →
      (s.cal.state = .measuring → controllerSafe s.cal →
        t.cal.state = if 144000 ≤ 14400 * s.cal.band + s.cal.cnt + n then .computing else .measuring) ∧
      (s.cal.state = .computing → t.cal.state = .applying) ∧
      (s.cal.state = .applying → s.cal.iteration + 1 < 3 →
        t.cal.state = .measuring ∧ t.cal.iteration = s.cal.iteration + 1 ∧ t.cal.band = 0) ∧
      (s.cal.state = .applying → ¬ s.cal.iteration + 1 < 3 → t.cal.state = .done) ∧
      (s.cal.state = .idle ∨ s.cal.state = .done ∨ s.cal.state = .error → t.cal.state = s.cal.state)) ∧
    (i = .ctrlStop ∨ i = .ctrlInit → t.cal.state = .idle) ∧
    ((∀ n, i = .ctrlProcessBlock n → ¬ inRange s n) → i ≠ .ctrlStart → i ≠ .ctrlStop → i ≠ .ctrlInit →
      t.cal.state = s.cal.state)

/-- 44 R261: CTRL_START outside Idle writes InvalidState, the range failure of CTRL_PROCESS_BLOCK writes InvalidParameters,
CTRL_INIT clears the code, and no other command changes it; a step that serves a reset clears it, and no step but that one and
one of these commands changes it. -/
def Obligations.LastErrorPolicy : Prop :=
  (∀ (i : Instr) (s t : State), exec i s = .next t →
    (i = .ctrlStart → s.cal.state ≠ .idle → t.cal.lastError = .invalidState) ∧
    (∀ n, i = .ctrlProcessBlock n → ¬ inRange s n → t.cal.lastError = .invalidParameters) ∧
    (i = .ctrlInit → t.cal.lastError = .none) ∧
    ((i = .ctrlStart → s.cal.state = .idle) → (∀ n, i = .ctrlProcessBlock n → inRange s n) → i ≠ .ctrlInit →
      t.cal.lastError = s.cal.lastError)) ∧
  (∀ s t : State, step s = .next t → t.cal.lastError ≠ s.cal.lastError →
    (∃ rest, s.pending = .reset :: rest ∧ t.cal.lastError = .none) ∨
      ∃ w rest i, s.pending = .write 0 .word w :: rest ∧ decode w = .ok i ∧
        (i = .ctrlStart ∨ i = .ctrlInit ∨ ∃ n, i = .ctrlProcessBlock n)) ∧
  (∀ (s t : State) (rest : List HostAccess), s.pending = .reset :: rest → step s = .next t → t.cal.lastError = .none) ∧
  ∀ s t : State, s.cal.lastError ≠ .bufferOverflow → step s = .next t → t.cal.lastError ≠ .bufferOverflow

/-- 10_state R44: EQ_INIT sets eq_init, no command clears it, and only a reset makes it false. -/
def Obligations.OnlyResetClearsEqInit : Prop :=
  (∀ (i : Instr) (s t : State), exec i s = .next t →
    (i = .eqInit → t.eq.initialized = true) ∧ (i ≠ .eqInit → t.eq.initialized = s.eq.initialized)) ∧
  State.reset.eq.initialized = false ∧
  ∀ s t : State, s.eq.initialized = true → step s = .next t →
    (t.eq.initialized = false ↔ ∃ rest, s.pending = .reset :: rest)

/-- 20_memory R78: a command other than the two process commands neither reads nor writes the sample RAM, and a process command
that fails touches none of it. -/
def Obligations.OnlyProcessCommandsAccessTheRam : Prop :=
  (∀ (i : Instr) (s t : State), (∀ n, i ≠ .eqProcessBlock n ∧ i ≠ .ctrlProcessBlock n) → exec i s = .next t →
    (∀ a, readByte t.sram a = readByte s.sram a) ∧
      ∀ m : Memory, exec i { s with sram := m } = .next { t with sram := m }) ∧
  ∀ (n : Nat) (s t : State), ¬ inRange s n →
    (exec (.eqProcessBlock n) s = .next t ∨ exec (.ctrlProcessBlock n) s = .next t) →
      ∀ a, readByte t.sram a = readByte s.sram a

/-- 10_state R37: a result register changes only by the commands the register map names for it, and only with OK = 1; a
rejected word changes none. -/
def Obligations.ResultRegistersChangeOnlyByTheirCommands : Prop :=
  (∀ (i : Instr) (s t : State), exec i s = .next t →
    (t.regs.resultF ≠ s.regs.resultF →
      ((∃ b, i = .eqGetBandFrequency b) ∨ i = .ctrlGetProgress ∨ i = .ctrlGetCpuUsage) ∧ t.regs.status = 1) ∧
    (t.regs.resultI ≠ s.regs.resultI →
      (i = .ctrlGetState ∨ i = .ctrlGetCurrentBand ∨ i = .ctrlGetLastError) ∧ t.regs.status = 1) ∧
    (t.regs.resultArr ≠ s.regs.resultArr →
      (i = .ctrlGetCorrectionGains ∨ i = .ctrlGetMeasuredLevels) ∧ t.regs.status = 1) ∧
    (t.regs.designOut ≠ s.regs.designOut → i = .fdDesign ∧ t.regs.status = 1)) ∧
  ∀ (w : Word) (e : DecodeError) (s t : State), decode w = .error e → runCommandWord w s = .next t →
    t.regs.resultF = s.regs.resultF ∧ t.regs.resultI = s.regs.resultI ∧ t.regs.resultArr = s.regs.resultArr ∧
      t.regs.designOut = s.regs.designOut

/-- 10_state R32, R36: no command writes an ARG register or GAIN_ARR, and only EQ_GET_COEFFICIENTS writes COEF_ARR. -/
def Obligations.CommandsLeaveOperandRegistersAlone : Prop :=
  ∀ (i : Instr) (s t : State), exec i s = .next t →
    t.regs.argGain = s.regs.argGain ∧ t.regs.argQ = s.regs.argQ ∧ t.regs.argFc = s.regs.argFc ∧
    t.regs.argFs = s.regs.argFs ∧ t.regs.argIn = s.regs.argIn ∧ t.regs.argOut = s.regs.argOut ∧
    t.regs.gainArr = s.regs.gainArr ∧ (i ≠ .eqGetCoefficients → t.regs.coefArr = s.regs.coefArr)

/-- 60_exceptions R306: a command that fails changes only STATUS and, for CTRL_START and CTRL_PROCESS_BLOCK, last_error; the one
exception is CTRL_APPLY_GAINS, which has written cumulative. A rejected word changes only STATUS. -/
def Obligations.FailedCommandHasNoOtherEffect : Prop :=
  (∀ (i : Instr) (s t : State), exec i s = .next t → t.regs.status = 0 → i ≠ .ctrlApplyGains →
    t = { s with regs := { s.regs with status := 0 }, cal := { s.cal with lastError := t.cal.lastError } } ∧
      (t.cal.lastError ≠ s.cal.lastError → i = .ctrlStart ∨ ∃ n, i = .ctrlProcessBlock n)) ∧
  (∀ s t : State, exec .ctrlApplyGains s = .next t → t.regs.status = 0 →
    t = { s with regs := { s.regs with status := 0 }, cal := { s.cal with cumulative := s.regs.gainArr } }) ∧
  ∀ (s : State) (w : Word) (e : DecodeError), decode w = .error e →
    runCommandWord w s = .next { s with regs := { s.regs with status := 4 } }

/-! ## Invariants -/

/-- Every invariant of Safety.lean holds after reset (10_state R59, R61; 41 R154; 44 R263). -/
def Obligations.InvariantsHoldAtReset : Prop :=
  statusLegal State.reset ∧ ramSafe State.reset ∧ controllerSafe State.reset.cal ∧ unitsSafe State.reset.cal ∧
    delaysLinked State.reset.eq ∧ designsKept State.reset.eq

/-- 44 R239, R263, 10_state R50 to R56: every step keeps the controller's invariants and the ranges of the units' integers. -/
def Obligations.StepKeepsTheControllerInvariants : Prop :=
  ∀ s t : State, controllerSafe s.cal → unitsSafe s.cal → step s = .next t →
    controllerSafe t.cal ∧ unitsSafe t.cal

/-- 41 R154: from reset on, every step keeps the outputs a section remembers equal to the inputs the next one remembers. -/
def Obligations.StepKeepsTheDelayLinesLinked : Prop :=
  delaysLinked State.reset.eq ∧ ∀ s t : State, delaysLinked s.eq → step s = .next t → delaysLinked t.eq

/-- 10_state R61: from reset on, every step keeps the coefficients of every band that is not opaque the designer's output for
its record. -/
def Obligations.StepKeepsTheDesignInvariant : Prop :=
  designsKept State.reset.eq ∧ ∀ s t : State, designsKept s.eq → step s = .next t → designsKept t.eq

/-- 20_memory R71: every step keeps the sample RAM in canonical form with its cells inside the window. -/
def Obligations.StepKeepsTheSampleRamCanonical : Prop :=
  ∀ s t : State, ramSafe s → step s = .next t → ramSafe t

/-! ## FilterDesigner -/

/-- 40 R131, R135: FD_DESIGN writes the five outputs of the design formula, computed in binary32 in the order written, and OK.
`design`, which the statements about the equalizer name, is that formula. -/
def Obligations.FdDesignResult : Prop :=
  ∀ s : State,
    let p := Config.primitives
    let r := s.regs
    let a := p.pow10 (fDiv r.argGain 0x42200000#32)
    let w0 := fDiv (fMul 0x40C90FDB#32 r.argFc) r.argFs
    let alpha := fDiv (p.sin w0) (fMul 0x40000000#32 r.argQ)
    let a0 := fAdd 0x3F800000#32 (fDiv alpha a)
    let c0 := fDiv (fAdd 0x3F800000#32 (fMul alpha a)) a0
    let c1 := fDiv (fMul 0xC0000000#32 (p.cos w0)) a0
    let c2 := fDiv (fSub 0x3F800000#32 (fMul alpha a)) a0
    let c4 := fDiv (fSub 0x3F800000#32 (fDiv alpha a)) a0
    design r.argFc r.argGain r.argQ r.argFs = ⟨c0, c1, c2, c1, c4⟩ ∧
    exec .fdDesign s = .next { s with regs := { s.regs with
      status := 1
      designOut := #v[c0, c1, c2, c1, c4] } }

/-- 40 R133, R134, 00_scope R20: at g = +0.0 or -0.0, with primitives accurate to less than one unit, A is 1.0; and whenever A is
1.0 and alpha is no NaN, the numerator equals the denominator bit for bit, with 1.0 first when a0 is finite and not zero. At
fc = 0, at every tolerance, the output is [1, -2, 1, -2, 1] for finite nonzero Q, fs and A: the contract gives SIN(0) = 0 and
COS(0) = 1 (the sign of SIN(0) is open, log 16). -/
def Obligations.FlatDesignIsTheIdentityFilter : Prop :=
  (∀ (p : Primitives) (tolerance : Rat) (fc g q fs : F32),
    accuratePrimitives tolerance p → tolerance < 1 → g = 0x00000000#32 ∨ g = 0x80000000#32 →
      let alpha := fDiv (p.sin (fDiv (fMul 0x40C90FDB#32 fc) fs)) (fMul 0x40000000#32 q)
      let a0 := fAdd 0x3F800000#32 alpha
      let c := designWith p fc g q fs
      p.pow10 (fDiv g 0x42200000#32) = 0x3F800000#32 ∧ c.b1 = c.a1 ∧
      (isNaN alpha = false → c.b2 = c.a2 ∧ (isFinite a0 = true → ratValue a0 ≠ 0 → c.b0 = 0x3F800000#32))) ∧
  ∀ (p : Primitives) (tolerance : Rat) (fc g q fs : F32),
    accuratePrimitives tolerance p → fc = 0x00000000#32 ∨ fc = 0x80000000#32 →
      isFinite fs = true → ratValue fs ≠ 0 → isFinite q = true → ratValue q ≠ 0 →
      isFinite (p.pow10 (fDiv g 0x42200000#32)) = true → ratValue (p.pow10 (fDiv g 0x42200000#32)) ≠ 0 →
        designWith p fc g q fs = ⟨0x3F800000#32, 0xC0000000#32, 0x3F800000#32, 0xC0000000#32, 0x3F800000#32⟩

/-! ## BandFilterEngine -/

/-- 41 R150, R166: EQ_INIT designs every band at 0 dB with DEFAULT_Q, clears every delay line and sets eq_init; EQ_RESET clears
every delay line, whether or not the equalizer is initialized, and changes nothing else. -/
def Obligations.EqInitAndResetResult : Prop :=
  ∀ s : State,
    (∃ t, exec .eqInit s = .next t ∧ t = { s with regs := { s.regs with status := 1 }, eq := t.eq } ∧
      t.eq.initialized = true ∧
      ∀ b : Fin 10, t.eq.coef[b] = design bandFreq[b] 0 0x40000000#32 0x473B8000#32 ∧
        t.eq.bands[b] = ⟨0, 0x40000000#32, false⟩ ∧ t.eq.delay[b] = ⟨0, 0, 0, 0⟩) ∧
    ∃ t, exec .eqReset s = .next t ∧
      t = { s with regs := { s.regs with status := 1 }, eq := { s.eq with delay := t.eq.delay } } ∧
      ∀ b : Fin 10, t.eq.delay[b] = ⟨0, 0, 0, 0⟩

/-- 41 R155, R156: EQ_SET_BAND_GAIN redesigns one band at the clamped gain and Q and leaves the other bands and every delay line
alone; it fails, with STATUS alone written, when the equalizer is uninitialized or the band is out of range. -/
def Obligations.EqSetBandGainResult : Prop :=
  ∀ (s : State) (band : Nat),
    (∀ b : Fin 10, b.val = band → s.eq.initialized = true →
      let g := fClamp s.regs.argGain 0xC1400000#32 0x41400000#32
      let q := fClamp s.regs.argQ 0x3DCCCCCD#32 0x41A00000#32
      ∃ t, exec (.eqSetBandGain band) s = .next t ∧
        t = { s with regs := { s.regs with status := 1 }, eq := { s.eq with coef := t.eq.coef, bands := t.eq.bands } } ∧
        t.eq.coef[b] = design bandFreq[b] g q 0x473B8000#32 ∧ t.eq.bands[b] = ⟨g, q, false⟩ ∧
        ∀ o : Fin 10, o ≠ b → t.eq.coef[o] = s.eq.coef[o] ∧ t.eq.bands[o] = s.eq.bands[o]) ∧
    (s.eq.initialized = false ∨ 9 < band →
      exec (.eqSetBandGain band) s = .next { s with regs := { s.regs with status := 0 } })

/-- 41 R157: a gain of 50.0 acts as 12.0 and a Q of 50.0 as 20.0, bit for bit. -/
def Obligations.OutOfRangeSettingActsAsTheBound : Prop :=
  ∀ (s : State) (band : Nat) (g q : F32),
    (∀ t t', exec (.eqSetBandGain band) { s with regs := { s.regs with argGain := 0x42480000#32, argQ := q } } = .next t →
      exec (.eqSetBandGain band) { s with regs := { s.regs with argGain := 0x41400000#32, argQ := q } } = .next t' →
        t.eq = t'.eq) ∧
    ∀ t t', exec (.eqSetBandGain band) { s with regs := { s.regs with argGain := g, argQ := 0x42480000#32 } } = .next t →
      exec (.eqSetBandGain band) { s with regs := { s.regs with argGain := g, argQ := 0x41A00000#32 } } = .next t' →
        t.eq = t'.eq

/-- 41 R163: EQ_SET_ALL_GAINS redesigns every band from GAIN_ARR and ARG_Q, clamped, and leaves the delay lines alone; it fails,
with STATUS alone written, when the equalizer is uninitialized. -/
def Obligations.EqSetAllGainsResult : Prop :=
  ∀ s : State,
    (s.eq.initialized = true →
      ∃ t, exec .eqSetAllGains s = .next t ∧
        t = { s with regs := { s.regs with status := 1 }, eq := { s.eq with coef := t.eq.coef, bands := t.eq.bands } } ∧
        ∀ b : Fin 10,
          let g := fClamp s.regs.gainArr[b] 0xC1400000#32 0x41400000#32
          let q := fClamp s.regs.argQ 0x3DCCCCCD#32 0x41A00000#32
          t.eq.coef[b] = design bandFreq[b] g q 0x473B8000#32 ∧ t.eq.bands[b] = ⟨g, q, false⟩) ∧
    (s.eq.initialized = false → exec .eqSetAllGains s = .next { s with regs := { s.regs with status := 0 } })

/-- 41 R163: EQ_SET_ALL_GAINS leaves the equalizer that ten EQ_SET_BAND_GAIN commands with the same operands leave. -/
def Obligations.SetAllGainsIsTenSetBandGains : Prop :=
  ∀ s t : State, s.eq.initialized = true → exec .eqSetAllGains s = .next t →
    t.eq = (List.finRange 10).foldl
      (fun e b =>
        match exec (.eqSetBandGain b.val)
          { s with eq := e, regs := { s.regs with argGain := s.regs.gainArr[b] } } with
        | .next u => u.eq
        | .fault _ => e
        | .refused _ => e)
      s.eq

/-- 41 R152, R153, R158, 20_memory R76, R77: EQ_PROCESS_BLOCK of an initialized equalizer writes the cascade's output for the
samples it read first, moves the delay lines, and leaves every byte outside the output words alone. The cascade takes each sample
in turn through sections 0 to 9, and one section is the difference equation in the order of R152, with its four delay moves. -/
def Obligations.EqProcessBlockFilters : Prop :=
  (∀ (s : State) (n : Nat), inRange s n → s.eq.initialized = true → memoryWf s.sram = true →
    let r := cascadeBlock s.eq.coef s.eq.delay (inputSamples s n)
    ∃ t, exec (.eqProcessBlock n) s = .next t ∧
      t = { s with regs := { s.regs with status := 1 }, eq := { s.eq with delay := r.2 }, sram := t.sram } ∧
      stores s n (fun i => r.1[i]?.getD 0) t.sram) ∧
  (∀ (coef : Vector Coefficients 10) (delay : Vector DelayLine 10) (x : F32) (rest : List F32),
    let r := (List.finRange 10).foldl
      (fun (v : F32 × Vector DelayLine 10) (b : Fin 10) =>
        ((sectionStep coef[b] v.2[b] v.1).1, v.2.set b (sectionStep coef[b] v.2[b] v.1).2))
      (x, delay)
    cascadeBlock coef delay [] = ([], delay) ∧
      cascadeBlock coef delay (x :: rest) = (r.1 :: (cascadeBlock coef r.2 rest).1, (cascadeBlock coef r.2 rest).2)) ∧
  ∀ (c : Coefficients) (d : DelayLine) (x : F32),
    let y := fSub (fSub (fAdd (fAdd (fMul c.b0 x) (fMul c.b1 d.x1)) (fMul c.b2 d.x2)) (fMul c.a1 d.y1)) (fMul c.a2 d.y2)
    sectionStep c d x = (y, { x1 := x, x2 := d.x1, y1 := y, y2 := d.y1 })

/-- 41 R159: with eq_init false, EQ_PROCESS_BLOCK copies each input word to the output word bit for bit and touches no delay
line. -/
def Obligations.EqProcessBlockPassesThrough : Prop :=
  ∀ (s : State) (n : Nat), inRange s n → s.eq.initialized = false → memoryWf s.sram = true →
    ∃ t, exec (.eqProcessBlock n) s = .next t ∧
      t = { s with regs := { s.regs with status := 1 }, sram := t.sram } ∧
      stores s n (fun i => readSram s.sram (s.regs.argIn.toNat + i)) t.sram

/-- 41 R160, 44 R243: a process command with a buffer that leaves the sample RAM fails: EQ_PROCESS_BLOCK writes STATUS = 0 and
nothing else, CTRL_PROCESS_BLOCK also records InvalidParameters. -/
def Obligations.BlockOutsideTheRamFails : Prop :=
  ∀ (s : State) (n : Nat),
    sampleRamWords < s.regs.argIn.toNat + n ∨ sampleRamWords < s.regs.argOut.toNat + n →
      exec (.eqProcessBlock n) s = .next { s with regs := { s.regs with status := 0 } } ∧
      exec (.ctrlProcessBlock n) s = .next { s with
        regs := { s.regs with status := 0 }, cal := { s.cal with lastError := .invalidParameters } }

/-- 41 R162: EQ_PROCESS_BLOCK with n = 0 changes STATUS alone, OK when both bases pass the range check. -/
def Obligations.EqProcessBlockOfNothing : Prop :=
  ∀ s : State,
    (s.regs.argIn.toNat ≤ sampleRamWords ∧ s.regs.argOut.toNat ≤ sampleRamWords →
      exec (.eqProcessBlock 0) s = .next { s with regs := { s.regs with status := 1 } }) ∧
    (¬ (s.regs.argIn.toNat ≤ sampleRamWords ∧ s.regs.argOut.toNat ≤ sampleRamWords) →
      exec (.eqProcessBlock 0) s = .next { s with regs := { s.regs with status := 0 } })

/-- 41 R153: a block gives the same samples and the same delay lines whether it runs sample by sample or section by section. -/
def Obligations.CascadeEqualsSectionBySection : Prop :=
  ∀ (coef : Vector Coefficients 10) (delay : Vector DelayLine 10) (inbuf : List F32),
    cascadeBlock coef delay inbuf = sectionBySection coef delay inbuf

/-- 20_memory R76, 41 R161, 44 R242: the output of a process command depends on the input samples alone, however the two
ranges overlap: two cores whose units agree and whose input words hold the same samples write the same output words. -/
def Obligations.OverlapGivesTheDisjointResult : Prop :=
  ∀ (s s' t t' : State) (n : Nat) (i : Instr), i = .eqProcessBlock n ∨ i = .ctrlProcessBlock n →
    inRange s n → inRange s' n → memoryWf s.sram = true → memoryWf s'.sram = true → s.eq = s'.eq → s.cal = s'.cal →
    (∀ k < n, readSram s.sram (s.regs.argIn.toNat + k) = readSram s'.sram (s'.regs.argIn.toNat + k)) →
    exec i s = .next t → exec i s' = .next t' →
      t.eq = t'.eq ∧ t.cal = t'.cal ∧
        ∀ k < n, readSram t.sram (s.regs.argOut.toNat + k) = readSram t'.sram (s'.regs.argOut.toNat + k)

/-- 41 R164, R165, 10_state R41: EQ_GET_COEFFICIENTS copies coefficient j of band b to COEF_ARR[5b + j], bit for bit;
EQ_SET_COEFFICIENTS loads them back, marks every band opaque and leaves delay lines, gains and Qs alone, and fails, with STATUS
alone written, when the equalizer is uninitialized. An export followed by an import leaves every coefficient as it was. -/
def Obligations.CoefficientExportAndImport : Prop :=
  (∀ s : State, ∃ t, exec .eqGetCoefficients s = .next t ∧
    t = { s with regs := { s.regs with status := 1, coefArr := t.regs.coefArr } } ∧
    ∀ b : Fin 10, t.regs.coefArr[5 * b.val] = s.eq.coef[b].b0 ∧ t.regs.coefArr[5 * b.val + 1] = s.eq.coef[b].b1 ∧
      t.regs.coefArr[5 * b.val + 2] = s.eq.coef[b].b2 ∧ t.regs.coefArr[5 * b.val + 3] = s.eq.coef[b].a1 ∧
      t.regs.coefArr[5 * b.val + 4] = s.eq.coef[b].a2) ∧
  (∀ s : State, s.eq.initialized = true → ∃ t, exec .eqSetCoefficients s = .next t ∧
    t = { s with regs := { s.regs with status := 1 }, eq := { s.eq with coef := t.eq.coef, bands := t.eq.bands } } ∧
    ∀ b : Fin 10, t.eq.coef[b] = ⟨s.regs.coefArr[5 * b.val], s.regs.coefArr[5 * b.val + 1],
        s.regs.coefArr[5 * b.val + 2], s.regs.coefArr[5 * b.val + 3], s.regs.coefArr[5 * b.val + 4]⟩ ∧
      t.eq.bands[b] = { s.eq.bands[b] with isOpaque := true }) ∧
  (∀ s : State, s.eq.initialized = false →
    exec .eqSetCoefficients s = .next { s with regs := { s.regs with status := 0 } }) ∧
  ∀ s : State, s.eq.initialized = true →
    ∃ t u, exec .eqGetCoefficients s = .next t ∧ exec .eqSetCoefficients t = .next u ∧ u.eq.coef = s.eq.coef ∧
      u.eq.delay = s.eq.delay

/-- 41 R167, 00_scope R10, R13: EQ_GET_BAND_FREQUENCY returns the center frequency of bands 0 to 9 and the sentinel +0.0 for
any other band, with OK = 1. -/
def Obligations.EqGetBandFrequencyResult : Prop :=
  (∀ (s : State) (band : Nat), ∃ t, exec (.eqGetBandFrequency band) s = .next t ∧
    t = { s with regs := { s.regs with status := 1, resultF := t.regs.resultF } } ∧
    (band = 0 → t.regs.resultF = 0x41C80000#32) ∧ (band = 1 → t.regs.resultF = 0x42200000#32) ∧
    (band = 2 → t.regs.resultF = 0x427C0000#32) ∧ (band = 3 → t.regs.resultF = 0x42C80000#32) ∧
    (band = 4 → t.regs.resultF = 0x43200000#32) ∧ (band = 5 → t.regs.resultF = 0x437A0000#32) ∧
    (band = 6 → t.regs.resultF = 0x43C80000#32) ∧ (band = 7 → t.regs.resultF = 0x441D8000#32) ∧
    (band = 8 → t.regs.resultF = 0x447A0000#32) ∧ (band = 9 → t.regs.resultF = 0x44C80000#32) ∧
    (9 < band → t.regs.resultF = 0x00000000#32))

/-! ## CalibrationController -/

/-- 44 R232, R275: CTRL_INIT puts the controller and its units at their reset values in every state; CTRL_STOP makes it Idle with
its counters 0 and keeps the arrays, last_error and the units. Neither touches the equalizer. -/
def Obligations.InitAndStopResult : Prop :=
  ∀ s : State,
    (∃ t, exec .ctrlInit s = .next t ∧ t = { s with regs := { s.regs with status := 1 }, cal := t.cal } ∧
      t.cal.state = .idle ∧ t.cal.band = 0 ∧ t.cal.cnt = 0 ∧ t.cal.iteration = 0 ∧ t.cal.lastError = .none ∧
      (∀ b : Fin 10, t.cal.measured[b] = 0 ∧ t.cal.correction[b] = 0 ∧ t.cal.cumulative[b] = 0) ∧
      t.cal.tone = ⟨0, 0, 0, 0⟩ ∧ t.cal.det = ⟨0, 4800, 0, 0, 0⟩) ∧
    exec .ctrlStop s = .next { s with
      regs := { s.regs with status := 1 }
      cal := { s.cal with state := .idle, band := 0, cnt := 0, iteration := 0 } }

/-- 44 R231, R233: CTRL_START from Idle begins the tone of band 0 in iteration 0; in any other state it fails with InvalidState
and changes nothing else. The operations that set up a band are the ones of 00_scope: f32(i) of an integer below 2^24 is exact
(R19), the unary minus flips the sign bit alone (R18), and round_half_away is a nearest integer, of two the one farther from
zero (R23), so that the bins of the ten bands are those of 43 R212. -/
def Obligations.CtrlStartResult : Prop :=
  (∀ s : State,
    (s.cal.state = .idle → ∃ t, exec .ctrlStart s = .next t ∧
      t = { s with
        regs := { s.regs with status := 1 }
        cal := { s.cal with
          state := .measuring, band := 0, cnt := 0, iteration := 0, tone := t.cal.tone, det := t.cal.det } } ∧
      bandStarted 0x41C80000#32 t.cal) ∧
    (s.cal.state ≠ .idle → exec .ctrlStart s = .next { s with
      regs := { s.regs with status := 0 }, cal := { s.cal with lastError := .invalidState } })) ∧
  (∀ i : Nat, i < 2 ^ 24 → isFinite (fOfNat i) = true ∧ ratValue (fOfNat i) = i) ∧
  (∀ a : F32, signBit (fNeg a) = !signBit a ∧ (fNeg a).toNat % 2 ^ 31 = a.toNat % 2 ^ 31) ∧
  (∀ x : F32, isFinite x = true →
    |(roundHalfAway x : Rat) - ratValue x| ≤ 1 / 2 ∧
      (|(roundHalfAway x : Rat) - ratValue x| = 1 / 2 → |ratValue x| < |(roundHalfAway x : Rat)|)) ∧
  (List.finRange 10).map (fun b => roundHalfAway (fDiv (fMul (fOfNat 4800) bandFreq[b]) 0x473B8000#32)) =
    [3, 4, 6, 10, 16, 25, 40, 63, 100, 160]

/-- 44 R237: in Idle, Done and Error a tick writes n words of +0.0 and changes no state besides them and STATUS. -/
def Obligations.TickOutsideARunIsSilent : Prop :=
  ∀ (s : State) (n : Nat), inRange s n → memoryWf s.sram = true →
    s.cal.state = .idle ∨ s.cal.state = .done ∨ s.cal.state = .error →
      ∃ t, exec (.ctrlProcessBlock n) s = .next t ∧
        t = { s with regs := { s.regs with status := 1 }, sram := t.sram } ∧ stores s n (fun _ => 0x00000000#32) t.sram

/-- 44 R244, R236, R238, 42 R192, 43 R213: a Measuring tick that ends before its tone does writes the tone's next n samples, feeds
the microphone samples of tone indices 9600 on to the detector in order, counts n samples, and changes nothing else. The
recursions of the two units stand written out in speakerSample, toneAfter and detectorAfter. -/
def Obligations.MeasuringTickInsideATone : Prop :=
  ∀ (s : State) (n : Nat), inRange s n → memoryWf s.sram = true → s.cal.state = .measuring → s.cal.cnt + n < 14400 →
    ∃ t, exec (.ctrlProcessBlock n) s = .next t ∧
      t = { s with
        regs := { s.regs with status := 1 }
        sram := t.sram
        cal := { s.cal with
          cnt := s.cal.cnt + n
          tone := toneAfter s.cal.tone n
          det := detectorAfter s.cal.det ((inputSamples s n).drop (9600 - s.cal.cnt)) } } ∧
      stores s n (fun i => speakerSample (toneAfter s.cal.tone i)) t.sram

/-- 44 R244 to R247, 43 R214: a Measuring tick of j + 1 + k samples whose sample j is the last of the tone of band b writes that
tone's last j + 1 samples and stores the level of its window, written out in detectorLevel, with the microphone offset. Below
band 9 the next k samples of the block are the first of the tone of band b + 1, and its detector hears their window; after band 9
they are +0.0, their microphone words are ignored, and the state is Computing with band 10 and cnt 14400. A tick that holds any
number of tone ends is a tick of its first j samples and then one of the rest, on the samples that were in the RAM at first; once
the sweep has ended, the rest is +0.0 and changes nothing. -/
def Obligations.LastSampleOfATone : Prop :=
  (∀ (s : State) (b : Fin 10) (j k : Nat), inRange s (j + 1 + k) → memoryWf s.sram = true → s.cal.state = .measuring →
    s.cal.cnt + j + 1 = 14400 → s.cal.band = b.val →
      let d := detectorAfter s.cal.det ((inputSamples s (j + 1)).drop (9600 - s.cal.cnt))
      let levels := s.cal.measured.set b (fAdd (detectorLevel d) (Config.micCal b))
      (∀ h : b.val + 1 < 10, k < 14400 → ∃ t c, exec (.ctrlProcessBlock (j + 1 + k)) s = .next t ∧
        bandStarted (bandFreq[b.val + 1]) c ∧
        t = { s with
          regs := { s.regs with status := 1 }
          sram := t.sram
          cal := { s.cal with
            band := b.val + 1, cnt := k, measured := levels, tone := toneAfter c.tone k
            det := detectorAfter c.det ((inputSamples s (j + 1 + k)).drop (j + 1 + 9600)) } } ∧
        stores s (j + 1 + k)
          (fun i => if i ≤ j then speakerSample (toneAfter s.cal.tone i) else speakerSample (toneAfter c.tone (i - (j + 1))))
          t.sram) ∧
      (b.val = 9 → ∃ t, exec (.ctrlProcessBlock (j + 1 + k)) s = .next t ∧
        t = { s with
          regs := { s.regs with status := 1 }
          sram := t.sram
          cal := { s.cal with
            state := .computing, band := 10, cnt := 14400, measured := levels
            tone := toneAfter s.cal.tone (j + 1), det := d } } ∧
        stores s (j + 1 + k)
          (fun i => if i ≤ j then speakerSample (toneAfter s.cal.tone i) else 0x00000000#32) t.sram)) ∧
  ∀ (s : State) (j k : Nat), inRange s (j + k) → memoryWf s.sram = true → s.cal.state = .measuring →
    ∃ t u, exec (.ctrlProcessBlock (j + k)) s = .next t ∧ exec (.ctrlProcessBlock j) s = .next u ∧
      t = { s with regs := { s.regs with status := 1 }, sram := t.sram, cal := t.cal } ∧
      (u.cal.state = .measuring →
        ∃ v, exec (.ctrlProcessBlock k) { s with
            regs := { s.regs with
              argIn := s.regs.argIn + BitVec.ofNat 32 j, argOut := s.regs.argOut + BitVec.ofNat 32 j }
            cal := u.cal } = .next v ∧
          t.cal = v.cal ∧
          stores s (j + k) (fun i =>
            if i < j then readSram u.sram (s.regs.argOut.toNat + i) else readSram v.sram (s.regs.argOut.toNat + i)) t.sram) ∧
      (u.cal.state ≠ .measuring →
        t.cal = u.cal ∧
          stores s (j + k) (fun i => if i < j then readSram u.sram (s.regs.argOut.toNat + i) else 0x00000000#32) t.sram)

/-- 44 R240, R244, R246: an accepted Measuring tick of n samples advances the position 14400·band + cnt in the sweep by n; the tick
that holds sweep sample 143999 ends in Computing with band 10 and cnt 14400. -/
def Obligations.TickAdvancesTheSweep : Prop :=
  ∀ (s t : State) (n : Nat), inRange s n → controllerSafe s.cal → s.cal.state = .measuring →
    exec (.ctrlProcessBlock n) s = .next t →
      (14400 * s.cal.band + s.cal.cnt + n < 144000 →
        t.cal.state = .measuring ∧ t.cal.cnt < 14400 ∧
          14400 * t.cal.band + t.cal.cnt = 14400 * s.cal.band + s.cal.cnt + n) ∧
      (144000 ≤ 14400 * s.cal.band + s.cal.cnt + n →
        t.cal.state = .computing ∧ t.cal.band = 10 ∧ t.cal.cnt = 14400)

/-- 44 R254: from Idle, CTRL_START and blocks of any lengths reach Computing only in the block that holds the 144000th sample,
Applying one block later, and one block later the next sweep's Measuring. -/
def Obligations.BlockAccounting : Prop :=
  ∀ (s : State) (ns : List Nat) (n k l : Nat), s.cal.state = .idle → (∀ m ∈ n :: k :: l :: ns, inRange s m) →
    ns.sum < 144000 →
    (∃ t, runCommands (.ctrlStart :: ns.map .ctrlProcessBlock) s = some t ∧ t.cal.state = .measuring ∧
      14400 * t.cal.band + t.cal.cnt = ns.sum ∧ t.cal.iteration = 0) ∧
    (144000 ≤ ns.sum + n →
      ∃ t u v, runCommands (.ctrlStart :: (ns ++ [n]).map .ctrlProcessBlock) s = some t ∧ t.cal.state = .computing ∧
        exec (.ctrlProcessBlock k) t = .next u ∧ u.cal.state = .applying ∧
        exec (.ctrlProcessBlock l) u = .next v ∧ v.cal.state = .measuring ∧ v.cal.iteration = 1)

/-- 44 R248: the Computing tick sets every band's correction and cumulative gain, writes silence and goes to Applying. -/
def Obligations.ComputingTickResult : Prop :=
  ∀ (s : State) (n : Nat), inRange s n → memoryWf s.sram = true → s.cal.state = .computing →
    ∃ t, exec (.ctrlProcessBlock n) s = .next t ∧
      t = { s with
        regs := { s.regs with status := 1 }
        sram := t.sram
        cal := { s.cal with state := .applying, correction := t.cal.correction, cumulative := t.cal.cumulative } } ∧
      stores s n (fun _ => 0x00000000#32) t.sram ∧
      ∀ b : Fin 10,
        t.cal.correction[b] = fClamp (fNeg s.cal.measured[b]) 0xC1400000#32 0x41400000#32 ∧
        (s.cal.iteration = 0 → t.cal.cumulative[b] = t.cal.correction[b]) ∧
        (s.cal.iteration ≠ 0 → t.cal.cumulative[b] =
          fClamp (fAdd s.cal.cumulative[b] (fMul t.cal.correction[b] 0x3F333333#32)) 0xC1400000#32 0x41400000#32)

/-- 44 R249 to R253: the Applying tick programs an initialized equalizer with the cumulative gains at Q 2.0, leaves one that is
not initialized alone, writes silence, and begins the next sweep while iteration + 1 < 3, else goes to Done. -/
def Obligations.ApplyingTickResult : Prop :=
  ∀ (s : State) (n : Nat), inRange s n → memoryWf s.sram = true → s.cal.state = .applying →
    ∃ t, exec (.ctrlProcessBlock n) s = .next t ∧
      t = { s with
        regs := { s.regs with status := 1 }
        sram := t.sram
        eq := { s.eq with coef := t.eq.coef, bands := t.eq.bands }
        cal := { s.cal with
          state := t.cal.state, band := t.cal.band, cnt := t.cal.cnt, iteration := t.cal.iteration,
          tone := t.cal.tone, det := t.cal.det } } ∧
      stores s n (fun _ => 0x00000000#32) t.sram ∧
      (s.eq.initialized = false → t.eq = s.eq) ∧
      (s.eq.initialized = true → ∀ b : Fin 10,
        let g := fClamp s.cal.cumulative[b] 0xC1400000#32 0x41400000#32
        t.eq.coef[b] = design bandFreq[b] g 0x40000000#32 0x473B8000#32 ∧ t.eq.bands[b] = ⟨g, 0x40000000#32, false⟩) ∧
      (s.cal.iteration + 1 < 3 → t.cal.state = .measuring ∧ t.cal.iteration = s.cal.iteration + 1 ∧ t.cal.band = 0 ∧
        bandStarted 0x41C80000#32 t.cal) ∧
      (¬ s.cal.iteration + 1 < 3 → t.cal = { s.cal with state := .done })

/-- 44 R270, R271, R279, R280, 10_state R48, R54: the state, band, error and CPU getters write their result register and OK. -/
def Obligations.ScalarGetterResults : Prop :=
  ∀ s : State,
    (∃ t, exec .ctrlGetState s = .next t ∧
      t = { s with regs := { s.regs with status := 1, resultI := t.regs.resultI } } ∧
      (s.cal.state = .idle → t.regs.resultI = 0) ∧ (s.cal.state = .measuring → t.regs.resultI = 1) ∧
      (s.cal.state = .computing → t.regs.resultI = 2) ∧ (s.cal.state = .applying → t.regs.resultI = 3) ∧
      (s.cal.state = .done → t.regs.resultI = 4) ∧ (s.cal.state = .error → t.regs.resultI = 5)) ∧
    (∃ t, exec .ctrlGetCurrentBand s = .next t ∧
      t = { s with regs := { s.regs with status := 1, resultI := t.regs.resultI } } ∧
      (s.cal.state = .measuring → t.regs.resultI = BitVec.ofNat 32 s.cal.band) ∧
      (s.cal.state ≠ .measuring → t.regs.resultI = 0xFFFFFFFF#32)) ∧
    (∃ t, exec .ctrlGetLastError s = .next t ∧
      t = { s with regs := { s.regs with status := 1, resultI := t.regs.resultI } } ∧
      (s.cal.lastError = .none → t.regs.resultI = 0) ∧ (s.cal.lastError = .invalidState → t.regs.resultI = 1) ∧
      (s.cal.lastError = .invalidParameters → t.regs.resultI = 2) ∧
      (s.cal.lastError = .bufferOverflow → t.regs.resultI = 3)) ∧
    exec .ctrlGetCpuUsage s = .next { s with regs := { s.regs with
      status := 1, resultF := Config.cpuUsage s.cal.state } }

/-- 44 R272: CTRL_GET_PROGRESS in each state. -/
def Obligations.ProgressResult : Prop :=
  ∀ s : State, ∃ t, exec .ctrlGetProgress s = .next t ∧
    t = { s with regs := { s.regs with status := 1, resultF := t.regs.resultF } } ∧
    (s.cal.state = .idle ∨ s.cal.state = .error → t.regs.resultF = 0x00000000#32) ∧
    (s.cal.state = .measuring → t.regs.resultF =
      fAdd (fDiv (fOfNat s.cal.band) 0x41200000#32) (fDiv (fDiv (fOfNat s.cal.cnt) (fOfNat 14400)) 0x41200000#32)) ∧
    (s.cal.state = .computing ∨ s.cal.state = .applying → t.regs.resultF = 0x3F733333#32) ∧
    (s.cal.state = .done → t.regs.resultF = 0x3F800000#32)

/-- 44 R273, R274: the array getters return the array in Done and null, with RESULT_ARR kept, in every other state. -/
def Obligations.ArrayGetterResults : Prop :=
  ∀ s : State,
    (s.cal.state = .done →
      exec .ctrlGetCorrectionGains s =
        .next { s with regs := { s.regs with status := 1, resultArr := s.cal.cumulative } } ∧
      exec .ctrlGetMeasuredLevels s =
        .next { s with regs := { s.regs with status := 1, resultArr := s.cal.measured } }) ∧
    (s.cal.state ≠ .done →
      exec .ctrlGetCorrectionGains s = .next { s with regs := { s.regs with status := 2 } } ∧
      exec .ctrlGetMeasuredLevels s = .next { s with regs := { s.regs with status := 2 } })

/-- 44 R276, R252: CTRL_APPLY_GAINS copies GAIN_ARR to cumulative unclamped and programs an initialized equalizer with the
clamped gains at Q 2.0; with the equalizer uninitialized OK is 0 and the equalizer is unchanged. -/
def Obligations.CtrlApplyGainsResult : Prop :=
  ∀ s : State,
    (s.eq.initialized = true → ∃ t, exec .ctrlApplyGains s = .next t ∧
      t = { s with
        regs := { s.regs with status := 1 }
        eq := { s.eq with coef := t.eq.coef, bands := t.eq.bands }
        cal := { s.cal with cumulative := s.regs.gainArr } } ∧
      ∀ b : Fin 10,
        let g := fClamp s.regs.gainArr[b] 0xC1400000#32 0x41400000#32
        t.eq.coef[b] = design bandFreq[b] g 0x40000000#32 0x473B8000#32 ∧ t.eq.bands[b] = ⟨g, 0x40000000#32, false⟩) ∧
    (s.eq.initialized = false → exec .ctrlApplyGains s = .next { s with
      regs := { s.regs with status := 0 }, cal := { s.cal with cumulative := s.regs.gainArr } })

/-! ## The units' arithmetic -/

/-- 42 R193: the envelope is k/480 for the distance k < 480 from either end of the tone, 1.0 in between and +0.0 after it, and the
fade-out mirrors the fade-in. -/
def Obligations.EnvelopeShape : Prop :=
  ∀ n : Nat,
    (n < 480 → envelope n = fDiv (fOfNat n) (fOfNat 480)) ∧ (480 ≤ n → n < 13920 → envelope n = 0x3F800000#32) ∧
    (13920 ≤ n → n < 14400 → envelope n = fDiv (fOfNat (14399 - n)) (fOfNat 480)) ∧ (14400 ≤ n → envelope n = 0) ∧
    (n < 14400 → envelope (14399 - n) = envelope n)

/-- 43 R215, 44 R256: a window of +0.0 samples after DetInit reads the floor, -120.0, whatever the detector's coefficient and
the primitives are; so does a window whose magnitude is a NaN; and the floor makes a correction of +12.0. -/
def Obligations.SilentWindowReadsTheFloor : Prop :=
  (∀ (p : Primitives) (d : Detector) (n : Nat), d.s1 = 0 → d.s2 = 0 → 1 ≤ d.len → d.len ≤ 4800 →
    detFinalizeWith p ((List.replicate n (0x00000000#32 : F32)).foldl (fun d x => detUpdate x d) d) = 0xC2F00000#32) ∧
  (∀ (p : Primitives) (d : Detector), isNaN (detMagnitude d) = true → detFinalizeWith p d = 0xC2F00000#32) ∧
  correctionOf 0xC2F00000#32 = 0x41400000#32

/-- 00_scope R22, 41 R155: clamp gives its bound outside the bounds, a NaN and a value inside unchanged; so a clamped gain is
never below -12.0 or above +12.0. Below and above are the order of the exact values of finite patterns, with -infinity below and
+infinity above each of them (IEEE-754, log 14), and a NaN is neither below nor above anything. -/
def Obligations.ClampStaysInItsBounds : Prop :=
  (∀ v lo hi : F32, (isNaN v = true → fClamp v lo hi = v) ∧ (fLt v lo = true → fClamp v lo hi = lo) ∧
    (fLt v lo = false → fGt v hi = true → fClamp v lo hi = hi) ∧
    (fLt v lo = false → fGt v hi = false → fClamp v lo hi = v)) ∧
  (∀ g : F32, fLt (clampGain g) 0xC1400000#32 = false ∧ fGt (clampGain g) 0x41400000#32 = false) ∧
  (∀ v w : F32, isFinite v = true → isFinite w = true →
    (fLt v w = true ↔ ratValue v < ratValue w) ∧ (fGt v w = true ↔ ratValue w < ratValue v)) ∧
  (∀ v : F32, isFinite v = true →
    fLt 0xFF800000#32 v = true ∧ fLt v 0xFF800000#32 = false ∧ fLt v 0x7F800000#32 = true ∧ fLt 0x7F800000#32 v = false) ∧
  (fLt 0xFF800000#32 0x7F800000#32 = true ∧ fLt 0x7F800000#32 0xFF800000#32 = false ∧
    fLt 0x7F800000#32 0x7F800000#32 = false ∧ fLt 0xFF800000#32 0xFF800000#32 = false) ∧
  ∀ v w : F32, fGt v w = fLt w v ∧ (isNaN v = true ∨ isNaN w = true → fLt v w = false)

/-- 00_scope R18: the sum, difference and product of two finite values are the exact results rounded to binary32, to nearest with
ties to even. -/
def Obligations.SumsAndProductsRoundToNearestEven : Prop :=
  ∀ a b : F32, isFinite a = true → isFinite b = true →
    roundsToNearestEven ((ratValue a : ℝ) + ratValue b) (fAdd a b) ∧
    roundsToNearestEven ((ratValue a : ℝ) - ratValue b) (fSub a b) ∧
    roundsToNearestEven ((ratValue a : ℝ) * ratValue b) (fMul a b)

/-- 00_scope R18, R20: the quotient by a nonzero finite value and the square root of one that is not negative are the exact
results rounded to binary32, to nearest with ties to even. -/
def Obligations.QuotientsAndRootsRoundToNearestEven : Prop :=
  (∀ a b : F32, isFinite a = true → isFinite b = true → ratValue b ≠ 0 →
    roundsToNearestEven ((ratValue a : ℝ) / ratValue b) (fDiv a b)) ∧
  ∀ a : F32, isFinite a = true → 0 ≤ ratValue a → roundsToNearestEven (Real.sqrt (ratValue a)) (fSqrt a)

/-- 00_scope R14, R18, R20: an operation with a NaN operand, and each invalid operation, gives some NaN, whatever NAN_BITS is. The
valid operations outside finite arithmetic give the infinity or the zero that IEEE-754 names, and a zero result of finite
operands has the sign it names. Which operations are invalid, these results and these signs are the standard's (log 14). -/
def Obligations.InvalidOperationsGiveANaN : Prop :=
  let inf := fun z : Bool => ofSignMagnitude z infinityMagnitude
  let zero := fun z : Bool => ofSignMagnitude z 0
  (∀ a b : F32, isNaN a = true ∨ isNaN b = true →
    isNaN (fAdd a b) = true ∧ isNaN (fSub a b) = true ∧ isNaN (fMul a b) = true ∧ isNaN (fDiv a b) = true) ∧
  (∀ a : F32, isNaN a = true ∨ fLt a 0 = true → isNaN (fSqrt a) = true) ∧
  (∀ z : Bool, isNaN (fAdd (inf z) (inf (!z))) = true ∧ isNaN (fSub (inf z) (inf z)) = true) ∧
  (∀ y z : Bool, isNaN (fMul (zero y) (inf z)) = true ∧ isNaN (fMul (inf y) (zero z)) = true ∧
    isNaN (fDiv (zero y) (zero z)) = true ∧ isNaN (fDiv (inf y) (inf z)) = true) ∧
  (∀ y z : Bool, fAdd (inf z) (inf z) = inf z ∧ fSub (inf z) (inf (!z)) = inf z ∧ fMul (inf y) (inf z) = inf (y != z)) ∧
  (∀ (z : Bool) (a : F32), isFinite a = true →
    fAdd (inf z) a = inf z ∧ fAdd a (inf z) = inf z ∧ fSub (inf z) a = inf z ∧ fSub a (inf z) = inf (!z) ∧
    fDiv (inf z) a = inf (z != signBit a) ∧ fDiv a (inf z) = zero (signBit a != z) ∧
    (ratValue a ≠ 0 → fMul (inf z) a = inf (z != signBit a) ∧ fMul a (inf z) = inf (signBit a != z) ∧
      fDiv a (zero z) = inf (signBit a != z))) ∧
  (fSqrt (inf false) = inf false ∧ ∀ z : Bool, fSqrt (zero z) = zero z) ∧
  ∀ a b : F32, isFinite a = true → isFinite b = true →
    (ratValue a + ratValue b = 0 → fAdd a b = zero (signBit a && signBit b)) ∧
    (ratValue a - ratValue b = 0 → fSub a b = zero (signBit a && !signBit b)) ∧
    signBit (fMul a b) = (signBit a != signBit b) ∧ (ratValue b ≠ 0 → signBit (fDiv a b) = (signBit a != signBit b))
end

