-- ==== Sys2Proof/Laws/Binary32.lean ====
section
/-! SUPPORT. The laws of the binary32 arithmetic: the fields of a packed pattern, the value of a magnitude, and what rounding
does (Machine/Binary32.lean). -/

namespace Sys2Proof.Machine

/-! ## Packing -/

theorem infinityMagnitude_eq : infinityMagnitude = 2139095040 := rfl

theorem ofSignMagnitude_toNat {s : Bool} {k : Nat} (h : k < 2 ^ 31) :
    (ofSignMagnitude s k).toNat = (if s then 2 ^ 31 else 0) + k := by
  unfold ofSignMagnitude
  rw [BitVec.toNat_ofNat]
  cases s
  · simp only [Bool.false_eq_true, if_false]
    omega
  · simp only [if_true]
    omega

theorem signBit_ofSignMagnitude {s : Bool} {k : Nat} (h : k < 2 ^ 31) : signBit (ofSignMagnitude s k) = s := by
  unfold signBit
  rw [ofSignMagnitude_toNat h]
  cases s <;> simp <;> omega

theorem expField_ofSignMagnitude {s : Bool} {k : Nat} (h : k < 2 ^ 31) :
    expField (ofSignMagnitude s k) = k / 2 ^ 23 := by
  unfold expField
  rw [ofSignMagnitude_toNat h]
  cases s <;> simp <;> omega

theorem fracField_ofSignMagnitude {s : Bool} {k : Nat} (h : k < 2 ^ 31) :
    fracField (ofSignMagnitude s k) = k % 2 ^ 23 := by
  unfold fracField
  rw [ofSignMagnitude_toNat h]
  cases s <;> simp
  omega

/-- Every pattern is its sign and its magnitude. -/
theorem eq_ofSignMagnitude (w : F32) : w = ofSignMagnitude (signBit w) (w.toNat % 2 ^ 31) := by
  have hw := w.isLt
  apply BitVec.eq_of_toNat_eq
  rw [ofSignMagnitude_toNat (Nat.mod_lt _ (by decide))]
  unfold signBit
  by_cases h : w.toNat / 2 ^ 31 = 1
  · rw [if_pos (decide_eq_true h)]
    omega
  · rw [if_neg (by rw [decide_eq_true_iff]; exact h)]
    omega

theorem expField_eq_magnitude (w : F32) : expField w = w.toNat % 2 ^ 31 / 2 ^ 23 := by
  have hw := w.isLt
  unfold expField
  omega

/-- The NaN an operation returns is a NaN, whatever NAN_BITS is (00_scope R14). -/
theorem isNaN_nanResult (op : ArithOp) (a b : F32) : isNaN (nanResult op a b) = true := by
  have hf := (Config.nanBits op a b).fractionLessOne.isLt
  have hk : infinityMagnitude + ((Config.nanBits op a b).fractionLessOne.val + 1) < 2 ^ 31 := by
    rw [infinityMagnitude_eq]
    omega
  unfold isNaN nanResult
  rw [expField_ofSignMagnitude hk, fracField_ofSignMagnitude hk, infinityMagnitude_eq, Bool.and_eq_true,
    decide_eq_true_iff, decide_eq_true_iff]
  omega

/-! ## What a pattern stands for -/

/-- The three shapes of a pattern. -/
theorem unpack_cases (w : F32) :
    (isNaN w = true ∧ unpack w = .nan) ∨
      (w = ofSignMagnitude (signBit w) infinityMagnitude ∧ unpack w = .infinite (signBit w)) ∨
      (isFinite w = true ∧ ∃ m e, unpack w = .finite (signBit w) m e ∧ m < 2 ^ 24 ∧ -149 ≤ e ∧ e ≤ 104 ∧
        (-149 < e → 2 ^ 23 ≤ m)) := by
  have hw := w.isLt
  have he : expField w < 256 := by unfold expField; omega
  have hf : fracField w < 2 ^ 23 := by unfold fracField; omega
  unfold isNaN isFinite unpack
  by_cases h255 : expField w = 255
  · by_cases h0 : fracField w = 0
    · refine .inr (.inl ⟨?_, by simp [h255, h0]⟩)
      rw (occs := .pos [1]) [eq_ofSignMagnitude w]
      congr 1
      unfold expField at h255
      unfold fracField at h0
      rw [infinityMagnitude_eq]
      omega
    · exact .inl (by simp [h255, h0])
  · refine .inr (.inr ⟨by simp; omega, ?_⟩)
    by_cases h0 : expField w = 0
    · exact ⟨fracField w, -149, by simp [h0], by omega, by omega, by omega, by omega⟩
    · exact ⟨2 ^ 23 + fracField w, (expField w : Int) - 150, by simp [h255, h0], by omega, by omega, by omega, by omega⟩

theorem ratValue_finite {w : F32} {s : Bool} {m : Nat} {e : Int} (h : unpack w = .finite s m e) :
    ratValue w = (signed s m : Rat) * (2 : Rat) ^ e := by
  unfold ratValue
  rw [h]

/-- The value of the magnitude `k`: n last places of 2^q make the magnitude (q + 149)·2^23 + n, the carry included. -/
theorem ratValue_ofSignMagnitude {s : Bool} {q : Int} {n : Nat} (hq : -149 ≤ q) (hn : n ≤ 2 ^ 24)
    (hnorm : -149 < q → 2 ^ 23 ≤ n) (hfin : (q + 149).toNat * 2 ^ 23 + n < infinityMagnitude) :
    ratValue (ofSignMagnitude s ((q + 149).toNat * 2 ^ 23 + n)) = (signed s n : Rat) * (2 : Rat) ^ q := by
  obtain ⟨p, hp⟩ := Int.eq_ofNat_of_zero_le (show 0 ≤ q + 149 by omega)
  obtain rfl : q = (p : Int) - 149 := by omega
  rw [infinityMagnitude_eq] at hfin
  simp only [show ((p : Int) - 149 + 149).toNat = p by omega] at *
  have hk : p * 2 ^ 23 + n < 2 ^ 31 := by omega
  have hexp := expField_ofSignMagnitude (s := s) hk
  have hfrac := fracField_ofSignMagnitude (s := s) hk
  have hsign := signBit_ofSignMagnitude (s := s) hk
  have two_mul_zpow : ∀ z : Int, (2 : Rat) ^ (z + 1) = 2 * (2 : Rat) ^ z := fun z => by
    rw [zpow_add_one₀ (by norm_num)]; ring
  by_cases hsub : n < 2 ^ 23
  · have hp0 : p = 0 := by
      by_contra hne
      have := hnorm (by omega)
      omega
    subst hp0
    refine ratValue_finite ?_
    unfold unpack
    rw [hexp, hfrac, hsign, if_neg (by omega), if_pos (by omega)]
    congr 1
    omega
  · by_cases hcarry : n = 2 ^ 24
    · have hu : unpack (ofSignMagnitude s (p * 2 ^ 23 + n)) = .finite s (2 ^ 23) ((p : Int) + 2 - 150) := by
        unfold unpack
        rw [hexp, hfrac, hsign, if_neg (by omega), if_neg (by omega)]
        congr 1 <;> omega
      rw [ratValue_finite hu, hcarry, show (p : Int) + 2 - 150 = (p : Int) - 149 + 1 by omega, two_mul_zpow]
      cases s <;> simp only [signed] <;> push_cast <;> norm_num <;> ring
    · have hu : unpack (ofSignMagnitude s (p * 2 ^ 23 + n)) = .finite s n ((p : Int) - 149) := by
        unfold unpack
        rw [hexp, hfrac, hsign, if_neg (by omega), if_neg (by omega)]
        congr 1 <;> omega
      exact ratValue_finite hu

/-! ## Rounding -/

/-- The real `u` in units of 2^-d is `m`, or lies strictly between the neighbours of an odd `m` that has at least two places
to lose (what withSticky makes of a result with a rest). -/
def standsFor (m d : Nat) (u : ℝ) : Prop :=
  u * 2 ^ d = m ∨ (m % 2 = 1 ∧ 2 ≤ d ∧ (m : ℝ) - 1 < u * 2 ^ d ∧ u * 2 ^ d < (m : ℝ) + 1)

/-- Everything roundShift does: its result is within one half of what its operand stands for, and even at one half. -/
theorem roundShift_nearest {m d : Nat} {u : ℝ} (h : standsFor m d u) :
    |(roundShift m d : ℝ) - u| ≤ 1 / 2 ∧ (|(roundShift m d : ℝ) - u| = 1 / 2 → roundShift m d % 2 = 0) := by
  have hdiv := Nat.div_add_mod m (2 ^ d)
  have hmod := Nat.mod_lt m (Nat.two_pow_pos d)
  have hP : (0 : ℝ) < 2 ^ d := by positivity
  unfold roundShift
  generalize hq : m / 2 ^ d = q at *
  generalize hr : m % 2 ^ d = r at *
  have hm : (m : ℝ) = 2 ^ d * q + r := by exact_mod_cast hdiv.symm
  rcases h with h | ⟨hodd, hd, hlo, hhi⟩
  · have hu : u = q + r / 2 ^ d := by
      rw [eq_comm, ← mul_right_cancel_iff_of_pos hP, h, hm]
      field_simp
    have hr1 : (r : ℝ) / 2 ^ d < 1 := by
      rw [div_lt_one hP]
      exact_mod_cast hmod
    have hr0 : 0 ≤ (r : ℝ) / 2 ^ d := by positivity
    have half_le : 2 * r ≤ 2 ^ d ↔ (r : ℝ) / 2 ^ d ≤ 1 / 2 := by
      rw [div_le_div_iff₀ hP (by norm_num)]
      constructor
      · intro h'
        have : ((2 * r : ℕ) : ℝ) ≤ ((2 ^ d : ℕ) : ℝ) := by exact_mod_cast h'
        push_cast at this
        linarith
      · intro h'
        have : ((2 * r : ℕ) : ℝ) ≤ ((2 ^ d : ℕ) : ℝ) := by push_cast; linarith
        exact_mod_cast this
    have half_ge : 2 ^ d ≤ 2 * r ↔ 1 / 2 ≤ (r : ℝ) / 2 ^ d := by
      rw [div_le_div_iff₀ (by norm_num) hP]
      constructor
      · intro h'
        have : ((2 ^ d : ℕ) : ℝ) ≤ ((2 * r : ℕ) : ℝ) := by exact_mod_cast h'
        push_cast at this
        linarith
      · intro h'
        have : ((2 ^ d : ℕ) : ℝ) ≤ ((2 * r : ℕ) : ℝ) := by push_cast; linarith
        exact_mod_cast this
    subst hu
    simp only []
    split
    · rename_i hup
      have h1 : 1 / 2 ≤ (r : ℝ) / 2 ^ d := half_ge.mp (by omega)
      have habs : |((q + 1 : ℕ) : ℝ) - (q + r / 2 ^ d)| = 1 - r / 2 ^ d := by
        rw [abs_of_nonneg] <;> push_cast <;> linarith
      rw [habs]
      refine ⟨by linarith, fun heq => ?_⟩
      have : 2 * r ≤ 2 ^ d := half_le.mpr (by linarith)
      omega
    · rename_i hdown
      have h1 : (r : ℝ) / 2 ^ d ≤ 1 / 2 := half_le.mp (by omega)
      have habs : |(q : ℝ) - (q + r / 2 ^ d)| = r / 2 ^ d := by
        rw [abs_of_nonpos] <;> linarith
      rw [habs]
      refine ⟨h1, fun heq => ?_⟩
      have : 2 ^ d ≤ 2 * r := half_ge.mpr (by linarith)
      omega
  · obtain ⟨k, rfl⟩ : ∃ k, d = k + 2 := ⟨d - 2, by omega⟩
    have hpow : 2 ^ (k + 2) = 4 * 2 ^ k := by ring
    have hpowR : (2 : ℝ) ^ (k + 2) = 4 * 2 ^ k := by ring
    have hPk : (0 : ℝ) < 2 ^ k := by positivity
    rw [hpow] at hmod hdiv ⊢
    rw [hpowR] at hlo hhi hm
    have hassoc : 4 * 2 ^ k * q = 4 * (2 ^ k * q) := by ring
    have hrodd : r % 2 = 1 := by omega
    simp only []
    split
    · rename_i hup
      have h1 : 2 * 2 ^ k + 1 ≤ r := by omega
      have h1' : 2 * (2 : ℝ) ^ k + 1 ≤ r := by exact_mod_cast h1
      have h2' : (r : ℝ) + 1 ≤ 4 * 2 ^ k := by exact_mod_cast hmod
      have hlt : |((q + 1 : ℕ) : ℝ) - u| < 1 / 2 := by
        rw [abs_lt]
        push_cast
        constructor <;> nlinarith
      exact ⟨hlt.le, fun heq => absurd heq hlt.ne⟩
    · rename_i hdown
      have h1 : r + 1 ≤ 2 * 2 ^ k := by omega
      have h1' : (r : ℝ) + 1 ≤ 2 * 2 ^ k := by exact_mod_cast h1
      have h2' : (1 : ℝ) ≤ r := by exact_mod_cast (show 1 ≤ r by omega)
      have hlt : |(q : ℝ) - u| < 1 / 2 := by
        rw [abs_lt]
        constructor <;> nlinarith
      exact ⟨hlt.le, fun heq => absurd heq hlt.ne⟩

theorem abs_signed (s : Bool) (m : Nat) : |(signed s m : ℝ)| = m := by
  cases s <;> simp [signed]

/-- Every finite value is a multiple of the last place 2^q, or lies below the values whose last place that is. -/
theorem finite_multiple {c : F32} (h : isFinite c = true) {q : Int} (hq : -149 ≤ q) :
    (∃ j : Int, (ratValue c : ℝ) = j * 2 ^ q) ∨ (-149 < q ∧ |(ratValue c : ℝ)| < 2 ^ (q + 23)) := by
  rcases unpack_cases c with ⟨hn, -⟩ | ⟨hi, -⟩ | ⟨-, m, e, hu, hm, he, -, -⟩
  · unfold isNaN at hn
    unfold isFinite at h
    rw [Bool.and_eq_true, decide_eq_true_iff] at hn
    rw [decide_eq_true_iff] at h
    omega
  · exfalso
    rw [hi] at h
    unfold isFinite at h
    rw [expField_ofSignMagnitude (by decide), decide_eq_true_iff] at h
    revert h
    decide
  · have hv : (ratValue c : ℝ) = (signed (signBit c) m : ℝ) * 2 ^ e := by
      rw [ratValue_finite hu]
      push_cast
      rfl
    by_cases hqe : q ≤ e
    · refine .inl ⟨signed (signBit c) m * 2 ^ (e - q).toNat, ?_⟩
      rw [hv]
      push_cast
      rw [mul_assoc, ← zpow_natCast, ← zpow_add₀ (by norm_num : (2 : ℝ) ≠ 0)]
      congr 2
      omega
    · refine .inr ⟨by omega, ?_⟩
      rw [hv, abs_mul, abs_signed, abs_of_pos (by positivity : (0 : ℝ) < 2 ^ e)]
      calc (m : ℝ) * 2 ^ e < 2 ^ (24 : ℕ) * 2 ^ e := by
            apply mul_lt_mul_of_pos_right _ (by positivity)
            exact_mod_cast hm
        _ = 2 ^ (24 + e) := by rw [zpow_add₀ (by norm_num : (2 : ℝ) ≠ 0)]; norm_num
        _ ≤ 2 ^ (q + 23) := zpow_le_zpow_right₀ (by norm_num) (by omega)

/-- No integer is nearer to `u` than one within a half of it, and another as near lies a half away. -/
theorem nearest_integer {n j : Int} {u : ℝ} (h : |(n : ℝ) - u| ≤ 1 / 2) :
    |(n : ℝ) - u| ≤ |(j : ℝ) - u| ∧ (|(j : ℝ) - u| = |(n : ℝ) - u| → j ≠ n → |(n : ℝ) - u| = 1 / 2) := by
  by_cases hj : j = n
  · subst hj
    exact ⟨le_refl _, fun _ h' => absurd rfl h'⟩
  · have h1 : (1 : ℝ) ≤ |(j : ℝ) - n| := by
      have : (1 : Int) ≤ |j - n| := Int.one_le_abs (sub_ne_zero.mpr hj)
      exact_mod_cast this
    have h2 : |(j : ℝ) - n| ≤ |(j : ℝ) - u| + |(n : ℝ) - u| := by
      have := abs_sub_le (j : ℝ) u n
      rwa [abs_sub_comm u (n : ℝ)] at this
    exact ⟨by linarith, fun heq _ => by linarith⟩

/-- A significand of n last places 2^q that lies within one half of y / 2^q, even at one half, packs to y rounded to nearest
even. -/
theorem packed_nearest {s : Bool} {q : Int} {n : Nat} {y : ℝ} (hq : -149 ≤ q) (hy : 0 < y)
    (hn : |(n : ℝ) - y / 2 ^ q| ≤ 1 / 2) (htie : |(n : ℝ) - y / 2 ^ q| = 1 / 2 → n % 2 = 0)
    (hlow : -149 < q → (2 : ℝ) ^ 23 ≤ y / 2 ^ q) (hup : y / 2 ^ q < (2 : ℝ) ^ 24) :
    roundsToNearestEven (if s then -y else y)
      (ofSignMagnitude s (min ((q + 149).toNat * 2 ^ 23 + n) infinityMagnitude)) := by
  have hQ : (0 : ℝ) < 2 ^ q := by positivity
  have hyu : y = y / 2 ^ q * 2 ^ q := by field_simp
  generalize hu : y / 2 ^ q = u at *
  have hnle : n ≤ 2 ^ 24 := by
    have : (n : ℝ) < (2 ^ 24 + 1 : ℕ) := by push_cast; linarith [(abs_le.mp hn).2]
    have := Nat.cast_lt.mp this
    omega
  have hnge : -149 < q → 2 ^ 23 ≤ n := fun h => by
    have : ((2 ^ 23 - 1 : ℕ) : ℝ) < n := by
      rw [Nat.cast_sub (by norm_num)]; push_cast; linarith [(abs_le.mp hn).1, hlow h]
    have := Nat.cast_lt.mp this
    omega
  have habs : |if s = true then -y else y| = y := by cases s <;> simp [abs_of_pos hy]
  have hneg : decide ((if s = true then -y else y) < 0) = s := by
    cases s
    · simpa using hy.le
    · simpa using hy
  have hthr : ((overflowThreshold : Rat) : ℝ) = (2 ^ 24 - 1 / 2) * 2 ^ (104 : ℤ) := by
    unfold overflowThreshold
    norm_num
  have hfit : (q + 149).toNat * 2 ^ 23 + n < infinityMagnitude ↔ y < ((overflowThreshold : Rat) : ℝ) := by
    rw [infinityMagnitude_eq, hthr]
    constructor
    · intro hk
      rw [hyu]
      rcases lt_trichotomy q 104 with h | h | h
      · calc u * 2 ^ q < 2 ^ 24 * 2 ^ q := by gcongr
          _ ≤ 2 ^ 24 * 2 ^ (103 : ℤ) := by
            gcongr
            · norm_num
            · omega
          _ ≤ (2 ^ 24 - 1 / 2) * 2 ^ (104 : ℤ) := by norm_num
      · subst h
        have hn' : n ≤ 2 ^ 24 - 1 := by norm_num at hk ⊢; omega
        have hnr : (n : ℝ) ≤ 2 ^ 24 - 1 := by
          have : (n : ℝ) ≤ ((2 ^ 24 - 1 : ℕ) : ℝ) := by exact_mod_cast hn'
          rwa [Nat.cast_sub (by norm_num), Nat.cast_pow, Nat.cast_ofNat, Nat.cast_one] at this
        apply mul_lt_mul_of_pos_right _ hQ
        rcases lt_or_eq_of_le hn with h' | h'
        · linarith [(abs_lt.mp h').1]
        · have heven := htie h'
          have hn2 : n ≤ 2 ^ 24 - 2 := by omega
          have hnr2 : (n : ℝ) ≤ 2 ^ 24 - 2 := by
            have : ((n + 2 : ℕ) : ℝ) ≤ ((2 ^ 24 : ℕ) : ℝ) := by exact_mod_cast (show n + 2 ≤ 2 ^ 24 by omega)
            push_cast at this
            linarith
          linarith [(abs_le.mp hn).1]
      · exfalso
        have := hnge (by omega)
        omega
    · intro hlt
      by_contra hk
      push Not at hk
      have hq104 : 104 ≤ q := by omega
      have hu24 : (2 : ℝ) ^ 24 - 1 / 2 ≤ u ∨ 105 ≤ q := by
        rcases eq_or_lt_of_le hq104 with h | h
        · left
          have : n = 2 ^ 24 := by omega
          rw [this] at hn
          push_cast at hn
          linarith [(abs_le.mp hn).2]
        · right; omega
      rw [hyu] at hlt
      rcases hu24 with h | h
      · have : (2 ^ 24 - 1 / 2) * (2 : ℝ) ^ (104 : ℤ) ≤ u * 2 ^ q := by
          gcongr
          · norm_num
        linarith
      · have h23 := hlow (by omega)
        have : (2 ^ 23) * (2 : ℝ) ^ (105 : ℤ) ≤ u * 2 ^ q := by
          gcongr
          · norm_num
        norm_num at this hlt
        linarith
  unfold roundsToNearestEven
  rw [habs, hneg]
  by_cases hk : (q + 149).toNat * 2 ^ 23 + n < infinityMagnitude
  · rw [if_pos (hfit.mp hk), Nat.min_eq_left hk.le]
    have hval := ratValue_ofSignMagnitude (s := s) hq hnle hnge hk
    have hvalR : (ratValue (ofSignMagnitude s ((q + 149).toNat * 2 ^ 23 + n)) : ℝ) = (signed s n : ℝ) * 2 ^ q := by
      rw [hval]; push_cast; rfl
    rw [infinityMagnitude_eq] at hk
    have hk31 : (q + 149).toNat * 2 ^ 23 + n < 2 ^ 31 := by omega
    refine ⟨?_, fun c hc => ?_⟩
    · unfold isFinite
      rw [expField_ofSignMagnitude hk31, decide_eq_true_iff]
      omega
    · -- both distances in units of the last place, with the sign taken off
      have hr : |(ratValue (ofSignMagnitude s ((q + 149).toNat * 2 ^ 23 + n)) : ℝ) - (if s = true then -y else y)| =
          |((n : Int) : ℝ) - u| * 2 ^ q := by
        rw [hvalR, hyu, ← abs_of_pos hQ, ← abs_mul, abs_of_pos hQ]
        cases s
        · simp only [signed, Bool.false_eq_true, if_false]; congr 1; push_cast; ring
        · simp only [signed, if_true]; rw [← abs_neg]; congr 1; push_cast; ring
      have hc' : |(ratValue c : ℝ) - (if s = true then -y else y)| =
          |(if s = true then -(ratValue c : ℝ) else (ratValue c : ℝ)) / 2 ^ q - u| * 2 ^ q := by
        rw [hyu, ← abs_of_pos hQ, ← abs_mul, abs_of_pos hQ, sub_mul, div_mul_cancel₀ _ hQ.ne']
        cases s
        · simp
        · simp only [if_true]; rw [← abs_neg]; congr 1; ring
      rw [hr, hc']
      rcases finite_multiple hc hq with ⟨j, hj⟩ | ⟨hq', hsmall⟩
      · have hdiv : (if s = true then -(ratValue c : ℝ) else (ratValue c : ℝ)) / 2 ^ q =
            ((if s = true then -j else j : Int) : ℝ) := by
          rw [hj]
          cases s
          · simp only [Bool.false_eq_true, if_false]; field_simp
          · simp only [if_true]; push_cast; field_simp
        rw [hdiv]
        have hn' : |((n : Int) : ℝ) - u| ≤ 1 / 2 := by simpa using hn
        obtain ⟨h1, h2⟩ := nearest_integer (j := if s = true then -j else j) hn'
        refine ⟨by gcongr, fun heq hne => ?_⟩
        have heq' := mul_right_cancel₀ hQ.ne' heq
        have hjn : (if s = true then -j else j) ≠ (n : Int) := fun hjn => hne (by
          have : (ratValue c : ℝ) = (ratValue (ofSignMagnitude s ((q + 149).toNat * 2 ^ 23 + n)) : ℝ) := by
            rw [hj, hvalR]
            congr 1
            cases s
            · simp only [Bool.false_eq_true, if_false] at hjn; simp [signed, hjn]
            · simp only [if_true] at hjn
              have : j = -(n : Int) := by omega
              simp [signed, this]
          exact_mod_cast this)
        have heven := htie (by simpa using h2 heq' hjn)
        rw [ofSignMagnitude_toNat hk31]
        cases s
        · simp only [Bool.false_eq_true, if_false]; omega
        · simp only [if_true]; omega
      · have hlow' := hlow hq'
        have hlt : (if s = true then -(ratValue c : ℝ) else (ratValue c : ℝ)) / 2 ^ q < 2 ^ 23 := by
          rw [div_lt_iff₀ hQ]
          have : (2 : ℝ) ^ (q + 23) = 2 ^ 23 * 2 ^ q := by
            rw [zpow_add₀ (by norm_num), mul_comm]; norm_num
          rw [← this]
          refine lt_of_le_of_lt ?_ hsmall
          cases s
          · simpa using le_abs_self _
          · simpa using neg_le_abs _
        have hn' : |((n : Int) : ℝ) - u| ≤ 1 / 2 := by simpa using hn
        have h23 := (nearest_integer (j := 2 ^ 23) hn').1
        have hstrict : |((n : Int) : ℝ) - u| <
            |(if s = true then -(ratValue c : ℝ) else (ratValue c : ℝ)) / 2 ^ q - u| := by
          refine lt_of_le_of_lt h23 ?_
          rw [abs_of_nonpos (by push_cast; linarith), abs_of_nonpos (by linarith)]
          push_cast
          linarith
        refine ⟨by gcongr, fun heq _ => ?_⟩
        exact absurd (mul_right_cancel₀ hQ.ne' heq) hstrict.ne'
  · rw [if_neg (fun h => hk (hfit.mpr h)), Nat.min_eq_right (Nat.le_of_not_lt hk)]

/-- What roundPack's operand m · 2^e stands for: the value itself, or a value strictly between the neighbours of an odd m that
has at least two places to lose. -/
def operandFor (m : Nat) (e : Int) (y : ℝ) : Prop :=
  y = m * 2 ^ e ∨
    (m % 2 = 1 ∧ e + 2 ≤ lastPlace m e ∧ ((m : ℝ) - 1) * 2 ^ e < y ∧ y < ((m : ℝ) + 1) * 2 ^ e)

/-- Everything roundPack does with a nonzero operand: what the operand stands for, rounded to nearest even. -/
theorem roundPack_nearest {s : Bool} {m : Nat} {e : Int} {y : ℝ} (hm : 0 < m) (h : operandFor m e y) :
    roundsToNearestEven (if s then -y else y) (roundPack s m e) := by
  have hE : (0 : ℝ) < 2 ^ e := by positivity
  have h2 : (2 : ℝ) ≠ 0 := by norm_num
  have hlog := Nat.log2_self_le hm.ne'
  have hlog' : m < 2 ^ (m.log2 + 1) := Nat.lt_log2_self
  have hlogR : (2 : ℝ) ^ m.log2 ≤ m := by exact_mod_cast hlog
  have hlogR' : (m : ℝ) + 1 ≤ 2 ^ (m.log2 + 1) := by exact_mod_cast hlog'
  have hq : -149 ≤ lastPlace m e := by unfold lastPlace; omega
  have hq1 : (m.log2 : Int) + e - 23 ≤ lastPlace m e := by unfold lastPlace; omega
  have hq2 : -149 < lastPlace m e → lastPlace m e = (m.log2 : Int) + e - 23 := by unfold lastPlace; omega
  have hm0 : (0 : ℝ) < m := by exact_mod_cast hm
  -- the value lies in the binade of m
  have hge : -149 < lastPlace m e → (2 : ℝ) ^ m.log2 * 2 ^ e ≤ y := fun hlt => by
    rcases h with h | ⟨hodd, hplaces, hlo, -⟩
    · rw [h]; gcongr
    · have h1 : 2 ^ m.log2 ≤ m - 1 := by
        have : m.log2 ≠ 0 := by have := hq2 hlt; omega
        have : 2 ^ m.log2 = 2 * 2 ^ (m.log2 - 1) := by
          rw [← pow_succ']; congr 1; omega
        omega
      have h1R : (2 : ℝ) ^ m.log2 ≤ (m : ℝ) - 1 := by
        have : ((2 ^ m.log2 + 1 : ℕ) : ℝ) ≤ m := by exact_mod_cast (show 2 ^ m.log2 + 1 ≤ m by omega)
        push_cast at this
        linarith
      calc (2 : ℝ) ^ m.log2 * 2 ^ e ≤ ((m : ℝ) - 1) * 2 ^ e := by gcongr
        _ ≤ y := hlo.le
  have hlt : y < (2 : ℝ) ^ (m.log2 + 1) * 2 ^ e := by
    rcases h with h | ⟨-, -, -, hhi⟩
    · rw [h]
      gcongr
      linarith
    · calc y < ((m : ℝ) + 1) * 2 ^ e := hhi
        _ ≤ _ := by gcongr
  have hy : 0 < y := by
    rcases h with h | ⟨hodd, -, hlo, -⟩
    · rw [h]; positivity
    · refine lt_of_le_of_lt ?_ hlo
      have : (1 : ℝ) ≤ m := by exact_mod_cast hm
      have : 0 ≤ (m : ℝ) - 1 := by linarith
      positivity
  have hQ : (0 : ℝ) < 2 ^ lastPlace m e := by positivity
  have hup : y / 2 ^ lastPlace m e < (2 : ℝ) ^ 24 := by
    rw [div_lt_iff₀ hQ]
    calc y < (2 : ℝ) ^ (m.log2 + 1) * 2 ^ e := hlt
      _ = (2 : ℝ) ^ ((m.log2 : Int) + 1 + e) := by rw [zpow_add₀ h2]; norm_cast
      _ ≤ (2 : ℝ) ^ (24 + lastPlace m e) := zpow_le_zpow_right₀ (by norm_num) (by omega)
      _ = _ := by rw [zpow_add₀ h2]; norm_cast
  have hlow : -149 < lastPlace m e → (2 : ℝ) ^ 23 ≤ y / 2 ^ lastPlace m e := fun hlt' => by
    rw [le_div_iff₀ hQ]
    calc (2 : ℝ) ^ 23 * 2 ^ lastPlace m e = (2 : ℝ) ^ (23 + lastPlace m e) := by
          rw [zpow_add₀ h2]; norm_cast
      _ = (2 : ℝ) ^ ((m.log2 : Int) + e) := by congr 1; have := hq2 hlt'; omega
      _ = (2 : ℝ) ^ m.log2 * 2 ^ e := by rw [zpow_add₀ h2]; norm_cast
      _ ≤ y := hge hlt'
  unfold roundPack roundMagnitude
  rw [if_neg hm.ne']
  simp only []
  by_cases hle : lastPlace m e ≤ e
  · rw [if_pos hle]
    have hexact : y = m * 2 ^ e := by
      rcases h with h | ⟨-, hplaces, -⟩
      · exact h
      · omega
    have hu : ((m * 2 ^ (e - lastPlace m e).toNat : ℕ) : ℝ) = y / 2 ^ lastPlace m e := by
      rw [eq_div_iff hQ.ne', hexact]
      push_cast
      rw [mul_assoc, ← zpow_natCast, ← zpow_add₀ h2]
      congr 2
      omega
    refine packed_nearest hq hy ?_ ?_ hlow hup
    · rw [hu]; norm_num
    · rw [hu]; norm_num
  · rw [if_neg hle]
    have hd : ((lastPlace m e - e).toNat : Int) = lastPlace m e - e := by omega
    have hscale : y / 2 ^ lastPlace m e * 2 ^ (lastPlace m e - e).toNat = y / 2 ^ e := by
      rw [← zpow_natCast, hd, div_mul_eq_mul_div, div_eq_div_iff hQ.ne' hE.ne', mul_assoc, ← zpow_add₀ h2]
      congr 2
      omega
    have hstands : standsFor m (lastPlace m e - e).toNat (y / 2 ^ lastPlace m e) := by
      unfold standsFor
      rw [hscale]
      rcases h with h | ⟨hodd, hplaces, hlo, hhi⟩
      · left; rw [h]; field_simp
      · right
        refine ⟨hodd, by omega, ?_, ?_⟩
        · rwa [lt_div_iff₀ hE]
        · rwa [div_lt_iff₀ hE]
    obtain ⟨h1, h3⟩ := roundShift_nearest hstands
    exact packed_nearest hq hy h1 h3 hlow hup

/-! ## Quotients and roots -/

/-- A result cut to an integer `k` at 2^(e + 1), with the sign of a rest, stands for the exact result `y`, when `k` is long
enough to lose the rest in rounding. -/
theorem operandFor_withSticky {k : Nat} {rest : Bool} {e : Int} {y : ℝ} (hk : 2 ^ 25 ≤ k)
    (hexact : rest = false → y = k * 2 ^ (e + 1))
    (hrest : rest = true → (k : ℝ) * 2 ^ (e + 1) < y ∧ y < ((k : ℝ) + 1) * 2 ^ (e + 1)) :
    operandFor (withSticky k rest) e y := by
  have h2 : (2 : ℝ) ^ (e + 1) = 2 * 2 ^ e := by rw [zpow_add_one₀ (by norm_num)]; ring
  unfold operandFor withSticky
  cases rest
  · left
    rw [hexact rfl, h2]
    push_cast
    ring
  · right
    obtain ⟨h3, h4⟩ := hrest rfl
    rw [h2] at h3 h4
    simp only [if_true]
    refine ⟨by omega, ?_, ?_, ?_⟩
    · have hlt : 2 * k + 1 < 2 ^ ((2 * k + 1).log2 + 1) := Nat.lt_log2_self
      have : 25 ≤ (2 * k + 1).log2 := by
        by_contra hcon
        have : 2 ^ ((2 * k + 1).log2 + 1) ≤ 2 ^ 25 := Nat.pow_le_pow_right (by norm_num) (by omega)
        omega
      unfold lastPlace
      omega
    · push_cast; linarith
    · push_cast; linarith

/-- Everything divFinite does: the exact quotient of two finite magnitudes, rounded to nearest even. -/
theorem divFinite_nearest {s : Bool} {ma mb : Nat} {ea eb : Int} (hb : 0 < mb) (ha : 0 < ma)
    (hb24 : mb < 2 ^ 24) :
    roundsToNearestEven (if s then -((ma : ℝ) * 2 ^ ea / (mb * 2 ^ eb)) else (ma : ℝ) * 2 ^ ea / (mb * 2 ^ eb))
      (divFinite s ma ea mb eb) := by
  have hbR : (0 : ℝ) < mb := by exact_mod_cast hb
  have hlong : 2 ^ 25 ≤ ma * 2 ^ 50 / mb := by
    rw [Nat.le_div_iff_mul_le hb]
    calc 2 ^ 25 * mb ≤ 2 ^ 25 * 2 ^ 24 := by gcongr
      _ ≤ 1 * 2 ^ 50 := by norm_num
      _ ≤ ma * 2 ^ 50 := by gcongr; omega
  have hscale : (ma : ℝ) * 2 ^ ea / (mb * 2 ^ eb) = (ma * 2 ^ 50 : ℕ) / mb * 2 ^ (ea - eb - 51 + 1) := by
    rw [show ea - eb - 51 + 1 = ea - eb - 50 by ring, zpow_sub₀ (by norm_num), zpow_sub₀ (by norm_num)]
    push_cast
    rw [show ((2 : ℝ) ^ (50 : ℤ)) = 2 ^ 50 from zpow_natCast 2 50]
    field_simp
    norm_num
  have hdm : ((ma * 2 ^ 50 : ℕ) : ℝ) = mb * (ma * 2 ^ 50 / mb : ℕ) + (ma * 2 ^ 50 % mb : ℕ) := by
    exact_mod_cast (Nat.div_add_mod (ma * 2 ^ 50) mb).symm
  have hmodlt : ((ma * 2 ^ 50 % mb : ℕ) : ℝ) < mb := by exact_mod_cast Nat.mod_lt _ hb
  have hE : (0 : ℝ) < 2 ^ (ea - eb - 51 + 1) := by positivity
  unfold divFinite
  simp only []
  refine roundPack_nearest (by unfold withSticky; omega) (operandFor_withSticky hlong (fun hr => ?_) (fun hr => ?_))
  · have h0 : ma * 2 ^ 50 % mb = 0 := by
      rw [decide_eq_false_iff_not] at hr
      omega
    rw [hscale, hdm, h0]
    push_cast
    field_simp
    ring
  · have h0 : 0 < ma * 2 ^ 50 % mb := by
      rw [decide_eq_true_iff] at hr
      omega
    have h0R : (0 : ℝ) < (ma * 2 ^ 50 % mb : ℕ) := by exact_mod_cast h0
    rw [hscale, hdm]
    generalize ((ma * 2 ^ 50 / mb : ℕ) : ℝ) = k at *
    generalize ((ma * 2 ^ 50 % mb : ℕ) : ℝ) = r at *
    constructor
    · apply mul_lt_mul_of_pos_right _ hE
      rw [lt_div_iff₀ hbR]
      linarith
    · apply mul_lt_mul_of_pos_right _ hE
      rw [div_lt_iff₀ hbR]
      linarith

/-- rootBits finds the integer square root. -/
theorem rootBits_spec {m : Nat} :
    ∀ {bits root : Nat}, root * root ≤ m → m < (root + 2 ^ bits) * (root + 2 ^ bits) →
      rootBits m bits root * rootBits m bits root ≤ m ∧
        m < (rootBits m bits root + 1) * (rootBits m bits root + 1)
  | 0, root, h1, h2 => ⟨h1, by simpa [rootBits] using h2⟩
  | k + 1, root, h1, h2 => by
    unfold rootBits
    split
    · rename_i h
      refine rootBits_spec h ?_
      have : root + 2 ^ k + 2 ^ k = root + 2 ^ (k + 1) := by ring
      rwa [this]
    · rename_i h
      exact rootBits_spec h1 (Nat.lt_of_not_le h)

/-- Everything sqrtFinite does: the exact square root of a positive finite value, rounded to nearest even. -/
theorem sqrtFinite_nearest {m : Nat} {e : Int} (hm : 0 < m) (hm24 : m < 2 ^ 24) :
    roundsToNearestEven (Real.sqrt ((m : ℝ) * 2 ^ e)) (sqrtFinite m e) := by
  obtain ⟨shift, hshift, heven, hs1, hs2⟩ : ∃ shift : Nat, (if e % 2 = 0 then 60 else 61) = shift ∧
      (e - shift) % 2 = 0 ∧ 60 ≤ shift ∧ shift ≤ 61 := by
    by_cases h : e % 2 = 0
    · exact ⟨60, by simp [h], by omega, by omega, by omega⟩
    · exact ⟨61, by simp [h], by omega, by omega, by omega⟩
  obtain ⟨h, hh⟩ : ∃ h : Int, e - shift = 2 * h := ⟨(e - shift) / 2, by omega⟩
  unfold sqrtFinite
  simp only [hshift]
  have hwide : m * 2 ^ shift < (0 + 2 ^ 43) * (0 + 2 ^ 43) := by
    calc m * 2 ^ shift ≤ m * 2 ^ 61 := by gcongr; norm_num
      _ < 2 ^ 24 * 2 ^ 61 := by gcongr
      _ ≤ (0 + 2 ^ 43) * (0 + 2 ^ 43) := by norm_num
  obtain ⟨hr1, hr2⟩ := rootBits_spec (m := m * 2 ^ shift) (bits := 43) (root := 0) (by omega) hwide
  have hbig : 2 ^ 60 ≤ m * 2 ^ shift := by
    calc 2 ^ 60 = 1 * 2 ^ 60 := by ring
      _ ≤ m * 2 ^ shift := by gcongr <;> omega
  generalize hroot : rootBits (m * 2 ^ shift) 43 0 = root at *
  generalize hw : m * 2 ^ shift = wide at *
  have hlong : 2 ^ 25 ≤ root := by
    by_contra hcon
    have : (root + 1) * (root + 1) ≤ 2 ^ 25 * 2 ^ 25 := by gcongr <;> omega
    omega
  have hvalue : Real.sqrt ((m : ℝ) * 2 ^ e) = Real.sqrt wide * 2 ^ h := by
    have h1 : (m : ℝ) * 2 ^ e = wide * (2 ^ h) ^ 2 := by
      rw [← hw, ← zpow_natCast ((2 : ℝ) ^ h), ← zpow_mul]
      push_cast
      rw [← zpow_natCast (2 : ℝ) shift, mul_assoc, ← zpow_add₀ (by norm_num)]
      congr 2
      omega
    rw [h1, Real.sqrt_mul (by positivity), Real.sqrt_sq (by positivity)]
  have hexp : (e - shift) / 2 - 1 + 1 = h := by omega
  have hrootle : (root : ℝ) ≤ Real.sqrt wide := by
    apply Real.le_sqrt_of_sq_le
    have : ((root * root : ℕ) : ℝ) ≤ wide := by exact_mod_cast hr1
    push_cast at this
    nlinarith
  have hrootlt : Real.sqrt wide < (root : ℝ) + 1 := by
    rw [Real.sqrt_lt' (by positivity)]
    have : (wide : ℝ) < (((root + 1) * (root + 1) : ℕ) : ℝ) := by exact_mod_cast hr2
    push_cast at this
    nlinarith
  have hH : (0 : ℝ) < 2 ^ h := by positivity
  have key := roundPack_nearest (s := false) (m := withSticky root (decide (root * root ≠ wide)))
    (e := (e - shift) / 2 - 1) (y := Real.sqrt ((m : ℝ) * 2 ^ e)) (by unfold withSticky; omega)
    (operandFor_withSticky hlong (fun hrest => ?_) (fun hrest => ?_))
  · simpa using key
  · have hsq : root * root = wide := by
      rw [decide_eq_false_iff_not] at hrest
      omega
    rw [hexp, hvalue, ← hsq]
    push_cast
    rw [Real.sqrt_mul_self (by positivity)]
  · rw [hexp, hvalue]
    rw [decide_eq_true_iff] at hrest
    refine ⟨?_, by gcongr⟩
    refine mul_lt_mul_of_pos_right (lt_of_le_of_ne hrootle fun heq => hrest ?_) hH
    have : ((root * root : ℕ) : ℝ) = wide := by
      push_cast
      rw [heq, Real.mul_self_sqrt (by positivity)]
    exact_mod_cast this

/-! ## Infinities, zeros and signs -/

theorem unpack_infinity (s : Bool) : unpack (ofSignMagnitude s infinityMagnitude) = .infinite s := by
  cases s <;> decide

theorem unpack_zero (s : Bool) : unpack (ofSignMagnitude s 0) = .finite s 0 (-149) := by
  cases s <;> decide

/-- Rounding keeps the sign, whatever the magnitude becomes. -/
theorem signBit_roundPack (s : Bool) (m : Nat) (e : Int) : signBit (roundPack s m e) = s := by
  refine signBit_ofSignMagnitude ?_
  split
  · norm_num
  · exact lt_of_le_of_lt (Nat.min_le_right _ _) (by rw [infinityMagnitude_eq]; norm_num)

end Sys2Proof.Machine
end

