-- ==== Sys2Proof/Laws/Controller.lean ====
section
/-! SUPPORT. What the controller's operations do: the start of a band, the end of a tone, one measured sample, the block
recursion, and the two other ticks. -/

namespace Sys2Proof.Machine

section

variable (b : Nat) (c : Calibration)

@[simp] theorem startBand_state : (startBand b c).state = c.state := rfl
@[simp] theorem startBand_band : (startBand b c).band = c.band := rfl
@[simp] theorem startBand_cnt : (startBand b c).cnt = 0 := rfl
@[simp] theorem startBand_iteration : (startBand b c).iteration = c.iteration := rfl
@[simp] theorem startBand_measured : (startBand b c).measured = c.measured := rfl
@[simp] theorem startBand_correction : (startBand b c).correction = c.correction := rfl
@[simp] theorem startBand_cumulative : (startBand b c).cumulative = c.cumulative := rfl
@[simp] theorem startBand_lastError : (startBand b c).lastError = c.lastError := rfl
@[simp] theorem startBand_tone : (startBand b c).tone = toneInit (bandFreqAt b) := rfl
@[simp] theorem startBand_det : (startBand b c).det = detInit (bandFreqAt b) analysisSamples := rfl

@[simp] theorem toneInit_n (freq : F32) : (toneInit freq).n = 0 := rfl
@[simp] theorem toneNext_n (t : Tone) : (toneNext t).2.n = t.n + 1 := rfl
@[simp] theorem detInit_k (freq : F32) (len : Nat) : (detInit freq len).k = detectorBin freq len := rfl
@[simp] theorem detInit_len (freq : F32) (len : Nat) : (detInit freq len).len = len := rfl
@[simp] theorem detUpdate_k (x : F32) (d : Detector) : (detUpdate x d).k = d.k := rfl
@[simp] theorem detUpdate_len (x : F32) (d : Detector) : (detUpdate x d).len = d.len := rfl

/-- The level of a band of the array is stored there and nowhere else (44 R247). -/
theorem storeLevel_band (b : Fin 10) (h : c.band = b.val) :
    storeLevel c = { c with measured := c.measured.set b (fAdd (detFinalize c.det) (Config.micCal b)) } := by
  have hmic : micCalAt c.band = Config.micCal b := by simp [micCalAt, h]
  have hset : ∀ v, c.measured.setIfInBounds c.band v = c.measured.set b v := fun v => by
    apply Vector.ext
    intro i hi
    simp only [h, Vector.getElem_setIfInBounds, Vector.getElem_set]
  simp only [storeLevel, hmic, hset]

/-- Everything the end of a tone can do (44 R244, R246). -/
theorem finishTone_cases :
    (c.band + 1 = numBands ∧
        finishTone c = { storeLevel c with band := c.band + 1, state := .computing }) ∨
      (c.band + 1 ≠ numBands ∧
        finishTone c = startBand (c.band + 1) { storeLevel c with band := c.band + 1 }) := by
  unfold finishTone
  by_cases h : c.band + 1 = numBands
  · exact .inl ⟨h, by simp [storeLevel, h]⟩
  · exact .inr ⟨h, by simp [storeLevel, h]⟩

/-- The counted sample before the end of a tone is looked at (44 R244). -/
def countSample (mic : F32) (c : Calibration) : Calibration :=
  { c with tone := (toneNext c.tone).2, det := if inWindow c.cnt then detUpdate mic c.det else c.det, cnt := c.cnt + 1 }

/-- Everything one measured sample can do (44 R244). -/
theorem measureSample_cases (mic : F32) :
    (c.cnt + 1 = totalSamplesPerTone ∧
        measureSample mic c = ((toneNext c.tone).1, finishTone (countSample mic c))) ∨
      (c.cnt + 1 ≠ totalSamplesPerTone ∧
        measureSample mic c = ((toneNext c.tone).1, countSample mic c)) := by
  unfold measureSample countSample
  by_cases h : c.cnt + 1 = totalSamplesPerTone <;> simp [h]

@[simp] theorem measureBlock_nil : measureBlock [] c = ([], c) := rfl

theorem measureBlock_measuring (mic : F32) (rest : List F32) (h : c.state = .measuring) :
    measureBlock (mic :: rest) c =
      ((measureSample mic c).1 :: (measureBlock rest (measureSample mic c).2).1,
        (measureBlock rest (measureSample mic c).2).2) := by
  simp [measureBlock, h]

/-- Outside Measuring the rest of the block is silence and nothing changes (44 R246). -/
theorem measureBlock_stopped (mics : List F32) (h : c.state ≠ .measuring) :
    measureBlock mics c = (silence mics.length, c) := by
  cases mics with
  | nil => rfl
  | cons mic rest => simp [measureBlock, h, silence]

/-- MeasureBlock fills the whole block (44 R244, 60_exceptions R308). -/
@[simp] theorem length_measureBlock (mics : List F32) : (measureBlock mics c).1.length = mics.length := by
  induction mics generalizing c with
  | nil => rfl
  | cons mic rest ih =>
    by_cases h : c.state = .measuring
    · simp [measureBlock_measuring _ _ _ h, ih]
    · simp [measureBlock_stopped _ _ h, silence]

/-- A block of a sweep is its first part and then the rest, wherever the tones end (44 R245, R246). -/
theorem measureBlock_append (mics rest : List F32) :
    measureBlock (mics ++ rest) c =
      ((measureBlock mics c).1 ++ (measureBlock rest (measureBlock mics c).2).1,
        (measureBlock rest (measureBlock mics c).2).2) := by
  induction mics generalizing c with
  | nil => rfl
  | cons mic mics ih =>
    by_cases h : c.state = .measuring
    · rw [List.cons_append, measureBlock_measuring _ _ _ h, measureBlock_measuring _ _ _ h, ih]
      rfl
    · rw [measureBlock_stopped _ _ h, measureBlock_stopped _ _ h, measureBlock_stopped _ _ h]
      simp only [silence, List.replicate_append_replicate, List.length_cons, List.length_append]

/-- An invariant of the calibration record that one measured sample keeps while Measuring is kept by a block. -/
theorem measureBlock_keeps {P : Calibration → Prop}
    (h : ∀ mic c, c.state = .measuring → P c → P (measureSample mic c).2) (mics : List F32) (hc : P c) :
    P (measureBlock mics c).2 := by
  induction mics generalizing c with
  | nil => exact hc
  | cons mic rest ih =>
    by_cases hm : c.state = .measuring
    · rw [measureBlock_measuring _ _ _ hm]
      exact ih _ (h mic c hm hc)
    · rwa [measureBlock_stopped _ _ hm]

/-- Everything the controller's part of ApplyTick can do (44 R249). -/
theorem advanceIteration_cases :
    (c.iteration + 1 < maxIterations ∧ advanceIteration c =
        startBand 0 { c with iteration := c.iteration + 1, band := 0, state := .measuring }) ∨
      (¬ c.iteration + 1 < maxIterations ∧ advanceIteration c = { c with state := .done }) := by
  unfold advanceIteration
  by_cases h : c.iteration + 1 < maxIterations <;> simp [h, refineEnabled]

end

/-- Everything an accepted tick can do, by the state it finds (44 R230, R234). -/
theorem tick_cases (inbuf : List F32) (s : State) :
    (s.cal.state = .measuring ∧
        tick inbuf s = ((measureBlock inbuf s.cal).1, { s with cal := (measureBlock inbuf s.cal).2 })) ∨
      (s.cal.state = .computing ∧ tick inbuf s = (silence inbuf.length, { s with cal := computeTick s.cal })) ∨
      (s.cal.state = .applying ∧ tick inbuf s = (silence inbuf.length, applyTick s)) ∨
      ((s.cal.state = .idle ∨ s.cal.state = .done ∨ s.cal.state = .error) ∧
        tick inbuf s = (silence inbuf.length, s)) := by
  unfold tick
  cases h : s.cal.state <;> simp

/-- A tick fills the whole speaker block (60_exceptions R308). -/
@[simp] theorem length_tick (inbuf : List F32) (s : State) : (tick inbuf s).1.length = inbuf.length := by
  rcases tick_cases inbuf s with ⟨-, h⟩ | ⟨-, h⟩ | ⟨-, h⟩ | ⟨-, h⟩ <;> simp [h, silence]

section

variable (inbuf : List F32) (s : State)

/-- A tick itself touches neither the registers nor the memory; its output is stored after it (44 R234). -/
@[simp] theorem tick_regs : (tick inbuf s).2.regs = s.regs := by
  rcases tick_cases inbuf s with ⟨-, h⟩ | ⟨-, h⟩ | ⟨-, h⟩ | ⟨-, h⟩ <;> simp [h, applyTick]

@[simp] theorem tick_sram : (tick inbuf s).2.sram = s.sram := by
  rcases tick_cases inbuf s with ⟨-, h⟩ | ⟨-, h⟩ | ⟨-, h⟩ | ⟨-, h⟩ <;> simp [h, applyTick]

@[simp] theorem tick_pending : (tick inbuf s).2.pending = s.pending := by
  rcases tick_cases inbuf s with ⟨-, h⟩ | ⟨-, h⟩ | ⟨-, h⟩ | ⟨-, h⟩ <;> simp [h, applyTick]

@[simp] theorem tick_response : (tick inbuf s).2.response = s.response := by
  rcases tick_cases inbuf s with ⟨-, h⟩ | ⟨-, h⟩ | ⟨-, h⟩ | ⟨-, h⟩ <;> simp [h, applyTick]

end

end Sys2Proof.Machine
end

