-- ==== Sys2Proof/Laws/PerInstr.lean ====
section
/-! SUPPORT. Facts about every command as syntax, one lemma per constructor. -/

namespace Sys2Proof.Laws.EncodeFits

/-- The word of a well-formed command holds the opcode in w[7:0] and the operand field above it, and nothing else
(30_encoding R102 to R104). -/
def Statement (i : Instr) : Prop :=
  i.wellFormed = true → (encode i).toNat = i.opcode + 256 * i.operandField

/-- A command whose opcode and operand field fit below 2^32 has the statement. -/
theorem of_bounds {i : Instr} (h : i.wellFormed = true → i.opcode + 256 * i.operandField < 2 ^ 32) : Statement i := by
  intro hw
  unfold encode
  rw [BitVec.toNat_ofNat]
  exact Nat.mod_eq_of_lt (h hw)

theorem fdDesign : Statement .fdDesign := of_bounds fun _ => by decide

theorem eqInit : Statement .eqInit := of_bounds fun _ => by decide

theorem eqSetBandGain (band : Nat) : Statement (.eqSetBandGain band) := of_bounds fun h => by
  have := of_decide_eq_true h
  simp only [Instr.opcode, Instr.operandField]
  omega

theorem eqSetAllGains : Statement .eqSetAllGains := of_bounds fun _ => by decide

theorem eqProcessBlock (n : Nat) : Statement (.eqProcessBlock n) := of_bounds fun h => by
  have := of_decide_eq_true h
  simp only [Instr.opcode, Instr.operandField]
  omega

theorem eqGetCoefficients : Statement .eqGetCoefficients := of_bounds fun _ => by decide

theorem eqSetCoefficients : Statement .eqSetCoefficients := of_bounds fun _ => by decide

theorem eqReset : Statement .eqReset := of_bounds fun _ => by decide

theorem eqGetBandFrequency (band : Nat) : Statement (.eqGetBandFrequency band) := of_bounds fun h => by
  have := of_decide_eq_true h
  simp only [Instr.opcode, Instr.operandField]
  omega

theorem ctrlInit : Statement .ctrlInit := of_bounds fun _ => by decide

theorem ctrlStart : Statement .ctrlStart := of_bounds fun _ => by decide

theorem ctrlProcessBlock (n : Nat) : Statement (.ctrlProcessBlock n) := of_bounds fun h => by
  have := of_decide_eq_true h
  simp only [Instr.opcode, Instr.operandField]
  omega

theorem ctrlGetState : Statement .ctrlGetState := of_bounds fun _ => by decide

theorem ctrlGetCurrentBand : Statement .ctrlGetCurrentBand := of_bounds fun _ => by decide

theorem ctrlGetProgress : Statement .ctrlGetProgress := of_bounds fun _ => by decide

theorem ctrlGetCorrectionGains : Statement .ctrlGetCorrectionGains := of_bounds fun _ => by decide

theorem ctrlGetMeasuredLevels : Statement .ctrlGetMeasuredLevels := of_bounds fun _ => by decide

theorem ctrlStop : Statement .ctrlStop := of_bounds fun _ => by decide

theorem ctrlApplyGains : Statement .ctrlApplyGains := of_bounds fun _ => by decide

theorem ctrlGetLastError : Statement .ctrlGetLastError := of_bounds fun _ => by decide

theorem ctrlGetCpuUsage : Statement .ctrlGetCpuUsage := of_bounds fun _ => by decide

end Sys2Proof.Laws.EncodeFits
end

