-- ==== Sys2Proof/Laws/Decode.lean ====
section
/-! SUPPORT. The fields of a command word, and of the word the encoder writes (30_encoding R100 to R106). -/

namespace Sys2Proof

/-- The fields the decoder reads, as parts of the word (30_encoding R100). -/
theorem field_word (w : Word) :
    field 7 0 w = w.toNat % 256 ∧ field 31 8 w = w.toNat / 256 ∧ field 31 12 w = w.toNat / 4096 ∧
      field 31 24 w = w.toNat / 16777216 ∧ field 11 8 w = w.toNat / 256 % 16 ∧ field 23 8 w = w.toNat / 256 % 65536 := by
  have hw := w.isLt
  unfold field
  omega

theorem opcode_lt (i : Instr) : i.opcode < 256 := by cases i <;> simp [Instr.opcode]

/-- The word of a well-formed command, as a number (30_encoding R102 to R104). -/
theorem encode_toNat {i : Instr} (h : i.wellFormed = true) : (encode i).toNat = i.opcode + 256 * i.operandField := by
  refine Laws.EncodeFits.of_bounds (i := i) (fun h => ?_) h
  have ho := opcode_lt i
  have hf : i.operandField < 65536 := by
    cases i <;> simp only [Instr.operandField] <;> first | omega | (have := of_decide_eq_true h; omega)
  omega

/-- The fields of the word the encoder writes. -/
theorem field_encode {i : Instr} (h : i.wellFormed = true) :
    field 7 0 (encode i) = i.opcode ∧ field 31 8 (encode i) = i.operandField ∧
      field 31 12 (encode i) = i.operandField / 16 ∧ field 31 24 (encode i) = i.operandField / 65536 ∧
      field 11 8 (encode i) = i.operandField % 16 ∧ field 23 8 (encode i) = i.operandField % 65536 := by
  have hw := field_word (encode i)
  have hi := opcode_lt i
  rw [encode_toNat h] at hw
  omega

end Sys2Proof
end

