-- ==== Sys2Proof/Laws/Equalizer.lean ====
section
/-! SUPPORT. What the equalizer's operations do: each setter on each part of the equalizer, the delay lines of a cascade
sample section by section, and the block recursion. -/

namespace Sys2Proof.Machine

section

variable (b : Fin 10) (g q : F32) (gains : Vector F32 10) (arr : Vector F32 50) (e : Equalizer)

@[simp] theorem setBand_initialized : (setBand b g q e).initialized = e.initialized := rfl
@[simp] theorem setBand_delay : (setBand b g q e).delay = e.delay := rfl
@[simp] theorem setBand_coef :
    (setBand b g q e).coef = e.coef.set b (designBand b (clampGain g) (clampQ q)) := rfl
@[simp] theorem setBand_bands :
    (setBand b g q e).bands = e.bands.set b { gain := clampGain g, q := clampQ q, isOpaque := false } := rfl

@[simp] theorem setAllBands_initialized : (setAllBands gains q e).initialized = e.initialized := rfl
@[simp] theorem setAllBands_delay : (setAllBands gains q e).delay = e.delay := rfl
@[simp] theorem setAllBands_coef :
    (setAllBands gains q e).coef = Vector.ofFn fun b => designBand b (clampGain gains[b]) (clampQ q) := rfl
@[simp] theorem setAllBands_bands :
    (setAllBands gains q e).bands =
      Vector.ofFn fun b => { gain := clampGain gains[b], q := clampQ q, isOpaque := false } := rfl

@[simp] theorem loadCoefficients_initialized : (loadCoefficients arr e).initialized = e.initialized := rfl
@[simp] theorem loadCoefficients_delay : (loadCoefficients arr e).delay = e.delay := rfl
@[simp] theorem loadCoefficients_coef :
    (loadCoefficients arr e).coef = Vector.ofFn fun b => coefficientsAt arr b := rfl
@[simp] theorem loadCoefficients_bands :
    (loadCoefficients arr e).bands = e.bands.map fun r => { r with isOpaque := true } := rfl

/-- Everything SetAllGainsCore can do (44 R252). -/
theorem setAllGainsCore_cases :
    (e.initialized = true ∧ setAllGainsCore gains q e = (setAllBands gains q e, true)) ∨
      (e.initialized = false ∧ setAllGainsCore gains q e = (e, false)) := by
  unfold setAllGainsCore
  cases h : e.initialized <;> simp

end

/-! ## The section and the cascade -/

section

variable (c : Coefficients) (d : DelayLine) (x : F32)

/-- A section remembers its input and its output (41 R152). -/
@[simp] theorem sectionStep_x1 : (sectionStep c d x).2.x1 = x := rfl
@[simp] theorem sectionStep_x2 : (sectionStep c d x).2.x2 = d.x1 := rfl
@[simp] theorem sectionStep_y1 : (sectionStep c d x).2.y1 = (sectionStep c d x).1 := rfl
@[simp] theorem sectionStep_y2 : (sectionStep c d x).2.y2 = d.y1 := rfl

end

variable (coef : Vector Coefficients 10) (delay : Vector DelayLine 10)

/-- What reaches section b of the cascade when `x` enters it (41 R151, R153). -/
def cascadeInput (x : F32) : Nat → F32
  | 0 => x
  | b + 1 =>
    if h : b < 10 then (sectionStep coef[b] delay[b] (cascadeInput x b)).1 else cascadeInput x b

/-- The cascade after its first k sections: its value is the input of section k, the delay lines below k have moved and the
others have not. -/
theorem cascadePrefix (x : F32) :
    ∀ k (hk : k ≤ 10),
      let r := ((List.finRange 10).take k).foldl (cascadeSection coef) (x, delay)
      r.1 = cascadeInput coef delay x k ∧
        ∀ b (hb : b < 10), r.2[b] =
          if b < k then (sectionStep coef[b] delay[b] (cascadeInput coef delay x b)).2 else delay[b] := by
  intro k
  induction k with
  | zero => intro _; simp [cascadeInput]
  | succ k ih =>
    intro hk
    have hk' : k < (List.finRange 10).length := by simp; omega
    obtain ⟨h1, h2⟩ := ih (by omega)
    simp only [List.take_succ_eq_append_getElem hk', List.foldl_append, List.foldl_cons, List.foldl_nil,
      List.getElem_finRange] at *
    have hkk := h2 k (by omega)
    simp only [Nat.lt_irrefl, if_false] at hkk
    refine ⟨?_, fun b hb => ?_⟩
    · simp only [cascadeSection, cascadeInput, dif_pos (show k < 10 by omega)]
      simp [h1, hkk]
    · simp only [cascadeSection]
      have hkk' := hkk
      simp only [Fin.getElem_fin, Fin.val_cast, Vector.getElem_set]
      by_cases hbk : k = b
      · subst hbk
        simp [h1, hkk]
      · rw [if_neg hbk, h2 b hb]
        simp [show b < k + 1 ↔ b < k by omega]

/-- The output of CascadeSample is what leaves section 9 (41 R153). -/
theorem cascadeSample_output (x : F32) : (cascadeSample coef delay x).1 = cascadeInput coef delay x 10 := by
  have h := (cascadePrefix coef delay x 10 (Nat.le_refl _)).1
  rwa [List.take_of_length_le (by simp)] at h

/-- Every delay line after CascadeSample (41 R152, R153). -/
theorem cascadeSample_delay (x : F32) (b : Nat) (hb : b < 10) :
    (cascadeSample coef delay x).2[b] = (sectionStep coef[b] delay[b] (cascadeInput coef delay x b)).2 := by
  have h := (cascadePrefix coef delay x 10 (Nat.le_refl _)).2 b hb
  rwa [List.take_of_length_le (by simp), if_pos hb] at h

@[simp] theorem cascadeBlock_nil : cascadeBlock coef delay [] = ([], delay) := rfl

theorem cascadeBlock_cons (x : F32) (rest : List F32) :
    cascadeBlock coef delay (x :: rest) =
      ((cascadeSample coef delay x).1 :: (cascadeBlock coef (cascadeSample coef delay x).2 rest).1,
        (cascadeBlock coef (cascadeSample coef delay x).2 rest).2) := rfl

@[simp] theorem length_cascadeBlock (inbuf : List F32) : (cascadeBlock coef delay inbuf).1.length = inbuf.length := by
  induction inbuf generalizing delay with
  | nil => rfl
  | cons x rest ih => simp [cascadeBlock_cons, ih]

/-- Everything EQ_PROCESS_BLOCK's filter can do (41 R158, R159). -/
theorem filterBlock_cases (e : Equalizer) (inbuf : List F32) :
    (e.initialized = true ∧ filterBlock e inbuf =
        ((cascadeBlock e.coef e.delay inbuf).1, { e with delay := (cascadeBlock e.coef e.delay inbuf).2 })) ∨
      (e.initialized = false ∧ filterBlock e inbuf = (inbuf, e)) := by
  unfold filterBlock
  cases h : e.initialized <;> simp

@[simp] theorem length_filterBlock (e : Equalizer) (inbuf : List F32) : (filterBlock e inbuf).1.length = inbuf.length := by
  rcases filterBlock_cases e inbuf with ⟨-, h⟩ | ⟨-, h⟩ <;> simp [h]

end Sys2Proof.Machine
end

