-- ==== Sys2Proof/Laws/State.lean ====
section
/-! SUPPORT. What each shared operation of Machine/Ops.lean does to each part of the state, true by unfolding it once. -/

namespace Sys2Proof.Machine

section

variable (s : State) (w : Word) (v : F32) (i : Int) (code : ErrorCode) (arr : Vector F32 10) (outbuf : List F32)

@[simp] theorem setStatus_regs : (setStatus w s).regs = { s.regs with status := w } := rfl
@[simp] theorem setStatus_eq : (setStatus w s).eq = s.eq := rfl
@[simp] theorem setStatus_cal : (setStatus w s).cal = s.cal := rfl
@[simp] theorem setStatus_sram : (setStatus w s).sram = s.sram := rfl
@[simp] theorem setStatus_pending : (setStatus w s).pending = s.pending := rfl
@[simp] theorem setStatus_response : (setStatus w s).response = s.response := rfl

@[simp] theorem setLastError_regs : (setLastError code s).regs = s.regs := rfl
@[simp] theorem setLastError_eq : (setLastError code s).eq = s.eq := rfl
@[simp] theorem setLastError_cal : (setLastError code s).cal = { s.cal with lastError := code } := rfl
@[simp] theorem setLastError_sram : (setLastError code s).sram = s.sram := rfl
@[simp] theorem setLastError_pending : (setLastError code s).pending = s.pending := rfl
@[simp] theorem setLastError_response : (setLastError code s).response = s.response := rfl

@[simp] theorem setResultF_regs : (setResultF v s).regs = { s.regs with resultF := v } := rfl
@[simp] theorem setResultF_eq : (setResultF v s).eq = s.eq := rfl
@[simp] theorem setResultF_cal : (setResultF v s).cal = s.cal := rfl
@[simp] theorem setResultF_sram : (setResultF v s).sram = s.sram := rfl
@[simp] theorem setResultF_pending : (setResultF v s).pending = s.pending := rfl
@[simp] theorem setResultF_response : (setResultF v s).response = s.response := rfl

@[simp] theorem setResultI_regs : (setResultI i s).regs = { s.regs with resultI := BitVec.ofInt 32 i } := rfl
@[simp] theorem setResultI_eq : (setResultI i s).eq = s.eq := rfl
@[simp] theorem setResultI_cal : (setResultI i s).cal = s.cal := rfl
@[simp] theorem setResultI_sram : (setResultI i s).sram = s.sram := rfl
@[simp] theorem setResultI_pending : (setResultI i s).pending = s.pending := rfl
@[simp] theorem setResultI_response : (setResultI i s).response = s.response := rfl

@[simp] theorem setResultArr_regs : (setResultArr arr s).regs = { s.regs with resultArr := arr } := rfl
@[simp] theorem setResultArr_eq : (setResultArr arr s).eq = s.eq := rfl
@[simp] theorem setResultArr_cal : (setResultArr arr s).cal = s.cal := rfl
@[simp] theorem setResultArr_sram : (setResultArr arr s).sram = s.sram := rfl
@[simp] theorem setResultArr_pending : (setResultArr arr s).pending = s.pending := rfl
@[simp] theorem setResultArr_response : (setResultArr arr s).response = s.response := rfl

@[simp] theorem storeOutput_regs : (storeOutput outbuf s).regs = s.regs := rfl
@[simp] theorem storeOutput_eq : (storeOutput outbuf s).eq = s.eq := rfl
@[simp] theorem storeOutput_cal : (storeOutput outbuf s).cal = s.cal := rfl
@[simp] theorem storeOutput_sram : (storeOutput outbuf s).sram = writeBlock s.sram (bufferBase s.regs.argOut) outbuf := rfl
@[simp] theorem storeOutput_pending : (storeOutput outbuf s).pending = s.pending := rfl
@[simp] theorem storeOutput_response : (storeOutput outbuf s).response = s.response := rfl

@[simp] theorem complete_eq : complete s = setStatus statusOk s := rfl

@[simp] theorem rejectWord_eq : rejectWord s = setStatus statusIllegal s := rfl

@[simp] theorem failWith_none : failWith none s = setStatus statusFailed s := rfl

@[simp] theorem failWith_some : failWith (some code) s = setStatus statusFailed (setLastError code s) := rfl

end

/-! The four STATUS words (10_state R34). -/

@[simp] theorem statusOk_eq : statusOk = 1#32 := rfl

@[simp] theorem statusFailed_eq : statusFailed = 0#32 := rfl

@[simp] theorem statusNull_eq : statusNull = 2#32 := rfl

@[simp] theorem statusIllegal_eq : statusIllegal = 4#32 := rfl

@[simp] theorem statusOf_true : statusOf true = 1#32 := rfl

@[simp] theorem statusOf_false : statusOf false = 0#32 := rfl

/-- The range check of the process commands, on unbounded integers (20_memory R77). -/
theorem buffersInRam_iff {s : State} {n : Nat} :
    buffersInRam s n = true ↔
      s.regs.argIn.toNat + n ≤ sampleRamWords ∧ s.regs.argOut.toNat + n ≤ sampleRamWords := by
  unfold buffersInRam blockInRam bufferBase
  rw [Bool.and_eq_true, decide_eq_true_iff, decide_eq_true_iff]

@[simp] theorem length_inputBlock (s : State) (n : Nat) : (inputBlock s n).length = n := by
  simp [inputBlock, readBlock]

/-- SAMPLE_RAM_WORDS is at least 1 and at most 1073740800, so the window ends within a 32-bit address (20_memory R71). -/
theorem sampleRamWords_bounds : 1 ≤ sampleRamWords ∧ sampleRamWords ≤ 1073740800 := by
  unfold sampleRamWords
  omega

end Sys2Proof.Machine
end

