-- ==== Sys2Proof/Laws/HostPort.lean ====
section
/-! SUPPORT. What the host port does: where each register, each sample and each reserved offset of the address map lies, and
what a write can reach. -/

namespace Sys2Proof.Machine

/-! ## The address map -/

theorem registerAt_gainArr : ∀ i : Fin 10, registerAt (0x040 + 4 * i.val) = some (.gainArr i) := by decide

theorem registerAt_resultArr : ∀ i : Fin 10, registerAt (0x080 + 4 * i.val) = some (.resultArr i) := by decide

theorem registerAt_designOut : ∀ j : Fin 5, registerAt (0x0C0 + 4 * j.val) = some (.designOut j) := by decide

theorem registerAt_coefArr : ∀ m : Fin 50, registerAt (0x100 + 4 * m.val) = some (.coefArr m) := by decide

/-- Below the sample-RAM window an address is a register or reserved (20_memory R70, R74). -/
theorem locate_register {o : Nat} (h : o < 0x1000) :
    locate (BitVec.ofNat 32 o) =
      match registerAt o with
      | some r => .register r
      | none => .reserved := by
  have hn : (BitVec.ofNat 32 o).toNat = o := by
    rw [BitVec.toNat_ofNat, Nat.mod_eq_of_lt]
    omega
  exact (if_pos (hn.symm ▸ h)).trans
    (congrArg (fun a =>
      match registerAt a with
      | some r => Location.register r
      | none => .reserved) hn)

/-- The byte offset of SRAM[i] (20_memory R71). -/
theorem locate_sample {i : Nat} (h : i < sampleRamWords) : locate (BitVec.ofNat 32 (0x1000 + 4 * i)) = .sample i := by
  have hb := sampleRamWords_bounds
  have hn : (BitVec.ofNat 32 (0x1000 + 4 * i)).toNat = 0x1000 + 4 * i := by
    rw [BitVec.toNat_ofNat, Nat.mod_eq_of_lt]
    omega
  unfold locate
  simp only [hn]
  rw [if_neg (by omega), show (0x1000 + 4 * i - 0x1000) / 4 = i by omega, if_pos h]

/-- The reserved offsets above the window (20_memory R74). -/
theorem locate_above {o : Nat} (h : 0x1000 + 4 * sampleRamWords ≤ o) (ho : o < 2 ^ 32) :
    locate (BitVec.ofNat 32 o) = .reserved := by
  have hn : (BitVec.ofNat 32 o).toNat = o := by rw [BitVec.toNat_ofNat, Nat.mod_eq_of_lt ho]
  unfold locate
  simp only [hn]
  rw [if_neg (by omega), if_neg]
  omega

/-- A located sample lies in the sample RAM (20_memory R71). -/
theorem locate_sample_lt {addr : Word} {i : Nat} (h : locate addr = .sample i) : i < sampleRamWords := by
  unfold locate at h
  dsimp only at h
  split at h
  · split at h <;> cases h
  · split at h
    · cases h
      assumption
    · cases h

theorem ite_ne_of {α : Type} {p : Prop} [Decidable p] {a b c : α} (ha : a ≠ c) (hb : b ≠ c) : (if p then a else b) ≠ c := by
  split <;> assumption

theorem dite_ne_of {α : Type} {p : Prop} [Decidable p] {a : p → α} {b : ¬p → α} {c : α} (ha : ∀ h, a h ≠ c)
    (hb : ∀ h, b h ≠ c) : dite p a b ≠ c := by
  split
  · exact ha _
  · exact hb _

/-- A register offset other than 0x000 is not CMD (10_state R32). -/
theorem registerAt_ne_cmd {o : Nat} (h : o ≠ 0) : registerAt o ≠ some .cmd := by
  unfold registerAt
  rw [if_neg h]
  repeat' first
    | exact ite_ne_of (by simp) ?_
    | refine ite_ne_of (by simp) ?_
    | refine dite_ne_of (fun _ => by simp) fun _ => ?_
  simp

/-- CMD has one address (10_state R32). -/
theorem eq_zero_of_locate_cmd {addr : Word} (h : locate addr = .register .cmd) : addr = 0 := by
  unfold locate at h
  dsimp only at h
  split at h
  · by_contra hne
    refine registerAt_ne_cmd (o := addr.toNat) (fun h0 => hne (BitVec.eq_of_toNat_eq h0)) ?_
    split at h
    · rename_i hr
      cases h
      exact hr
    · cases h
  · split at h <;> cases h

theorem locate_cmd : locate cmdOffset = .register .cmd := by decide

theorem accessAligned_cmd : accessAligned cmdOffset .word = true := by decide

/-! ## Writes -/

section

variable (l : Location) (w : Word) (s : State)

/-- A write of a register or a sample reaches neither the equalizer, the controller nor STATUS (20_memory R79). -/
@[simp] theorem writeLocation_eq : (writeLocation l w s).eq = s.eq := by
  cases l with
  | register r => cases r <;> rfl
  | sample i => rfl
  | reserved => rfl

@[simp] theorem writeLocation_cal : (writeLocation l w s).cal = s.cal := by
  cases l with
  | register r => cases r <;> rfl
  | sample i => rfl
  | reserved => rfl

@[simp] theorem writeLocation_status : (writeLocation l w s).regs.status = s.regs.status := by
  cases l with
  | register r => cases r <;> rfl
  | sample i => rfl
  | reserved => rfl

/-- Only a write of a sample reaches the sample RAM (20_memory R71, R79). -/
theorem writeLocation_sram_cases :
    (∃ i, l = .sample i ∧ (writeLocation l w s).sram = writeSram s.sram i w) ∨ (writeLocation l w s).sram = s.sram := by
  cases l with
  | register r => exact .inr (by cases r <;> rfl)
  | sample i => exact .inl ⟨i, rfl, rfl⟩
  | reserved => exact .inr rfl

end

end Sys2Proof.Machine
end

