-- ==== Sys2Proof/Laws/Memory.lean ====
section
/-! SUPPORT. The laws of the sample RAM: what a read gives after a write, that every write keeps the canonical form, and that
every write keeps the cells inside a window. -/

namespace Sys2Proof.Machine

theorem memoryWf_cons {k : Nat} {v : Byte} {m : Memory} :
    memoryWf ((k, v) :: m) = true ↔ v ≠ unlistedByte ∧ (∀ c ∈ m, k < c.1) ∧ memoryWf m = true := by
  simp [memoryWf, List.all_eq_true, and_assoc]

/-- An address below every cell reads as an unlisted byte. -/
theorem readByte_below {m : Memory} {a : Nat} (h : ∀ c ∈ m, a < c.1) : readByte m a = unlistedByte := by
  induction m with
  | nil => rfl
  | cons c m ih =>
    have hc := h c (by simp)
    simp only [readByte, if_neg (Nat.ne_of_gt hc)]
    exact ih fun d hd => h d (by simp [hd])

/-- A write leaves every other address alone, whatever the form of the memory. -/
theorem readByte_writeByte_ne {m : Memory} {a b : Nat} {v : Byte} (h : b ≠ a) :
    readByte (writeByte m a v) b = readByte m b := by
  have h' : a ≠ b := fun e => h e.symm
  induction m with
  | nil => unfold writeByte; split <;> simp [readByte, h']
  | cons c m ih =>
    obtain ⟨k, w⟩ := c
    unfold writeByte
    split
    · split <;> simp [readByte, h']
    · split
      · rename_i hk
        subst hk
        split <;> simp [readByte, h']
      · simp [readByte, ih]

/-- A read gives the byte written last, in a memory of canonical form. -/
theorem readByte_writeByte_self {m : Memory} {a : Nat} {v : Byte} (h : memoryWf m = true) :
    readByte (writeByte m a v) a = v := by
  induction m with
  | nil => unfold writeByte; split <;> simp_all [readByte]
  | cons c m ih =>
    obtain ⟨k, w⟩ := c
    obtain ⟨-, hlt, hm⟩ := memoryWf_cons.mp h
    unfold writeByte
    split
    · rename_i hak
      split
      · rename_i hv
        rw [hv]
        exact readByte_below fun d hd => by
          rcases List.mem_cons.mp hd with rfl | hd
          · exact hak
          · exact Nat.lt_trans hak (hlt d hd)
      · simp [readByte]
    · split
      · rename_i hk
        subst hk
        split
        · rename_i hv
          rw [hv]
          exact readByte_below hlt
        · simp [readByte]
      · rename_i hk
        simp [readByte, Ne.symm hk, ih hm]

/-- A cell of the memory after a write is an old one or the one written. -/
theorem mem_writeByte {m : Memory} {a : Nat} {v : Byte} {c : Host.Cell} (h : c ∈ writeByte m a v) :
    c ∈ m ∨ c.1 = a := by
  induction m with
  | nil =>
    unfold writeByte at h
    split at h
    · simp at h
    · exact .inr (by rw [List.mem_singleton.mp h])
  | cons d m ih =>
    obtain ⟨k, w⟩ := d
    unfold writeByte at h
    split at h
    · split at h
      · exact .inl h
      · rcases List.mem_cons.mp h with rfl | h
        · exact .inr rfl
        · exact .inl h
    · split at h
      · split at h
        · exact .inl (List.mem_cons_of_mem _ h)
        · rcases List.mem_cons.mp h with rfl | h
          · exact .inr rfl
          · exact .inl (List.mem_cons_of_mem _ h)
      · rcases List.mem_cons.mp h with rfl | h
        · exact .inl (by simp)
        · exact (ih h).imp (List.mem_cons_of_mem _) id

/-- A write keeps the canonical form. -/
theorem memoryWf_writeByte {m : Memory} {a : Nat} {v : Byte} (h : memoryWf m = true) :
    memoryWf (writeByte m a v) = true := by
  induction m with
  | nil =>
    unfold writeByte
    split
    · rfl
    · rename_i hv
      exact memoryWf_cons.mpr ⟨hv, by simp, rfl⟩
  | cons c m ih =>
    obtain ⟨k, w⟩ := c
    obtain ⟨hw, hlt, hm⟩ := memoryWf_cons.mp h
    unfold writeByte
    split
    · rename_i hak
      split
      · exact h
      · rename_i hv
        refine memoryWf_cons.mpr ⟨hv, fun d hd => ?_, h⟩
        rcases List.mem_cons.mp hd with rfl | hd
        · exact hak
        · exact Nat.lt_trans hak (hlt d hd)
    · rename_i hnlt
      split
      · rename_i hk
        subst hk
        split
        · exact hm
        · rename_i hv
          exact memoryWf_cons.mpr ⟨hv, hlt, hm⟩
      · rename_i hk
        refine memoryWf_cons.mpr ⟨hw, fun d hd => ?_, ih hm⟩
        rcases mem_writeByte hd with hd | hd
        · exact hlt d hd
        · omega

/-! ## Words -/

/-- A word write leaves every byte outside its four alone. -/
theorem readByte_writeWord_ne {m : Memory} {a b : Nat} {w : Word} (h : b < a ∨ a + 4 ≤ b) :
    readByte (writeWord m a w) b = readByte m b := by
  unfold writeWord
  rw [readByte_writeByte_ne (by omega), readByte_writeByte_ne (by omega), readByte_writeByte_ne (by omega),
    readByte_writeByte_ne (by omega)]

theorem memoryWf_writeWord {m : Memory} {a : Nat} {w : Word} (h : memoryWf m = true) :
    memoryWf (writeWord m a w) = true :=
  memoryWf_writeByte (memoryWf_writeByte (memoryWf_writeByte (memoryWf_writeByte h)))

theorem mem_writeWord {m : Memory} {a : Nat} {w : Word} {c : Host.Cell} (h : c ∈ writeWord m a w) :
    c ∈ m ∨ (a ≤ c.1 ∧ c.1 < a + 4) := by
  unfold writeWord at h
  rcases mem_writeByte h with h | h
  · rcases mem_writeByte h with h | h
    · rcases mem_writeByte h with h | h
      · rcases mem_writeByte h with h | h
        · exact .inl h
        · exact .inr (by omega)
      · exact .inr (by omega)
    · exact .inr (by omega)
  · exact .inr (by omega)

/-- The four bytes of a word put together again. -/
theorem word_of_bytes (w : Word) :
    w.extractLsb' 24 8 ++ w.extractLsb' 16 8 ++ w.extractLsb' 8 8 ++ w.extractLsb' 0 8 = w := by
  apply BitVec.eq_of_getLsbD_eq
  intro i hi
  simp only [BitVec.getLsbD_append, BitVec.getLsbD_extractLsb']
  by_cases h1 : i < 8
  · simp [h1]
  by_cases h2 : i < 16
  · simp [h1, show i - 8 < 8 by omega, show 8 + (i - 8) = i by omega]
  by_cases h3 : i < 24
  · simp [h1, show ¬ i - 8 < 8 by omega, show i - 8 - 8 < 8 by omega, show 16 + (i - 8 - 8) = i by omega]
  · simp [h1, show ¬ i - 8 < 8 by omega, show ¬ i - 8 - 8 < 8 by omega, show i - 8 - 8 - 8 < 8 by omega,
      show 24 + (i - 8 - 8 - 8) = i by omega]

/-- A word read gives the word written last at its address, in a memory of canonical form. -/
theorem readWord_writeWord_self {m : Memory} {a : Nat} {w : Word} (h : memoryWf m = true) :
    readWord (writeWord m a w) a = w := by
  have h0 := memoryWf_writeByte (a := a) (v := w.extractLsb' 0 8) h
  have h1 := memoryWf_writeByte (a := a + 1) (v := w.extractLsb' 8 8) h0
  have h2 := memoryWf_writeByte (a := a + 2) (v := w.extractLsb' 16 8) h1
  unfold readWord writeWord
  rw [readByte_writeByte_self h2,
    readByte_writeByte_ne (b := a + 2) (by omega), readByte_writeByte_self h1,
    readByte_writeByte_ne (b := a + 1) (by omega), readByte_writeByte_ne (b := a + 1) (by omega),
    readByte_writeByte_self h0,
    readByte_writeByte_ne (b := a) (by omega), readByte_writeByte_ne (b := a) (by omega),
    readByte_writeByte_ne (b := a) (by omega), readByte_writeByte_self h]
  exact word_of_bytes w

/-- Two memories that agree on the four bytes of a word agree on the word. -/
theorem readWord_congr {m m' : Memory} {a : Nat} (h : ∀ b, a ≤ b → b < a + 4 → readByte m b = readByte m' b) :
    readWord m a = readWord m' a := by
  unfold readWord
  rw [h a (by omega) (by omega), h (a + 1) (by omega) (by omega), h (a + 2) (by omega) (by omega),
    h (a + 3) (by omega) (by omega)]

/-! ## Samples and blocks -/

theorem readSram_writeSram_self {m : Memory} {i : Nat} {v : F32} (h : memoryWf m = true) :
    readSram (writeSram m i v) i = v :=
  readWord_writeWord_self h

theorem readSram_writeSram_ne {m : Memory} {i j : Nat} {v : F32} (h : j ≠ i) :
    readSram (writeSram m i v) j = readSram m j :=
  readWord_congr fun b hb hb' => readByte_writeWord_ne (by unfold sramAddress at *; omega)

theorem memoryWf_writeSram {m : Memory} {i : Nat} {v : F32} (h : memoryWf m = true) :
    memoryWf (writeSram m i v) = true :=
  memoryWf_writeWord h

theorem memoryWf_writeBlock {vs : List F32} {m : Memory} {base : Nat} (h : memoryWf m = true) :
    memoryWf (writeBlock m base vs) = true := by
  induction vs generalizing m base with
  | nil => exact h
  | cons v vs ih => exact ih (memoryWf_writeSram h)

/-- A block write leaves every byte outside its words alone. -/
theorem readByte_writeBlock_ne {vs : List F32} {m : Memory} {base b : Nat}
    (h : b < sramAddress base ∨ sramAddress (base + vs.length) ≤ b) :
    readByte (writeBlock m base vs) b = readByte m b := by
  induction vs generalizing m base with
  | nil => rfl
  | cons v vs ih =>
    simp only [List.length_cons, sramAddress] at h
    rw [writeBlock, ih (by simp only [sramAddress]; omega), writeSram, readByte_writeWord_ne
      (by simp only [sramAddress]; omega)]

theorem readSram_writeBlock_ne {vs : List F32} {m : Memory} {base j : Nat} (h : j < base ∨ base + vs.length ≤ j) :
    readSram (writeBlock m base vs) j = readSram m j :=
  readWord_congr fun b hb hb' => readByte_writeBlock_ne (by unfold sramAddress at *; omega)

/-- The words of a written block, in a memory of canonical form. -/
theorem readSram_writeBlock {vs : List F32} {m : Memory} {base i : Nat} (h : memoryWf m = true) (hi : i < vs.length) :
    readSram (writeBlock m base vs) (base + i) = vs[i] := by
  induction vs generalizing m base i with
  | nil => simp at hi
  | cons v vs ih =>
    rw [writeBlock]
    cases i with
    | zero =>
      rw [readSram_writeBlock_ne (by omega)]
      exact readSram_writeSram_self h
    | succ i =>
      have := ih (m := writeSram m base v) (base := base + 1) (i := i) (memoryWf_writeSram h) (by simpa using hi)
      rw [show base + (i + 1) = base + 1 + i by omega, this]
      rfl

theorem mem_writeBlock {vs : List F32} {m : Memory} {base : Nat} {c : Host.Cell} (h : c ∈ writeBlock m base vs) :
    c ∈ m ∨ (sramAddress base ≤ c.1 ∧ c.1 < sramAddress (base + vs.length)) := by
  induction vs generalizing m base with
  | nil => exact .inl h
  | cons v vs ih =>
    rcases ih h with h | h
    · rcases mem_writeWord h with h | h
      · exact .inl h
      · exact .inr (by simp only [List.length_cons, sramAddress] at *; omega)
    · exact .inr (by simp only [List.length_cons, sramAddress] at *; omega)

@[simp] theorem length_readBlock (m : Memory) (base n : Nat) : (readBlock m base n).length = n := by
  simp [readBlock]

theorem getElem_readBlock {m : Memory} {base n i : Nat} (h : i < (readBlock m base n).length) :
    (readBlock m base n)[i] = readSram m (base + i) := by
  simp [readBlock]

end Sys2Proof.Machine
end

