-- ==== Sys2Proof/Laws/Step.lean ====
section
/-! SUPPORT. Everything a step and a command can do to each part of the state. -/

namespace Sys2Proof.Machine

/-- Everything a step that answers a next state can do: nothing is held, a reset, a read or a refused access, a stored write, a
rejected command word, or a command. -/
theorem step_cases {s t : State} (h : step s = .next t) :
    (s.pending = [] ∧ t = s) ∨
      (∃ rest, s.pending = .reset :: rest ∧ t = { State.reset with pending := rest }) ∨
      (∃ a rest r, s.pending = a :: rest ∧ a ≠ .reset ∧ t = { s with pending := rest, response := r }) ∨
      (∃ addr w rest, s.pending = .write addr .word w :: rest ∧ locate addr ≠ .register .cmd ∧
        t = { writeLocation (locate addr) w { s with pending := rest } with response := .ack }) ∨
      (∃ w rest e, s.pending = .write 0 .word w :: rest ∧ decode w = .error e ∧
        t = { s with pending := rest, response := .ack, regs := { s.regs with status := 4 } }) ∨
      ∃ w rest i, s.pending = .write 0 .word w :: rest ∧ decode w = .ok i ∧
        exec i { s with pending := rest, response := .ack } = .next t := by
  unfold step at h
  split at h
  · rename_i hp
    cases h
    exact .inl ⟨hp, rfl⟩
  · rename_i a rest hp
    refine .inr ?_
    cases a with
    | reset =>
      cases h
      exact .inl ⟨rest, hp, rfl⟩
    | read addr size =>
      simp only [serve] at h
      split at h <;> cases h <;> exact .inr (.inl ⟨_, rest, _, hp, by simp, rfl⟩)
    | write addr size data =>
      simp only [serve] at h
      split at h
      · rename_i hal
        obtain rfl : size = .word := by
          simp only [accessAligned, Bool.and_eq_true, beq_iff_eq] at hal
          exact hal.1
        split at h
        · rename_i hl
          obtain rfl := eq_zero_of_locate_cmd hl
          unfold runCommandWord at h
          split at h
          · rename_i i hd
            exact .inr (.inr (.inr (.inr ⟨data, rest, i, hp, hd, h⟩)))
          · rename_i e hd
            cases h
            exact .inr (.inr (.inr (.inl ⟨data, rest, e, hp, hd, rfl⟩)))
        · rename_i hl
          cases h
          exact .inr (.inr (.inl ⟨addr, data, rest, hp, hl, rfl⟩))
      · cases h
        exact .inr (.inl ⟨_, rest, _, hp, by simp, rfl⟩)

variable {i : Instr} {s t : State}

/-- Everything a command can do to the controller (44 R230, R261). -/
theorem exec_cal_cases (h : exec i s = .next t) :
    t.cal = s.cal ∨ (i = .ctrlInit ∧ t.cal = Calibration.reset) ∨
      (i = .ctrlStart ∧ s.cal.state = .idle ∧
        t.cal = { startBand 0 { s.cal with iteration := 0, band := 0 } with state := .measuring }) ∨
      (i = .ctrlStart ∧ s.cal.state ≠ .idle ∧ t.cal = { s.cal with lastError := .invalidState }) ∨
      (∃ n, i = .ctrlProcessBlock n ∧ buffersInRam s n = true ∧ t.cal = (tick (inputBlock s n) s).2.cal) ∨
      (∃ n, i = .ctrlProcessBlock n ∧ buffersInRam s n = false ∧
        t.cal = { s.cal with lastError := .invalidParameters }) ∨
      (i = .ctrlStop ∧ t.cal = { s.cal with state := .idle, band := 0, cnt := 0, iteration := 0 }) ∨
      (i = .ctrlApplyGains ∧ t.cal = { s.cal with cumulative := s.regs.gainArr }) := by
  cases i <;> simp only [exec] at h <;> cases h
  case fdDesign => exact .inl rfl
  case eqInit => exact .inl rfl
  case eqSetBandGain => left; split <;> rfl
  case eqSetAllGains => left; split <;> rfl
  case eqProcessBlock => left; split <;> rfl
  case eqGetCoefficients => exact .inl rfl
  case eqSetCoefficients => left; split <;> rfl
  case eqReset => exact .inl rfl
  case eqGetBandFrequency => exact .inl rfl
  case ctrlInit => exact .inr (.inl ⟨rfl, rfl⟩)
  case ctrlStart =>
    by_cases hs : s.cal.state = .idle
    · exact .inr (.inr (.inl ⟨rfl, hs, by rw [if_pos hs]; rfl⟩))
    · exact .inr (.inr (.inr (.inl ⟨rfl, hs, by rw [if_neg hs]; rfl⟩)))
  case ctrlProcessBlock n =>
    cases hb : buffersInRam s n
    · exact .inr (.inr (.inr (.inr (.inr (.inl ⟨n, rfl, hb, by simp⟩)))))
    · exact .inr (.inr (.inr (.inr (.inl ⟨n, rfl, hb, by simp⟩))))
  case ctrlGetState => exact .inl rfl
  case ctrlGetCurrentBand => exact .inl rfl
  case ctrlGetProgress => exact .inl rfl
  case ctrlGetCorrectionGains => left; unfold arrayGetter; split <;> rfl
  case ctrlGetMeasuredLevels => left; unfold arrayGetter; split <;> rfl
  case ctrlStop => exact .inr (.inr (.inr (.inr (.inr (.inr (.inl ⟨rfl, rfl⟩))))))
  case ctrlApplyGains => exact .inr (.inr (.inr (.inr (.inr (.inr (.inr ⟨rfl, rfl⟩))))))
  case ctrlGetLastError => exact .inl rfl
  case ctrlGetCpuUsage => exact .inl rfl

/-- Everything a command can do to the equalizer (41 R150 to R169; 44 R249, R276). -/
theorem exec_eq_cases (h : exec i s = .next t) :
    t.eq = s.eq ∨ (i = .eqInit ∧ t.eq = flatEqualizer) ∨
      (∃ b : Fin 10, i = .eqSetBandGain b.val ∧ s.eq.initialized = true ∧
        t.eq = setBand b s.regs.argGain s.regs.argQ s.eq) ∨
      ((i = .eqSetAllGains ∨ i = .ctrlApplyGains ∨ ∃ n, i = .ctrlProcessBlock n) ∧ s.eq.initialized = true ∧
        ∃ gains q, t.eq = setAllBands gains q s.eq) ∨
      (∃ n, i = .eqProcessBlock n ∧ t.eq = (filterBlock s.eq (inputBlock s n)).2) ∨
      (i = .eqSetCoefficients ∧ s.eq.initialized = true ∧ t.eq = loadCoefficients s.regs.coefArr s.eq) ∨
      (i = .eqReset ∧ t.eq = { s.eq with delay := Vector.replicate 10 DelayLine.rest }) := by
  cases i <;> simp only [exec] at h <;> cases h
  case fdDesign => exact .inl rfl
  case eqInit => exact .inr (.inl ⟨rfl, rfl⟩)
  case eqSetBandGain =>
    split
    · rename_i hb
      exact .inr (.inr (.inl ⟨⟨_, hb.2⟩, rfl, hb.1, rfl⟩))
    · exact .inl rfl
  case eqSetAllGains =>
    split
    · rename_i hi
      exact .inr (.inr (.inr (.inl ⟨.inl rfl, hi, _, _, rfl⟩)))
    · exact .inl rfl
  case eqProcessBlock =>
    split
    · exact .inr (.inr (.inr (.inr (.inl ⟨_, rfl, rfl⟩))))
    · exact .inl rfl
  case eqGetCoefficients => exact .inl rfl
  case eqSetCoefficients =>
    split
    · rename_i hi
      exact .inr (.inr (.inr (.inr (.inr (.inl ⟨rfl, hi, rfl⟩)))))
    · exact .inl rfl
  case eqReset => exact .inr (.inr (.inr (.inr (.inr (.inr ⟨rfl, rfl⟩)))))
  case eqGetBandFrequency => exact .inl rfl
  case ctrlInit => exact .inl rfl
  case ctrlStart => left; split <;> rfl
  case ctrlProcessBlock n =>
    split
    · simp only [complete_eq, setStatus_eq, storeOutput_eq]
      rcases tick_cases (inputBlock s n) s with ⟨-, h⟩ | ⟨-, h⟩ | ⟨-, h⟩ | ⟨-, h⟩ <;> rw [h]
      · exact .inl rfl
      · exact .inl rfl
      · simp only [applyTick]
        rcases setAllGainsCore_cases calQ s.cal.cumulative s.eq with ⟨hi, h⟩ | ⟨-, h⟩ <;> rw [h]
        · exact .inr (.inr (.inr (.inl ⟨.inr (.inr ⟨n, rfl⟩), hi, _, _, rfl⟩)))
        · exact .inl rfl
      · exact .inl rfl
    · exact .inl rfl
  case ctrlGetState => exact .inl rfl
  case ctrlGetCurrentBand => exact .inl rfl
  case ctrlGetProgress => exact .inl rfl
  case ctrlGetCorrectionGains => left; unfold arrayGetter; split <;> rfl
  case ctrlGetMeasuredLevels => left; unfold arrayGetter; split <;> rfl
  case ctrlStop => exact .inl rfl
  case ctrlApplyGains =>
    rcases setAllGainsCore_cases calQ s.regs.gainArr s.eq with ⟨hi, h⟩ | ⟨-, h⟩ <;> rw [h]
    · exact .inr (.inr (.inr (.inl ⟨.inr (.inl rfl), hi, _, _, rfl⟩)))
    · exact .inl rfl
  case ctrlGetLastError => exact .inl rfl
  case ctrlGetCpuUsage => exact .inl rfl

end Sys2Proof.Machine
end

