-- ==== Sys2Proof/Tests/Slice0.lean ====
section
/-! SUPPORT. Tests against the words and values the spec gives (30_encoding R113, 95_test_vectors), and for every obligation with
hypotheses the witnesses that meet them. A primitive's value, where a vector needs one, is the correctly rounded one of the
reference parameters of 95_test_vectors, held in a constant function. -/

namespace Sys2Proof.Tests

open Sys2Proof.Machine Sys2Proof.Claims

/-! ## Well-formedness (30_encoding R103, R104) -/

theorem test_band_of_16_is_refused :
    (Instr.eqSetBandGain 16).wellFormed = false ∧ (Instr.eqGetBandFrequency 16).wellFormed = false := by decide

theorem test_length_of_65536_is_refused :
    (Instr.eqProcessBlock 65536).wellFormed = false ∧ (Instr.ctrlProcessBlock 65536).wellFormed = false := by decide

/-! ## Decoding: words written from the formats and the opcode map (30_encoding R102 to R106, R113) -/

theorem test_decode_fdDesign : decode 0b00000000000000000000000000000001#32 = .ok .fdDesign := by decide
theorem test_decode_eqInit : decode 0b00000000000000000000000000010000#32 = .ok .eqInit := by decide
theorem test_decode_eqSetBandGain : decode 0b00000000000000000000_1000_00010001#32 = .ok (.eqSetBandGain 8) := by decide
theorem test_decode_eqSetAllGains : decode 0b00000000000000000000000000010010#32 = .ok .eqSetAllGains := by decide
theorem test_decode_eqProcessBlock :
    decode 0b00000000_0000000111100000_00010011#32 = .ok (.eqProcessBlock 480) := by decide
theorem test_decode_eqGetCoefficients : decode 0x00000014#32 = .ok .eqGetCoefficients := by decide
theorem test_decode_eqSetCoefficients : decode 0x00000015#32 = .ok .eqSetCoefficients := by decide
theorem test_decode_eqReset : decode 0x00000016#32 = .ok .eqReset := by decide
theorem test_decode_eqGetBandFrequency : decode 0x00000A17#32 = .ok (.eqGetBandFrequency 10) := by decide
theorem test_decode_ctrlInit : decode 0b00000000000000000000000000100000#32 = .ok .ctrlInit := by decide
theorem test_decode_ctrlStart : decode 0b00000000000000000000000000100001#32 = .ok .ctrlStart := by decide
theorem test_decode_ctrlProcessBlock :
    decode 0b00000000_1111111111111110_00100010#32 = .ok (.ctrlProcessBlock 65534) := by decide
theorem test_decode_ctrlGetState : decode 0x00000023#32 = .ok .ctrlGetState := by decide
theorem test_decode_ctrlGetCurrentBand : decode 0x00000024#32 = .ok .ctrlGetCurrentBand := by decide
theorem test_decode_ctrlGetProgress : decode 0x00000025#32 = .ok .ctrlGetProgress := by decide
theorem test_decode_ctrlGetCorrectionGains : decode 0x00000026#32 = .ok .ctrlGetCorrectionGains := by decide
theorem test_decode_ctrlGetMeasuredLevels : decode 0x00000027#32 = .ok .ctrlGetMeasuredLevels := by decide
theorem test_decode_ctrlStop : decode 0x00000028#32 = .ok .ctrlStop := by decide
theorem test_decode_ctrlApplyGains : decode 0x00000029#32 = .ok .ctrlApplyGains := by decide
theorem test_decode_ctrlGetLastError : decode 0x0000002A#32 = .ok .ctrlGetLastError := by decide
theorem test_decode_ctrlGetCpuUsage : decode 0x0000002B#32 = .ok .ctrlGetCpuUsage := by decide

/-- V-ENC: 0x00001011 has bit 12 set, 0x00000000 and 0x000000FF have no row. -/
theorem test_decode_rejects :
    decode 0x00001011#32 = .error .nonzeroAboveBand ∧ decode 0x00000000#32 = .error .unassignedOpcode ∧
      decode 0x000000FF#32 = .error .unassignedOpcode := by decide

theorem test_decodeTableWord : decodeTableWord 32 0x00000811 = some (.eqSetBandGain 8) := by decide

/-! ## The port (V-MEM) and the step -/

/-- The state after reset with one access held. -/
def holding (a : HostAccess) : State := { State.reset with pending := [a] }

/-- The state a step or a command leaves. -/
def after (o : Host.Outcome State Fault Refusal) : State :=
  match o with
  | .next t => t
  | .fault _ => State.reset
  | .refused _ => State.reset

theorem test_misaligned_read_is_a_bus_error :
    (after (step (holding (.read 0x006 .word)))).response = .busError := by decide

theorem test_half_write_is_a_bus_error :
    (after (step (holding (.write 0x008 .half 0x3F80#32)))).response = .busError ∧
      (after (step (holding (.write 0x008 .half 0x3F80#32)))).regs.argGain = 0 := by decide

theorem test_write_of_a_register_keeps_a_nan :
    (after (step (holding (.write 0x008 .word 0x7FC00001#32)))).regs.argGain = 0x7FC00001#32 := by decide

theorem test_write_of_status_is_ignored :
    (after (step (holding (.write 0x004 .word 0xFFFFFFFF#32)))).regs.status = 0 := by decide

theorem test_gain_arr_starts_at_0x40 :
    (after (step (holding (.write 0x064 .word 0x3F000000#32)))).regs.gainArr[9] = 0x3F000000#32 := by decide

theorem test_sample_512_is_at_0x1800 : sramAddress 512 = 0x1800 := by decide

/-- 0x3F800000 in little-endian order (20_memory R75). -/
theorem test_bytes_of_a_sample : writeSram [] 0 0x3F800000#32 = [(0x1002, 0x80#8), (0x1003, 0x3F#8)] := by decide

/-- EQ_GET_BAND_FREQUENCY band=8 as the first access after reset. -/
theorem test_step_runs_the_fetched_word :
    (after (step (State.reset.withFetchWord 32 0x00000817))).regs.resultF = 0x447A0000#32 := by decide

theorem test_step_rejects_a_word :
    (after (step (State.reset.withFetchWord 32 0x00000121))).regs.status = 4 := by decide

/-! ## FilterDesigner (V-FD) -/

/-- SIN and COS of 2·pi·1000/48000 and 10^0.15, correctly rounded. -/
def at1000Hz6dB : Primitives :=
  { sin := fun _ => 0x3E05A8A9#32, cos := fun _ => 0x3F7DCF55#32, pow10 := fun _ => 0x3FB4CE08#32, log10 := fun _ => 0 }

/-- V-FD row 1000, 6, 2. -/
theorem test_design_1000_6_2 : designWith at1000Hz6dB 0x447A0000#32 0x40C00000#32 0x40000000#32 0x473B8000#32 =
    ⟨0x3F82E064#32, 0xBFF81435#32, 0x3F6EAFA8#32, 0xBFF81435#32, 0x3F74706E#32⟩ := by decide

/-- V-FD corner: fc = 0 gives [1, -2, 1, -2, 1]. -/
theorem test_design_fc_0 :
    designWith { at1000Hz6dB with sin := fun x => x, cos := fun _ => 0x3F800000#32 } 0 0x40C00000#32 0x40000000#32
      0x473B8000#32 = ⟨0x3F800000#32, 0xC0000000#32, 0x3F800000#32, 0xC0000000#32, 0x3F800000#32⟩ := by decide

theorem test_fdDesign_completes : (after (exec .fdDesign State.reset)).regs.status = 1 := by decide

/-! ## BandFilterEngine (V-EQ) -/

/-- An initialized equalizer whose coefficients are all +0.0, ARG_GAIN and ARG_Q 50.0, COEF_ARR[41] 1.0. -/
def ready : State :=
  { State.reset with
    regs := { Regs.reset with
      argGain := 0x42480000#32, argQ := 0x42480000#32, gainArr := Vector.replicate 10 0xC2480000#32
      coefArr := Regs.reset.coefArr.set 41 0x3F800000#32 }
    eq := { Equalizer.reset with initialized := true } }

theorem test_eqInit_initializes :
    (after (exec .eqInit State.reset)).eq.initialized = true ∧ (after (exec .eqInit State.reset)).regs.status = 1 := by
  decide

theorem test_eqInit_band_record : (after (exec .eqInit State.reset)).eq.bands[3] = ⟨0, 0x40000000#32, false⟩ := by decide

/-- V-EQ-6: 50 dB and Q 50 are clamped to 12 dB and 20. -/
theorem test_eqSetBandGain_clamps :
    (after (exec (.eqSetBandGain 8) ready)).eq.bands[8] = ⟨0x41400000#32, 0x41A00000#32, false⟩ := by decide

/-- V-EQ-7: band 10 fails. -/
theorem test_eqSetBandGain_band_10_fails : (after (exec (.eqSetBandGain 10) ready)).regs.status = 0 := by decide

theorem test_eqSetAllGains_clamps :
    (after (exec .eqSetAllGains ready)).eq.bands[0] = ⟨0xC1400000#32, 0x41A00000#32, false⟩ := by decide

/-- V-EQ-4: the setters fail before EQ_INIT. -/
theorem test_eqSetAllGains_uninitialized_fails : (after (exec .eqSetAllGains State.reset)).regs.status = 0 := by decide

/-- V-EQ-4: the equalizer before EQ_INIT is a bit copy. -/
theorem test_filterBlock_copies_bits :
    (filterBlock Equalizer.reset [0x7FC00001#32, 0x80000000#32]).1 = [0x7FC00001#32, 0x80000000#32] := by decide

/-- V-EQ-9: an identity section turns -0.0 into +0.0 and copies -7.25. -/
theorem test_identity_section :
    (sectionBlock ⟨0x3F800000#32, 0, 0, 0, 0⟩ DelayLine.rest [0x80000000#32, 0xC0E80000#32]).1 =
      [0x00000000#32, 0xC0E80000#32] := by decide

/-- R151, R152: section 9 remembers what reached it. -/
theorem test_cascade_section_9 :
    (cascadeSection (Vector.replicate 10 ⟨0x3F800000#32, 0, 0, 0, 0⟩)
      (0xC0E80000#32, Vector.replicate 10 DelayLine.rest) 9).2[9] = ⟨0xC0E80000#32, 0, 0xC0E80000#32, 0⟩ := by decide

/-- V-EQ-5: band 8 at 6 dB, the second and third samples of its impulse response (the other sections pass an impulse
exactly). -/
theorem test_section_impulse :
    let c : Coefficients := ⟨0x3F82E064#32, 0xBFF81435#32, 0x3F6EAFA8#32, 0xBFF81435#32, 0x3F74706E#32⟩
    (sectionBlock c DelayLine.rest [0x3F800000#32, 0, 0]).1 = [0x3F82E064#32, 0x3D3266C0#32, 0x3D25D290#32] := by decide

/-- V-EQ-4: COEF_ARR reads zero after an export of the reset state. -/
theorem test_eqGetCoefficients_of_reset :
    (after (exec .eqGetCoefficients { ready with eq := Equalizer.reset })).regs.coefArr[41] = 0 := by decide

/-- COEF_ARR[41] is b1 of band 8. -/
theorem test_eqSetCoefficients_layout : (after (exec .eqSetCoefficients ready)).eq.coef[8].b1 = 0x3F800000#32 := by decide

theorem test_eqSetCoefficients_uninitialized_fails :
    (after (exec .eqSetCoefficients State.reset)).regs.status = 0 := by decide

theorem test_eqReset_clears :
    (after (exec .eqReset { ready with
      eq := { ready.eq with delay := Vector.replicate 10 ⟨1, 2, 3, 4⟩ } })).eq.delay[9] = ⟨0, 0, 0, 0⟩ := by decide

/-- V-EQ-7. -/
theorem test_eqGetBandFrequency_9 :
    (after (exec (.eqGetBandFrequency 9) ready)).regs.resultF = 0x44C80000#32 := by decide

/-- V-EQ-7: the sentinel, with OK = 1. -/
theorem test_eqGetBandFrequency_15 :
    (after (exec (.eqGetBandFrequency 15) { ready with regs := { ready.regs with resultF := 1 } })).regs =
      { ready.regs with resultF := 0, status := 1 } := by decide

/-! ## The units (V-TG, V-DT) -/

/-- V-TG: samples 0 and 1 of the 1000 Hz tone, from the three values of its ToneInit row. -/
theorem test_tone_1000_samples :
    let t : Tone := ⟨0x3FFDCF55#32, 0xBE05A8A9#32, 0xBE8483EE#32, 0⟩
    (toneNext t).1 = 0x80000000#32 ∧ (toneNext (toneNext t).2).1 = 0x390E91C2#32 := by decide

/-- R212: the bins of the ten bands; 2.5 rounds to 3. -/
theorem test_bins :
    bandFreq.toList.map (fun f => detectorBin f 4800) = [3, 4, 6, 10, 16, 25, 40, 63, 100, 160] := by decide

/-! ## CalibrationController (V-CTRL) -/

/-- A controller in this state, band and count. -/
def calibrating (state : CtrlState) (band cnt iteration : Nat) : State :=
  { ready with
    cal := { Calibration.reset with
      state := state, band := band, cnt := cnt, iteration := iteration, tone := { Tone.reset with n := cnt } } }

theorem test_ctrlInit_clears_the_error :
    (after (exec .ctrlInit { ready with cal := { Calibration.reset with lastError := .invalidState } })).cal =
      Calibration.reset := by decide

theorem test_ctrlStart_measures : (after (exec .ctrlStart ready)).cal.state = .measuring := by decide

theorem test_ctrlStart_again_fails :
    (after (exec .ctrlStart (calibrating .measuring 0 0 0))).cal.lastError = .invalidState ∧
      (after (exec .ctrlStart (calibrating .measuring 0 0 0))).regs.status = 0 := by decide

/-- 44 R248: the example E5, cumulative 3.004899 and measured -3.004899 give 5.108327. -/
theorem test_tick_computing :
    accumulate 1 0x40405042#32 (correctionOf 0xC0405042#32) = 0x40A3776B#32 := by decide

/-- E5: cumulative -5.0 and measured -20.0 give 3.39999962. -/
theorem test_tick_computing_clamps_first :
    accumulate 1 0xC0A00000#32 (correctionOf 0xC1A00000#32) = 0x40599998#32 := by decide

theorem test_ctrlGetState_applying : (after (exec .ctrlGetState (calibrating .applying 10 14400 0))).regs.resultI = 3 := by
  decide

theorem test_ctrlGetCurrentBand_idle : (after (exec .ctrlGetCurrentBand ready)).regs.resultI = 0xFFFFFFFF#32 := by decide

theorem test_ctrlGetProgress_tick_31 :
    (after (exec .ctrlGetProgress (calibrating .measuring 1 480 0))).regs.resultF = 0x3DD3A06D#32 := by decide

theorem test_ctrlGetProgress_last_sample :
    (after (exec .ctrlGetProgress (calibrating .measuring 9 14399 0))).regs.resultF = 0x3F7FFF8B#32 := by decide

theorem test_ctrlGetCorrectionGains_null : (after (exec .ctrlGetCorrectionGains ready)).regs.status = 2 := by decide

theorem test_ctrlGetMeasuredLevels_done :
    (after (exec .ctrlGetMeasuredLevels { calibrating .done 10 14400 2 with
      cal := { Calibration.reset with state := .done, measured := Vector.replicate 10 0xC2F00000#32 } })).regs.resultArr[9] =
      0xC2F00000#32 := by decide

theorem test_ctrlStop_is_idle :
    (after (exec .ctrlStop (calibrating .measuring 1 7200 1))).cal =
      { Calibration.reset with tone := { Tone.reset with n := 7200 } } := by decide

/-- R276: cumulative keeps the gain unclamped, the band record the clamped one. -/
theorem test_ctrlApplyGains :
    (after (exec .ctrlApplyGains ready)).cal.cumulative[4] = 0xC2480000#32 ∧
      (after (exec .ctrlApplyGains ready)).eq.bands[4] = ⟨0xC1400000#32, 0x40000000#32, false⟩ := by decide

theorem test_ctrlGetLastError : (after (exec .ctrlGetLastError { ready with
    cal := { Calibration.reset with lastError := .invalidParameters } })).regs.resultI = 2 := by decide

theorem test_ctrlGetCpuUsage : (after (exec .ctrlGetCpuUsage ready)).regs.resultF = Config.cpuUsage .idle := rfl

/-! ## Witnesses: states and operands that meet the hypotheses of the obligations -/

/-- A finite pattern as near to `y` as any other is within half a unit in the last place. -/
theorem nearest_within_half (y : ℝ) : ∃ r : F32, isFinite r = true ∧
    ∀ a b : F32, isFinite a = true → isFinite b = true → (ratValue a : ℝ) ≤ y → y ≤ (ratValue b : ℝ) →
      ratValue a < ratValue b → |(ratValue r : ℝ) - y| ≤ (((1 / 2 : Rat)) : ℝ) * ((ratValue b : ℝ) - (ratValue a : ℝ)) := by
  obtain ⟨r, hr, hmin⟩ := Set.exists_min_image {w : F32 | isFinite w = true} (fun w => |(ratValue w : ℝ) - y|)
    (Set.toFinite _) ⟨0, by decide⟩
  refine ⟨r, hr, fun a b ha hb hay hyb _ => ?_⟩
  have h1 := hmin a ha
  have h2 := hmin b hb
  simp only [abs_of_nonpos (sub_nonpos.mpr hay), abs_of_nonneg (sub_nonneg.mpr hyb)] at h1 h2
  push_cast
  linarith

theorem ratValue_zero : ratValue 0#32 = 0 := by
  rw [show ratValue 0#32 = (signed false 0 : Rat) * (2 : Rat) ^ (-149 : Int) from rfl]
  norm_num [signed]

theorem largestFinite_pos : (0 : ℝ) < (ratValue largestFinite : ℝ) := by
  have : (0 : Rat) < ratValue largestFinite := by
    rw [show ratValue largestFinite = (signed false 16777215 : Rat) * (2 : Rat) ^ (104 : Int) from rfl]
    norm_num [signed]
  exact_mod_cast this

theorem within_half (y : ℝ) : ∃ r : F32, withinUlps (1 / 2) r y := by
  have hpos := largestFinite_pos
  by_cases hy : |y| ≤ (ratValue largestFinite : ℝ)
  · obtain ⟨r, hr, h⟩ := nearest_within_half y
    have := abs_le.mp hy
    exact ⟨r, fun _ => ⟨hr, h⟩, fun _ => by linarith, fun _ => by linarith⟩
  · by_cases hs : 0 ≤ y
    · exact ⟨_, fun h => absurd h hy, fun _ => rfl, fun _ => by linarith⟩
    · exact ⟨_, fun h => absurd h hy, fun _ => by linarith, fun _ => rfl⟩

theorem ratValue_negative_zero : ratValue 0x80000000#32 = 0 := by
  rw [show ratValue 0x80000000#32 = (signed true 0 : Rat) * (2 : Rat) ^ (-149 : Int) from rfl]
  norm_num [signed]

theorem ratValue_one : ratValue 0x3F800000#32 = 1 := by
  rw [show ratValue 0x3F800000#32 = (signed false 8388608 : Rat) * (2 : Rat) ^ (-23 : Int) from rfl]
  norm_num [signed]

/-- A finite pattern of the value itself is within half a unit in the last place. -/
theorem exact_within_half {r : F32} {y : ℝ} (hf : isFinite r = true) (hr : (ratValue r : ℝ) = y)
    (hy : |y| ≤ (ratValue largestFinite : ℝ)) : withinUlps (1 / 2) r y := by
  have := abs_le.mp hy
  refine ⟨fun _ => ⟨hf, fun a b _ _ _ _ hab => ?_⟩, fun _ => by linarith, fun _ => by linarith⟩
  have : (ratValue a : ℝ) < ratValue b := by exact_mod_cast hab
  rw [hr, sub_self, abs_zero]
  push_cast
  linarith

/-- Primitives accurate to half a unit in the last place, exact at zero, SIN(+0.0) and SIN(-0.0) being +0.0 and POW10(+0.0)
being 1.0. -/
theorem accurate_primitives_exist :
    ∃ p : Primitives, accuratePrimitives (1 / 2) p ∧ p.sin 0#32 = 0#32 ∧ p.sin 0x80000000#32 = 0#32 ∧ p.pow10 0#32 = 0x3F800000#32 := by
  choose r hr using within_half
  have hz : ∃ z : ℝ → F32, z 0 = 0#32 ∧ z 1 = 0x3F800000#32 ∧ ∀ y, withinUlps (1 / 2) (z y) y := by
    refine ⟨fun y => if y = 0 then 0#32 else if y = 1 then 0x3F800000#32 else r y, if_pos rfl, by norm_num, fun y => ?_⟩
    have hone : (1 : ℝ) ≤ (ratValue largestFinite : ℝ) := by
      rw [show ratValue largestFinite = (signed false 16777215 : Rat) * (2 : Rat) ^ (104 : Int) from rfl]
      norm_num [signed]
    dsimp only
    split_ifs with h0 h1
    · subst h0
      exact exact_within_half (by decide) (by simp [ratValue_zero]) (by simpa using largestFinite_pos.le)
    · subst h1
      exact exact_within_half (by decide) (by simp [ratValue_one]) (by simpa using hone)
    · exact hr y
  obtain ⟨z, hz0, hz1, hz⟩ := hz
  refine ⟨{ sin := fun x => z (Real.sin (ratValue x : ℝ)), cos := fun x => z (Real.cos (ratValue x : ℝ))
            pow10 := fun x => z ((10 : ℝ) ^ (ratValue x : ℝ)), log10 := fun x => z (Real.logb 10 (ratValue x : ℝ)) },
    ⟨fun x _ => hz _, fun x _ => hz _, fun x _ => hz _, fun x _ _ => hz _, fun x hx => ?_⟩, ?_⟩
  · rcases hx with rfl | rfl <;> simp [ratValue_zero, ratValue_negative_zero, hz0, hz1]
  · simp [ratValue_zero, ratValue_negative_zero, hz0, hz1]


theorem witness_DecodeOfEncodeIsTheCommand :
    (Instr.eqSetBandGain 0).wellFormed = true ∧ (Instr.eqGetBandFrequency 15).wellFormed = true ∧
      (Instr.eqProcessBlock 65535).wellFormed = true ∧ (Instr.ctrlProcessBlock 65535).wellFormed = true := by decide

theorem witness_EncodeOfDecodeIsTheWord :
    decode 0x00000F11#32 = .ok (.eqSetBandGain 15) ∧ decode 0x00FFFF13#32 = .ok (.eqProcessBlock 65535) := by decide

/-- A word for each end of each range of the statement. -/
theorem witness_ReservedEncodingsAreRejected :
    ((0x00000000#32).toNat % 256 = 0x00 ∧ (0x00000002#32).toNat % 256 = 0x02 ∧ (0x0000000F#32).toNat % 256 = 0x0F ∧
      (0x00000018#32).toNat % 256 = 0x18 ∧ (0x0000001F#32).toNat % 256 = 0x1F ∧ (0x0000002C#32).toNat % 256 = 0x2C ∧
      (0xFFFFFFFF#32).toNat % 256 = 0xFF) ∧
    ((0x00001011#32).toNat % 256 = 0x11 ∧ (0x00001011#32).toNat / 2 ^ 12 ≠ 0 ∧ (0x80000F17#32).toNat % 256 = 0x17 ∧
      (0x80000F17#32).toNat / 2 ^ 12 ≠ 0) ∧
    ((0x01000013#32).toNat % 256 = 0x13 ∧ (0x01000013#32).toNat / 2 ^ 24 ≠ 0 ∧ (0x80FFFF22#32).toNat % 256 = 0x22 ∧
      (0x80FFFF22#32).toNat / 2 ^ 24 ≠ 0) ∧
    (0x00000101#32).toNat % 256 = 0x01 ∧ (0x00000101#32).toNat / 2 ^ 8 ≠ 0 ∧ (0x80000016#32).toNat % 256 = 0x16 ∧
      (0x80000016#32).toNat / 2 ^ 8 ≠ 0 ∧ (0x0000012B#32).toNat % 256 = 0x2B ∧ (0x0000012B#32).toNat / 2 ^ 8 ≠ 0 := by
  decide

theorem witness_StepRunsTheDecodedCommand :
    (holding (commandAccess 0x00000817#32)).pending = .write 0 .word 0x00000817#32 :: [] ∧
      decode 0x00000817#32 = .ok (.eqGetBandFrequency 8) ∧ State.reset.pending = [] := by decide

theorem witness_RejectedWordWritesOnlyStatus :
    (holding (commandAccess 0x00000121#32)).pending = .write 0 .word 0x00000121#32 :: [] ∧
      decode 0x00000121#32 = .error .nonzeroAboveOpcode := by decide

/-- A misaligned word, and a byte at an aligned address. -/
theorem witness_BusErrorChangesNoState :
    ¬ (AccessSize.word = .word ∧ (0x00000006#32).toNat % 4 = 0) ∧
      ¬ (AccessSize.byte = .word ∧ (0x00000008#32).toNat % 4 = 0) := by decide

/-- The first and the last sample, and the ends of each reserved range; the range past the sample RAM holds the highest offset
for every size below the largest. -/
theorem witness_ReadsReturnTheCurrentValue :
    0 < sampleRamWords ∧ sampleRamWords - 1 < sampleRamWords ∧
      (∀ o ∈ [0x028, 0x03C, 0x068, 0x07C, 0x0A8, 0x0BC, 0x0D4, 0x0FC, 0x1C8, 0xFFC], o % 4 = 0 ∧ o < 2 ^ 32 ∧
        ((0x028 ≤ o ∧ o < 0x040) ∨ (0x068 ≤ o ∧ o < 0x080) ∨ (0x0A8 ≤ o ∧ o < 0x0C0) ∨ (0x0D4 ≤ o ∧ o < 0x100) ∨
          (0x1C8 ≤ o ∧ o < 0x1000))) ∧
      (sampleRamWords < 1073740800 → 0x1000 + 4 * sampleRamWords ≤ 0xFFFFFFFC) := by
  have := sampleRamWords_bounds
  exact ⟨by omega, by omega, by decide, by omega⟩

theorem witness_WritesStoreOrAreIgnored :
    (∀ o ∈ [0x028, 0x03C, 0x068, 0x07C, 0x0A8, 0x0BC, 0x0D4, 0x0FC, 0x1C8, 0xFFC], o % 4 = 0 ∧ o < 2 ^ 32 ∧
        ((0x028 ≤ o ∧ o < 0x040) ∨ (0x068 ≤ o ∧ o < 0x080) ∨ (0x0A8 ≤ o ∧ o < 0x0C0) ∨ (0x0D4 ≤ o ∧ o < 0x100) ∨
          (0x1C8 ≤ o ∧ o < 0x1000))) ∧
      (sampleRamWords < 1073740800 → 0x1000 + 4 * sampleRamWords ≤ 0xFFFFFFFC) :=
  ⟨by decide, witness_ReadsReturnTheCurrentValue.2.2.2⟩

theorem witness_SampleRamKeepsTheWordWritten :
    sampleRamWords - 1 < sampleRamWords ∧ memoryWf (writeSram [] 0 0x3F800000#32) = true :=
  ⟨witness_ReadsReturnTheCurrentValue.2.1, by decide⟩

theorem witness_StepKeepsStatusLegal :
    statusLegal (holding (commandAccess 0x00000028#32)) ∧ ∃ t, step (holding (commandAccess 0x00000028#32)) = .next t :=
  ⟨by decide, _, rfl⟩

/-! ARG_IN and ARG_OUT are 0 in `ready` and `calibrating`, so that a block of up to SAMPLE_RAM_WORDS samples is in range, the
longest reaching exactly the end of the RAM, and one sample more is not. -/

theorem range_full (state : CtrlState) (band cnt iteration : Nat) :
    inRange (calibrating state band cnt iteration) sampleRamWords := by
  constructor <;> exact Nat.le_of_eq (Nat.zero_add _)

theorem range_one (state : CtrlState) (band cnt iteration : Nat) :
    inRange (calibrating state band cnt iteration) 1 := by
  have := sampleRamWords_bounds
  constructor <;> exact (Nat.zero_add 1).trans_le this.1

theorem range_none (state : CtrlState) (band cnt iteration : Nat) :
    inRange (calibrating state band cnt iteration) 0 := by
  constructor <;> exact Nat.zero_le _

theorem not_range_past (state : CtrlState) (band cnt iteration : Nat) :
    ¬ inRange (calibrating state band cnt iteration) (sampleRamWords + 1) := fun h => by
  have h : 0 + (sampleRamWords + 1) ≤ sampleRamWords := h.1
  omega

theorem measuring_safe {band cnt iteration : Nat} (hb : band < 10) (hc : cnt < 14400) (hi : iteration < 3) :
    controllerSafe (calibrating .measuring band cnt iteration).cal := ⟨hb, hc, hi, rfl⟩

/-- ARG_IN and ARG_OUT hold 0xFFFFFFFF. -/
def outside : State := { ready with regs := { ready.regs with argIn := 0xFFFFFFFF#32, argOut := 0xFFFFFFFF#32 } }

theorem outside_past_the_ram (n : Nat) : sampleRamWords < outside.regs.argIn.toNat + n := by
  have := sampleRamWords_bounds
  have : outside.regs.argIn.toNat = 4294967295 := by decide
  omega

/-- V-EQ-8. -/
theorem test_eqProcessBlock_out_of_range : exec (.eqProcessBlock 1) outside =
    .next { outside with regs := { outside.regs with status := 0 } } := by
  have h : buffersInRam outside 1 = false :=
    Bool.eq_false_iff.mpr fun h => absurd (buffersInRam_iff.mp h).1 (Nat.not_le.mpr (outside_past_the_ram 1))
  simp only [exec, execEqProcessBlock, h]
  rfl

/-- R243: InvalidParameters, and the state stays. -/
theorem test_ctrlProcessBlock_out_of_range :
    (after (exec (.ctrlProcessBlock 1) outside)).cal = { outside.cal with lastError := .invalidParameters } := by
  have h : buffersInRam outside 1 = false :=
    Bool.eq_false_iff.mpr fun h => absurd (buffersInRam_iff.mp h).1 (Nat.not_le.mpr (outside_past_the_ram 1))
  simp only [exec, execCtrlProcessBlock, h]
  rfl

/-- R235: the tick of no samples moves Computing to Applying. -/
theorem test_ctrlProcessBlock_of_nothing :
    (after (exec (.ctrlProcessBlock 0) (calibrating .computing 10 14400 0))).cal.state = .applying := by
  have h := buffersInRam_iff.mpr (range_none .computing 10 14400 0)
  simp only [exec, execCtrlProcessBlock, h]
  rfl

/-- Every clause of the transition table: the last position of a sweep and the last but one, iteration 1 and 2. -/
theorem witness_ControllerTransitions :
    (∃ t, exec .ctrlStart (calibrating .idle 0 0 0) = .next t) ∧
    (∃ t, exec .ctrlStart (calibrating .measuring 0 0 0) = .next t) ∧
    (∀ n s, ∃ t, exec (.ctrlProcessBlock n) s = .next t) ∧
    (calibrating .measuring 0 0 0).cal.state ≠ .idle ∧
    (inRange (calibrating .measuring 9 14399 0) 1 ∧ controllerSafe (calibrating .measuring 9 14399 0).cal ∧
      144000 ≤ 14400 * 9 + 14399 + 1) ∧
    (inRange (calibrating .measuring 9 14398 0) 1 ∧ controllerSafe (calibrating .measuring 9 14398 0).cal ∧
      ¬ 144000 ≤ 14400 * 9 + 14398 + 1) ∧
    inRange (calibrating .computing 10 14400 0) 0 ∧
    (inRange (calibrating .applying 10 14400 1) 0 ∧ 1 + 1 < 3) ∧
    (inRange (calibrating .applying 10 14400 2) 0 ∧ ¬ 2 + 1 < 3) ∧
    inRange (calibrating .done 10 14400 2) 1 ∧ inRange (calibrating .error 0 0 0) 1 ∧
    ¬ inRange (calibrating .measuring 0 0 0) (sampleRamWords + 1) :=
  ⟨⟨_, rfl⟩, ⟨_, rfl⟩, fun _ _ => ⟨_, rfl⟩, by decide, ⟨range_one .., measuring_safe (by decide) (by decide) (by decide), by decide⟩,
    ⟨range_one .., measuring_safe (by decide) (by decide) (by decide), by decide⟩, range_none ..,
    ⟨range_none .., by decide⟩, ⟨range_none .., by decide⟩, range_one .., range_one .., not_range_past _ _ _ _⟩

theorem witness_LastErrorPolicy :
    (∃ t, exec .ctrlStart (calibrating .done 10 14400 2) = .next t) ∧ (calibrating .done 10 14400 2).cal.state ≠ .idle ∧
    (∃ t, exec (.ctrlProcessBlock (sampleRamWords + 1)) (calibrating .idle 0 0 0) = .next t) ∧
    ¬ inRange (calibrating .idle 0 0 0) (sampleRamWords + 1) ∧
    (∃ t, exec (.ctrlProcessBlock sampleRamWords) (calibrating .idle 0 0 0) = .next t) ∧
    inRange (calibrating .idle 0 0 0) sampleRamWords ∧
    (let s : State := { calibrating .done 10 14400 2 with pending := [commandAccess 0x00000021#32] }
      ∃ t, step s = .next t ∧ t.cal.lastError ≠ s.cal.lastError) ∧
    (let s : State := { ready with cal := { Calibration.reset with lastError := .invalidState }, pending := [.reset] }
      ∃ t, step s = .next t ∧ s.pending = .reset :: [] ∧ s.cal.lastError = .invalidState) ∧
    ∃ t, step (holding .reset) = .next t ∧ (holding .reset).cal.lastError ≠ .bufferOverflow :=
  ⟨⟨_, rfl⟩, by decide, ⟨_, rfl⟩, not_range_past _ _ _ _, ⟨_, rfl⟩, range_full .., ⟨_, rfl, by decide⟩,
    ⟨_, rfl, rfl, rfl⟩, ⟨_, rfl, by decide⟩⟩

/-- A command, and a reset, of an initialized equalizer. -/
theorem witness_OnlyResetClearsEqInit :
    (∃ t, exec .eqInit State.reset = .next t) ∧ ready.eq.initialized = true ∧
      (∃ t, step { ready with pending := [.reset] } = .next t ∧ t.eq.initialized = false) ∧
      ∃ t, step { ready with pending := [commandAccess 0x00000020#32] } = .next t ∧ t.eq.initialized = true :=
  ⟨⟨_, rfl⟩, rfl, ⟨_, rfl, rfl⟩, _, rfl, rfl⟩

theorem witness_OnlyProcessCommandsAccessTheRam :
    (∀ n, Instr.eqInit ≠ .eqProcessBlock n ∧ Instr.eqInit ≠ .ctrlProcessBlock n) ∧ (∃ t, exec .eqInit ready = .next t) ∧
      ¬ inRange (calibrating .measuring 0 0 0) (sampleRamWords + 1) ∧
      (∃ t, exec (.eqProcessBlock (sampleRamWords + 1)) (calibrating .measuring 0 0 0) = .next t) ∧
      ∃ t, exec (.ctrlProcessBlock (sampleRamWords + 1)) (calibrating .measuring 0 0 0) = .next t :=
  ⟨fun _ => ⟨by simp, by simp⟩, ⟨_, rfl⟩, not_range_past _ _ _ _, ⟨_, rfl⟩, _, rfl⟩

/-- A command that changes each result register, and a rejected word. -/
theorem witness_ResultRegistersChangeOnlyByTheirCommands :
    (∃ t, exec (.eqGetBandFrequency 0) ready = .next t ∧ t.regs.resultF ≠ ready.regs.resultF) ∧
    (∃ t, exec .ctrlGetCurrentBand ready = .next t ∧ t.regs.resultI ≠ ready.regs.resultI) ∧
    (let s : State := { ready with cal := { Calibration.reset with
        state := .done, measured := Vector.replicate 10 0xC2F00000#32 } }
      ∃ t, exec .ctrlGetMeasuredLevels s = .next t ∧ t.regs.resultArr ≠ s.regs.resultArr) ∧
    (∃ t, exec .fdDesign ready = .next t) ∧
    decode 0x0000002C#32 = .error .unassignedOpcode ∧ ∃ t, runCommandWord 0x0000002C#32 ready = .next t :=
  ⟨⟨_, rfl, by decide⟩, ⟨_, rfl, by decide⟩, ⟨_, rfl, by decide⟩, ⟨_, rfl⟩, by decide, _, rfl⟩

theorem witness_CommandsLeaveOperandRegistersAlone : ∃ t, exec .ctrlApplyGains ready = .next t := ⟨_, rfl⟩

theorem witness_FailedCommandHasNoOtherEffect :
    (∃ t, exec .eqSetCoefficients State.reset = .next t ∧ t.regs.status = 0) ∧
    (∃ t, exec .ctrlStart (calibrating .measuring 0 0 0) = .next t ∧ t.regs.status = 0 ∧
      t.cal.lastError ≠ (calibrating .measuring 0 0 0).cal.lastError) ∧
    (∃ t, exec .ctrlApplyGains State.reset = .next t ∧ t.regs.status = 0) ∧
    decode 0x00000000#32 = .error .unassignedOpcode :=
  ⟨⟨_, rfl, by decide⟩, ⟨_, rfl, by decide, by decide⟩, ⟨_, rfl, by decide⟩, by decide⟩

/-- The last position of a sweep, with a command waiting. -/
theorem witness_StepKeepsTheControllerInvariants :
    let s : State := { calibrating .measuring 9 14399 2 with pending := [commandAccess 0x00000122#32] }
    controllerSafe s.cal ∧ unitsSafe s.cal ∧ ∃ t, step s = .next t :=
  ⟨⟨by decide, by decide, by decide, rfl⟩, by decide, _, rfl⟩

theorem witness_StepKeepsTheDelayLinesLinked :
    delaysLinked { ready.eq with delay := Vector.replicate 10 ⟨1, 2, 1, 2⟩ } ∧
      ∃ t, step { ready with
        eq := { ready.eq with delay := Vector.replicate 10 ⟨1, 2, 1, 2⟩ }
        pending := [commandAccess 0x00000113#32] } = .next t :=
  ⟨by decide, _, rfl⟩

/-- Every band designed at 0 dB (41 R150). -/
theorem witness_StepKeepsTheDesignInvariant :
    designsKept flatEqualizer ∧ flatEqualizer.initialized = true ∧
      ∃ t, step { ready with eq := flatEqualizer, pending := [commandAccess 0x00000811#32] } = .next t :=
  ⟨fun _ b _ => by simp [flatEqualizer], rfl, _, rfl⟩

/-- One sample in the RAM, its bytes in the first word's place. -/
def oneSample : Memory := writeSram [] 0 0x3F800000#32

theorem witness_StepKeepsTheSampleRamCanonical :
    let s : State := { ready with sram := oneSample, pending := [commandAccess 0x00000113#32] }
    ramSafe s ∧ ∃ t, step s = .next t := by
  have := sampleRamWords_bounds
  refine ⟨⟨by decide, fun c hc => ?_⟩, _, rfl⟩
  have hc : c ∈ [((0x1002 : Nat), (0x80#8 : Byte)), (0x1003, 0x3F#8)] := hc
  simp only [List.mem_cons, List.not_mem_nil, or_false] at hc
  rcases hc with rfl | rfl <;> simp only [sramAddress] <;> omega

/-- 40 R133 at fc = 0, Q = 2.0 and both zero gains: accurate primitives exist, alpha is no NaN, and a0 is finite and not zero.
40 R134 at fc = +0.0 and -0.0: Q = 2.0, fs and A are finite and not zero. -/
theorem witness_FlatDesignIsTheIdentityFilter :
    ∃ p : Primitives, accuratePrimitives (1 / 2) p ∧ (1 / 2 : Rat) < 1 ∧
      (let alpha := fDiv (p.sin (fDiv (fMul 0x40C90FDB#32 0#32) 0x473B8000#32)) (fMul 0x40000000#32 0x40000000#32)
       isNaN alpha = false ∧ isFinite (fAdd 0x3F800000#32 alpha) = true ∧ ratValue (fAdd 0x3F800000#32 alpha) ≠ 0) ∧
      isFinite 0x473B8000#32 = true ∧ ratValue 0x473B8000#32 ≠ 0 ∧
      isFinite 0x40000000#32 = true ∧ ratValue 0x40000000#32 ≠ 0 ∧
      isFinite (p.pow10 (fDiv 0#32 0x42200000#32)) = true ∧ ratValue (p.pow10 (fDiv 0#32 0x42200000#32)) ≠ 0 ∧
      ∀ fc : F32, fc = 0x00000000#32 ∨ fc = 0x80000000#32 →
        designWith p fc 0#32 0x40000000#32 0x473B8000#32 =
          ⟨0x3F800000#32, 0xC0000000#32, 0x3F800000#32, 0xC0000000#32, 0x3F800000#32⟩ := by
  obtain ⟨p, hp, h0, h1, hA⟩ := accurate_primitives_exist
  have hc := hp.2.2.2.2
  refine ⟨p, hp, by norm_num, ?_, by decide, ?_, by decide, ?_, ?_, ?_, fun fc hfc => ?_⟩
  · rw [show fDiv (fMul 0x40C90FDB#32 0#32) 0x473B8000#32 = 0#32 from rfl, h0,
      show fDiv 0#32 (fMul 0x40000000#32 0x40000000#32) = 0#32 from rfl]
    exact ⟨by decide, by decide, by rw [show fAdd 0x3F800000#32 0#32 = 0x3F800000#32 from rfl, ratValue_one]; norm_num⟩
  · rw [show ratValue 0x473B8000#32 = (signed false 12288000 : Rat) * (2 : Rat) ^ (-8 : Int) from rfl]
    norm_num [signed]
  · rw [show ratValue 0x40000000#32 = (signed false 8388608 : Rat) * (2 : Rat) ^ (-22 : Int) from rfl]
    norm_num [signed]
  · rw [show fDiv 0#32 0x42200000#32 = 0#32 from rfl, hA]
    decide
  · rw [show fDiv 0#32 0x42200000#32 = 0#32 from rfl, hA, ratValue_one]
    norm_num
  · rcases hfc with rfl | rfl
    · have e := (hc 0#32 (.inl rfl)).2
      simp only [designWith, show fDiv 0#32 fForty = 0#32 from rfl, hA,
        show fDiv (fMul fTwoPi 0x00000000#32) 0x473B8000#32 = 0#32 from rfl, h0, e]
      decide
    · have e := (hc 0x80000000#32 (.inr rfl)).2
      simp only [designWith, show fDiv 0#32 fForty = 0#32 from rfl, hA,
        show fDiv (fMul fTwoPi 0x80000000#32) 0x473B8000#32 = 0x80000000#32 from rfl, h1, e]
      decide

theorem witness_EqSetBandGainResult :
    ready.eq.initialized = true ∧ (⟨9, by decide⟩ : Fin 10).val = 9 ∧ State.reset.eq.initialized = false ∧ 9 < 10 := by
  decide

theorem witness_OutOfRangeSettingActsAsTheBound :
    (∃ t, exec (.eqSetBandGain 9) { ready with regs := { ready.regs with argGain := 0x42480000#32 } } = .next t) ∧
    (∃ t, exec (.eqSetBandGain 9) { ready with regs := { ready.regs with argGain := 0x41400000#32 } } = .next t) ∧
    (∃ t, exec (.eqSetBandGain 9) { ready with regs := { ready.regs with argQ := 0x42480000#32 } } = .next t) ∧
    ∃ t, exec (.eqSetBandGain 9) { ready with regs := { ready.regs with argQ := 0x41A00000#32 } } = .next t :=
  ⟨⟨_, rfl⟩, ⟨_, rfl⟩, ⟨_, rfl⟩, _, rfl⟩

theorem witness_EqSetAllGainsResult : ready.eq.initialized = true ∧ State.reset.eq.initialized = false := by decide

theorem witness_SetAllGainsIsTenSetBandGains :
    ready.eq.initialized = true ∧ ∃ t, exec .eqSetAllGains ready = .next t := ⟨rfl, _, rfl⟩

theorem witness_EqProcessBlockFilters :
    let s : State := { calibrating .idle 0 0 0 with sram := oneSample }
    inRange s sampleRamWords ∧ s.eq.initialized = true ∧ memoryWf s.sram = true :=
  ⟨range_full .idle 0 0 0, rfl, by decide⟩

theorem witness_EqProcessBlockPassesThrough :
    let s : State := { calibrating .idle 0 0 0 with sram := oneSample, eq := Equalizer.reset }
    inRange s sampleRamWords ∧ s.eq.initialized = false ∧ memoryWf s.sram = true :=
  ⟨range_full .idle 0 0 0, rfl, by decide⟩

/-- One word too many at either base. -/
theorem witness_BlockOutsideTheRamFails :
    sampleRamWords < ready.regs.argIn.toNat + (sampleRamWords + 1) ∧
      sampleRamWords < ready.regs.argOut.toNat + (sampleRamWords + 1) ∧
      sampleRamWords < outside.regs.argIn.toNat + 0 :=
  ⟨by show _ < 0 + _; omega, by show _ < 0 + _; omega, outside_past_the_ram 0⟩

theorem witness_EqProcessBlockOfNothing :
    (ready.regs.argIn.toNat ≤ sampleRamWords ∧ ready.regs.argOut.toNat ≤ sampleRamWords) ∧
      ¬ (outside.regs.argIn.toNat ≤ sampleRamWords ∧ outside.regs.argOut.toNat ≤ sampleRamWords) :=
  ⟨⟨Nat.zero_le _, Nat.zero_le _⟩, fun h => absurd h.1 (Nat.not_le.mpr (outside_past_the_ram 0))⟩

/-- The one word in place, and another core whose other fields differ. -/
theorem witness_OverlapGivesTheDisjointResult :
    let s : State := { calibrating .measuring 0 0 0 with sram := oneSample }
    let s' : State := { s with regs := { s.regs with status := 1 } }
    inRange s 1 ∧ inRange s' 1 ∧ memoryWf s.sram = true ∧ memoryWf s'.sram = true ∧ s.eq = s'.eq ∧ s.cal = s'.cal ∧
      (∀ k < 1, readSram s.sram (s.regs.argIn.toNat + k) = readSram s'.sram (s'.regs.argIn.toNat + k)) ∧
      (∃ t, exec (.eqProcessBlock 1) s = .next t) ∧ (∃ t, exec (.eqProcessBlock 1) s' = .next t) ∧
      (∃ t, exec (.ctrlProcessBlock 1) s = .next t) ∧ ∃ t, exec (.ctrlProcessBlock 1) s' = .next t :=
  ⟨range_one .measuring 0 0 0, range_one .measuring 0 0 0, by decide, by decide, rfl, rfl, fun _ _ => rfl, ⟨_, rfl⟩,
    ⟨_, rfl⟩, ⟨_, rfl⟩, _, rfl⟩

theorem witness_CoefficientExportAndImport : ready.eq.initialized = true ∧ State.reset.eq.initialized = false := by decide

/-- Every band of the clauses, the largest BAND among them. -/
theorem witness_EqGetBandFrequencyResult :
    (∀ band ∈ [0, 1, 2, 3, 4, 5, 6, 7, 8, 9, 10, 15], (Instr.eqGetBandFrequency band).wellFormed = true) ∧ 9 < 10 := by
  decide

/-- Both clauses on the state, the ends of the range of f32(i), and a finite value halfway between two integers, 2.5. -/
theorem witness_CtrlStartResult :
    (calibrating .idle 0 0 0).cal.state = .idle ∧ (calibrating .error 0 0 0).cal.state ≠ .idle ∧
      0 < 2 ^ 24 ∧ 2 ^ 24 - 1 < 2 ^ 24 ∧ isFinite 0x40200000#32 = true ∧
      |(roundHalfAway 0x40200000#32 : Rat) - ratValue 0x40200000#32| = 1 / 2 := by
  refine ⟨by decide, by decide, by decide, by decide, by decide, ?_⟩
  rw [show roundHalfAway 0x40200000#32 = 3 from rfl,
    show ratValue 0x40200000#32 = (signed false 10485760 : Rat) * (2 : Rat) ^ (-22 : Int) from rfl]
  norm_num [signed]

theorem witness_TickOutsideARunIsSilent :
    inRange (calibrating .idle 0 0 0) sampleRamWords ∧ inRange (calibrating .done 10 14400 2) sampleRamWords ∧
      inRange (calibrating .error 0 0 0) sampleRamWords ∧ memoryWf (calibrating .idle 0 0 0).sram = true ∧
      (calibrating .idle 0 0 0).cal.state = .idle ∧ (calibrating .done 10 14400 2).cal.state = .done ∧
      (calibrating .error 0 0 0).cal.state = .error :=
  ⟨range_full .., range_full .., range_full .., by decide, rfl, rfl, rfl⟩

/-- The last tick inside a tone, and one that does not reach the analysis window. -/
theorem witness_MeasuringTickInsideATone :
    (inRange (calibrating .measuring 0 14398 0) 1 ∧ (calibrating .measuring 0 14398 0).cal.cnt + 1 < 14400) ∧
      (inRange (calibrating .measuring 0 0 0) 1 ∧ (calibrating .measuring 0 0 0).cal.cnt + 1 < 14400) ∧
      memoryWf (calibrating .measuring 0 14398 0).sram = true ∧ (calibrating .measuring 0 14398 0).cal.state = .measuring :=
  ⟨⟨range_one .., by decide⟩, ⟨range_one .., by decide⟩, by decide, rfl⟩

/-- The shortest tick, at the end of the first tone, of the last but one and of the last; the longest one of the first clause,
in a RAM that holds it; a first part that leaves Measuring and one that does not. -/
theorem witness_LastSampleOfATone :
    (∀ b ∈ [(0 : Fin 10), 8, 9],
      inRange (calibrating .measuring b.val 14399 0) (0 + 1 + 0) ∧
      memoryWf (calibrating .measuring b.val 14399 0).sram = true ∧
      (calibrating .measuring b.val 14399 0).cal.state = .measuring ∧
      (calibrating .measuring b.val 14399 0).cal.cnt + 0 + 1 = 14400 ∧
      (calibrating .measuring b.val 14399 0).cal.band = b.val) ∧
    (28799 ≤ sampleRamWords → inRange (calibrating .measuring 8 0 0) (14399 + 1 + 14399) ∧
      (calibrating .measuring 8 0 0).cal.cnt + 14399 + 1 = 14400) ∧
    (inRange (calibrating .measuring 8 14399 0) (1 + 0) ∧ ∃ u,
      exec (.ctrlProcessBlock 1) (calibrating .measuring 8 14399 0) = .next u ∧ u.cal.state = .measuring) ∧
    inRange (calibrating .measuring 9 14399 0) (1 + 0) ∧ ∃ u,
      exec (.ctrlProcessBlock 1) (calibrating .measuring 9 14399 0) = .next u ∧ u.cal.state ≠ .measuring := by
  refine ⟨fun _ _ => ⟨range_one .., rfl, rfl, rfl, rfl⟩, fun h => ⟨⟨?_, ?_⟩, rfl⟩, ⟨range_one .., ?_⟩, range_one .., ?_⟩
  · show 0 + (14399 + 1 + 14399) ≤ sampleRamWords
    omega
  · show 0 + (14399 + 1 + 14399) ≤ sampleRamWords
    omega
  · have h := buffersInRam_iff.mpr (range_one .measuring 8 14399 0)
    simp only [exec, execCtrlProcessBlock, h, if_true]
    exact ⟨_, rfl, rfl⟩
  · have h := buffersInRam_iff.mpr (range_one .measuring 9 14399 0)
    simp only [exec, execCtrlProcessBlock, h, if_true]
    exact ⟨_, rfl, CtrlState.noConfusion⟩

/-- The ends of both clauses. -/
theorem witness_TickAdvancesTheSweep :
    (inRange (calibrating .measuring 9 14398 0) 1 ∧ controllerSafe (calibrating .measuring 9 14398 0).cal ∧
      (calibrating .measuring 9 14398 0).cal.state = .measuring ∧ 14400 * 9 + 14398 + 1 < 144000 ∧
      ∃ t, exec (.ctrlProcessBlock 1) (calibrating .measuring 9 14398 0) = .next t) ∧
    (inRange (calibrating .measuring 9 14399 0) 1 ∧ controllerSafe (calibrating .measuring 9 14399 0).cal ∧
      (calibrating .measuring 9 14399 0).cal.state = .measuring ∧ 144000 ≤ 14400 * 9 + 14399 + 1 ∧
      ∃ t, exec (.ctrlProcessBlock 1) (calibrating .measuring 9 14399 0) = .next t) :=
  ⟨⟨range_one .., measuring_safe (by decide) (by decide) (by decide), rfl, by decide, _, rfl⟩,
    range_one .., measuring_safe (by decide) (by decide) (by decide), rfl, by decide, _, rfl⟩

/-- 143999 blocks of one sample, and one more. -/
theorem witness_BlockAccounting :
    (calibrating .idle 0 0 0).cal.state = .idle ∧
      (∀ m ∈ 1 :: 0 :: 0 :: List.replicate 143999 1, inRange (calibrating .idle 0 0 0) m) ∧
      (List.replicate 143999 1).sum < 144000 ∧ 144000 ≤ (List.replicate 143999 1).sum + 1 := by
  refine ⟨rfl, fun m hm => ?_, ?_, ?_⟩
  rotate_left
  · rw [List.sum_replicate]; decide
  · rw [List.sum_replicate]; decide
  simp only [List.mem_cons, List.mem_replicate] at hm
  rcases hm with rfl | rfl | rfl | ⟨-, rfl⟩
  · exact range_one ..
  · exact range_none ..
  · exact range_none ..
  · exact range_one ..

/-- The first sweep and a later one. -/
theorem witness_ComputingTickResult :
    ∀ iteration ∈ [0, 1, 2], let s := calibrating .computing 10 14400 iteration
      inRange s sampleRamWords ∧ memoryWf s.sram = true ∧ s.cal.state = .computing :=
  fun _ _ => ⟨range_full .., rfl, rfl⟩

/-- An initialized equalizer and one that is not, the last but one sweep and the last. -/
theorem witness_ApplyingTickResult :
    (∀ iteration ∈ [0, 1, 2],
      let s := calibrating .applying 10 14400 iteration;
      inRange s sampleRamWords ∧ memoryWf s.sram = true ∧ s.cal.state = .applying ∧ s.eq.initialized = true) ∧
    (let s : State := { calibrating .applying 10 14400 1 with eq := Equalizer.reset };
      inRange s sampleRamWords ∧ memoryWf s.sram = true ∧ s.cal.state = .applying ∧ s.eq.initialized = false) ∧
    1 + 1 < 3 ∧ ¬ 2 + 1 < 3 :=
  ⟨fun _ _ => ⟨range_full .., rfl, rfl, rfl⟩, ⟨range_full .applying 10 14400 1, by decide, rfl, rfl⟩, by decide,
    by decide⟩

theorem witness_ScalarGetterResults :
    (∀ state ∈ [CtrlState.idle, .measuring, .computing, .applying, .done, .error],
      (calibrating state 0 0 0).cal.state = state) ∧
    ∀ code ∈ [ErrorCode.none, .invalidState, .invalidParameters, .bufferOverflow],
      ({ Calibration.reset with lastError := code } : Calibration).lastError = code :=
  ⟨fun _ _ => rfl, fun _ _ => rfl⟩

theorem witness_ProgressResult :
    ∀ state ∈ [CtrlState.idle, .measuring, .computing, .applying, .done, .error],
      (calibrating state 9 14399 0).cal.state = state := fun _ _ => rfl

theorem witness_ArrayGetterResults :
    (calibrating .done 10 14400 2).cal.state = .done ∧ (calibrating .applying 10 14400 2).cal.state ≠ .done := by decide

theorem witness_CtrlApplyGainsResult : ready.eq.initialized = true ∧ State.reset.eq.initialized = false := by decide

/-- The ends of each piece of the envelope, which exclude each other. -/
theorem witness_EnvelopeShape :
    (0 < 480 ∧ 479 < 480) ∧ (480 ≤ 480 ∧ 13919 < 13920) ∧ (13920 ≤ 13920 ∧ 14399 < 14400) ∧ 14400 ≤ 14400 := by decide

/-- A NaN over anything is a NaN. -/
theorem nan_divided (op : ArithOp) (a b c : F32) : isNaN (fDiv (nanResult op a b) c) = true := by
  have h := isNaN_nanResult op a b
  have hu : unpack (nanResult op a b) = .nan := by
    simp only [isNaN, Bool.and_eq_true, decide_eq_true_eq] at h
    rw [unpack, if_pos h.1, if_neg h.2]
  unfold fDiv
  rw [hu]
  exact isNaN_nanResult ..

/-- The detector after DetInit, for the shortest and the longest window, and one whose magnitude is a NaN: the square root of
-2.0, its s1 and s2 being 1.0 and its coefficient 3.0. -/
theorem witness_SilentWindowReadsTheFloor :
    (∀ len ∈ [1, 4800], let d : Detector := { Detector.reset with len := len, coeff := 0x3FFFFF7F#32 }
      d.s1 = 0 ∧ d.s2 = 0 ∧ 1 ≤ d.len ∧ d.len ≤ 4800) ∧
    isNaN (detMagnitude ⟨3, 4800, 0x40400000#32, 0x3F800000#32, 0x3F800000#32⟩) = true := by
  refine ⟨by decide, ?_⟩
  have h : fSqrt 0xC0000000#32 = nanResult .sqrt 0xC0000000#32 0xC0000000#32 := rfl
  have hp : detMagnitude ⟨3, 4800, 0x40400000#32, 0x3F800000#32, 0x3F800000#32⟩ =
      fDiv (fSqrt 0xC0000000#32) (fOfNat 4800) := rfl
  rw [hp, h]
  exact nan_divided ..

/-- A NaN, a value below both bounds, one above both, both bounds, and the largest finite value and -0.0. -/
theorem witness_ClampStaysInItsBounds :
    isNaN 0x7FC00000#32 = true ∧ fLt 0xC1480000#32 gainMinDb = true ∧
      (fLt 0x41480000#32 gainMinDb = false ∧ fGt 0x41480000#32 gainMaxDb = true) ∧
      (fLt gainMinDb gainMinDb = false ∧ fGt gainMinDb gainMaxDb = false) ∧
      (fLt gainMaxDb gainMinDb = false ∧ fGt gainMaxDb gainMaxDb = false) ∧
      isFinite 0x7F7FFFFF#32 = true ∧ isFinite 0x80000000#32 = true := by decide

/-- The largest finite value and the smallest one above zero. -/
theorem witness_SumsAndProductsRoundToNearestEven :
    isFinite 0x7F7FFFFF#32 = true ∧ isFinite 0x00000001#32 = true := by decide

theorem witness_QuotientsAndRootsRoundToNearestEven :
    isFinite 0x7F7FFFFF#32 = true ∧ isFinite 0x3F800000#32 = true ∧ ratValue 0x3F800000#32 ≠ 0 ∧
      0 ≤ ratValue 0x3F800000#32 ∧ 0 ≤ ratValue 0#32 := by
  rw [ratValue_one, ratValue_zero]
  exact ⟨by decide, by decide, by norm_num, by norm_num, le_rfl⟩

/-- NaNs of either sign, a value below zero, finite values nonzero and not, and finite operands with a zero sum and a zero
difference. -/
theorem witness_InvalidOperationsGiveANaN :
    isNaN 0x7F800001#32 = true ∧ isNaN 0xFFFFFFFF#32 = true ∧ fLt 0x80000001#32 0 = true ∧ isFinite 0 = true ∧
      isFinite 0x3F800000#32 = true ∧ ratValue 0x3F800000#32 ≠ 0 ∧ ratValue 0#32 + ratValue 0#32 = 0 ∧
      ratValue 0x3F800000#32 - ratValue 0x3F800000#32 = 0 :=
  ⟨by decide, by decide, by decide, by decide, by decide, witness_QuotientsAndRootsRoundToNearestEven.2.2.1,
    by rw [ratValue_zero, add_zero], sub_self _⟩

end Sys2Proof.Tests
end

section
/-! SUPPORT. Binary32 operations on finite patterns, infinities and zeros, on top of Laws/Binary32.lean: the exact value of an
unpacked pattern, the order of the patterns, and what each operation does with each shape of its operands (00_scope R18 to
R22). -/

namespace Sys2Proof.Machine

/-! ## Exact values -/

/-- The value of `.finite s m e`. -/
def exactValue (s : Bool) (m : Nat) (e : Int) : Rat := (signed s m : Rat) * (2 : Rat) ^ e

theorem ratValue_eq_exactValue {w : F32} {s : Bool} {m : Nat} {e : Int} (h : unpack w = .finite s m e) :
    ratValue w = exactValue s m e := ratValue_finite h

theorem exactValue_eq_zero_iff {s : Bool} {m : Nat} {e : Int} : exactValue s m e = 0 ↔ m = 0 := by
  have h2 : (2 : Rat) ^ e ≠ 0 := by positivity
  cases s <;> simp [exactValue, signed, h2]

theorem exactValue_neg_iff {s : Bool} {m : Nat} {e : Int} : exactValue s m e < 0 ↔ s = true ∧ m ≠ 0 := by
  have h2 : (0 : Rat) < 2 ^ e := by positivity
  cases s
  · simp only [exactValue, signed, Bool.false_eq_true, if_false, false_and, iff_false, not_lt]
    positivity
  · simp [exactValue, signed, h2, Nat.pos_iff_ne_zero]

theorem exactValue_not (s : Bool) (m : Nat) (e : Int) : exactValue (!s) m e = -exactValue s m e := by
  cases s <;> simp [exactValue, signed]

theorem exactValue_mul (s t : Bool) (m n : Nat) (e f : Int) :
    exactValue (s != t) (m * n) (e + f) = exactValue s m e * exactValue t n f := by
  unfold exactValue
  rw [zpow_add₀ (by norm_num)]
  cases s <;> cases t <;> simp [signed] <;> ring

theorem exactValue_natAbs (x : Int) (e : Int) : exactValue (x < 0) x.natAbs e = x * 2 ^ e := by
  have h : signed (x < 0) x.natAbs = x := by
    simp only [signed, decide_eq_true_eq]
    split <;> omega
  rw [exactValue, h]

/-! ## The three shapes of a pattern -/

theorem isNaN_eq_false_of_isFinite {w : F32} (h : isFinite w = true) : isNaN w = false := by
  simp only [isFinite, decide_eq_true_eq] at h
  simp [isNaN, h.ne]

theorem unpack_of_isNaN {w : F32} (h : isNaN w = true) : unpack w = .nan := by
  simp only [isNaN, Bool.and_eq_true, decide_eq_true_eq] at h
  obtain ⟨hexp, hfrac⟩ := h
  rw [unpack, if_pos hexp, if_neg hfrac]

theorem isFinite_infinity (s : Bool) : isFinite (ofSignMagnitude s infinityMagnitude) = false := by
  cases s <;> decide

theorem isFinite_zero (s : Bool) : isFinite (ofSignMagnitude s 0) = true := by
  cases s <;> decide

theorem ratValue_signedZero (s : Bool) : ratValue (ofSignMagnitude s 0) = 0 := by
  rw [ratValue_eq_exactValue (unpack_zero s), exactValue_eq_zero_iff]

/-- A finite pattern unpacks to a significand below 2^24. -/
theorem unpack_of_isFinite {w : F32} (h : isFinite w = true) :
    ∃ m e, unpack w = .finite (signBit w) m e ∧ m < 2 ^ 24 := by
  rcases unpack_cases w with ⟨hnan, -⟩ | ⟨hinf, -⟩ | ⟨-, m, e, hu, hm, -⟩
  · rw [isNaN_eq_false_of_isFinite h] at hnan
    contradiction
  · rw [hinf, isFinite_infinity] at h
    contradiction
  · exact ⟨m, e, hu, hm⟩

/-! ## The order of the patterns (00_scope R22) -/

theorem orderKey_ofSignMagnitude {s : Bool} {k : Nat} (h : k < 2 ^ 31) : orderKey (ofSignMagnitude s k) = signed s k := by
  have hmod : (ofSignMagnitude s k).toNat % 2 ^ 31 = k := by
    rw [ofSignMagnitude_toNat h]
    cases s <;> simp <;> omega
  rw [orderKey, signBit_ofSignMagnitude h, hmod]

theorem magnitude_lt_of_isFinite {w : F32} (h : isFinite w = true) : w.toNat % 2 ^ 31 < infinityMagnitude := by
  rw [isFinite, expField_eq_magnitude, decide_eq_true_iff] at h
  rw [infinityMagnitude_eq]
  omega

theorem orderKey_of_isFinite {w : F32} (h : isFinite w = true) :
    orderKey w ∈ Set.Ioo (-(infinityMagnitude : Int)) infinityMagnitude := by
  have hk := magnitude_lt_of_isFinite h
  unfold orderKey signed
  rw [Set.mem_Ioo]
  split <;> omega

/-- Every magnitude is n last places of some 2^q, and so is the next one: n + 1 last places, a carry included. -/
theorem magnitude_lastPlaces (k : Nat) :
    ∃ (q : Int) (n : Nat), -149 ≤ q ∧ n < 2 ^ 24 ∧ (-149 < q → 2 ^ 23 ≤ n) ∧ (q + 149).toNat * 2 ^ 23 + n = k := by
  by_cases hsub : k < 2 ^ 23
  · exact ⟨-149, k, by omega, by omega, by omega, by omega⟩
  · exact ⟨(k / 2 ^ 23 : Nat) - 150, 2 ^ 23 + k % 2 ^ 23, by omega, by omega, by omega, by omega⟩

/-- A magnitude below infinity and its neighbour above, as multiples of one last place. -/
theorem ratValue_magnitude {k : Nat} (hk : k < infinityMagnitude) :
    ∃ (q : Int) (n : Nat), (∀ s, ratValue (ofSignMagnitude s k) = exactValue s n q) ∧
      (k + 1 < infinityMagnitude → ∀ s, ratValue (ofSignMagnitude s (k + 1)) = exactValue s (n + 1) q) := by
  obtain ⟨q, n, hq, hn, hnorm, rfl⟩ := magnitude_lastPlaces k
  refine ⟨q, n, fun s => ratValue_ofSignMagnitude hq hn.le hnorm hk, fun hk' s => ?_⟩
  rw [Nat.add_assoc] at hk' ⊢
  exact ratValue_ofSignMagnitude hq hn (fun h => Nat.le_succ_of_le (hnorm h)) hk'

theorem ratValue_true_magnitude {k : Nat} (hk : k < infinityMagnitude) :
    ratValue (ofSignMagnitude true k) = -ratValue (ofSignMagnitude false k) := by
  obtain ⟨q, n, hvalue, -⟩ := ratValue_magnitude hk
  rw [hvalue, hvalue, ← exactValue_not, Bool.not_false]

theorem ratValue_magnitude_lt_succ {k : Nat} (hk : k + 1 < infinityMagnitude) :
    ratValue (ofSignMagnitude false k) < ratValue (ofSignMagnitude false (k + 1)) := by
  obtain ⟨q, n, hvalue, hnext⟩ := ratValue_magnitude (Nat.lt_of_succ_lt hk)
  rw [hvalue, hnext hk]
  simp only [exactValue, signed, Bool.false_eq_true, if_false]
  gcongr
  exact n.lt_succ_self

/-- The value at a place of the order. -/
def valueAt (z : Int) : Rat := ratValue (ofSignMagnitude (z < 0) z.natAbs)

theorem valueAt_natCast (k : Nat) : valueAt k = ratValue (ofSignMagnitude false k) := by
  have hsign : decide ((k : Int) < 0) = false := decide_eq_false (by omega)
  rw [valueAt, hsign, Int.natAbs_natCast]

theorem valueAt_neg_natCast {k : Nat} (hk : k < infinityMagnitude) :
    valueAt (-k) = -ratValue (ofSignMagnitude false k) := by
  rcases Nat.eq_zero_or_pos k with rfl | hpos
  · rw [Int.natCast_zero, Int.neg_zero, ratValue_signedZero, neg_zero]
    exact ratValue_signedZero false
  · have hsign : decide (-(k : Int) < 0) = true := decide_eq_true (by omega)
    rw [valueAt, hsign, Int.natAbs_neg, Int.natAbs_natCast, ratValue_true_magnitude hk]

theorem ratValue_eq_valueAt {w : F32} (h : isFinite w = true) : ratValue w = valueAt (orderKey w) := by
  have hk := magnitude_lt_of_isFinite h
  unfold orderKey
  rw (occs := .pos [1]) [eq_ofSignMagnitude w]
  cases signBit w
  · exact (valueAt_natCast _).symm
  · exact (ratValue_true_magnitude hk).trans (valueAt_neg_natCast hk).symm

/-- One place up in the order is a larger value, from the most negative finite pattern to the largest. -/
theorem valueAt_lt_succ {z : Int} (hlow : -(infinityMagnitude : Int) < z) (hhigh : z + 1 < infinityMagnitude) :
    valueAt z < valueAt (z + 1) := by
  rcases lt_or_ge z 0 with hneg | hpos
  · obtain ⟨k, rfl⟩ : ∃ k : Nat, z = -((k + 1 : Nat) : Int) := ⟨(-z - 1).toNat, by omega⟩
    rw [show -((k + 1 : Nat) : Int) + 1 = -(k : Int) by omega, valueAt_neg_natCast (by omega),
      valueAt_neg_natCast (by omega)]
    exact neg_lt_neg (ratValue_magnitude_lt_succ (by omega))
  · obtain ⟨k, rfl⟩ := Int.eq_ofNat_of_zero_le hpos
    rw [show (k : Int) + 1 = (k + 1 : Nat) by omega, valueAt_natCast, valueAt_natCast]
    exact ratValue_magnitude_lt_succ (by omega)

theorem valueAt_strictMonoOn : StrictMonoOn valueAt (Set.Ioo (-(infinityMagnitude : Int)) infinityMagnitude) :=
  strictMonoOn_of_lt_add_one Set.ordConnected_Ioo fun _ _ hz hz' => valueAt_lt_succ hz.1 hz'.2

theorem fLt_iff_orderKey {v w : F32} (hv : isNaN v = false) (hw : isNaN w = false) :
    fLt v w = true ↔ orderKey v < orderKey w := by
  simp [fLt, hv, hw]

/-- Below, for finite patterns, is the order of their exact values. -/
theorem fLt_iff_ratValue {v w : F32} (hv : isFinite v = true) (hw : isFinite w = true) :
    fLt v w = true ↔ ratValue v < ratValue w := by
  rw [fLt_iff_orderKey (isNaN_eq_false_of_isFinite hv) (isNaN_eq_false_of_isFinite hw), ratValue_eq_valueAt hv,
    ratValue_eq_valueAt hw, valueAt_strictMonoOn.lt_iff_lt (orderKey_of_isFinite hv) (orderKey_of_isFinite hw)]

theorem fLt_eq_false_of_isNaN {v w : F32} (h : isNaN v = true ∨ isNaN w = true) : fLt v w = false := by
  rcases h with h | h <;> simp [fLt, h]

/-- Each infinity lies beyond every finite value on its side. -/
theorem fLt_infinity {v : F32} (h : isFinite v = true) :
    fLt 0xFF800000#32 v = true ∧ fLt v 0xFF800000#32 = false ∧ fLt v 0x7F800000#32 = true ∧
      fLt 0x7F800000#32 v = false := by
  have hv := isNaN_eq_false_of_isFinite h
  have hneg : isNaN 0xFF800000#32 = false := by decide
  have hpos : isNaN 0x7F800000#32 = false := by decide
  have hnegKey : orderKey 0xFF800000#32 = -(infinityMagnitude : Int) := by decide
  have hposKey : orderKey 0x7F800000#32 = infinityMagnitude := by decide
  obtain ⟨hlow, hhigh⟩ := orderKey_of_isFinite h
  rw [← Bool.not_eq_true, ← Bool.not_eq_true, fLt_iff_orderKey hneg hv, fLt_iff_orderKey hv hneg,
    fLt_iff_orderKey hv hpos, fLt_iff_orderKey hpos hv, hnegKey, hposKey]
  exact ⟨hlow, hlow.not_gt, hhigh, hhigh.not_gt⟩

/-! ## clamp (00_scope R22) -/

theorem fClamp_of_below {v lo hi : F32} (h : fLt v lo = true) : fClamp v lo hi = lo := by
  rw [fClamp, if_pos h]

theorem fClamp_of_above {v lo hi : F32} (hlo : fLt v lo = false) (hhi : fGt v hi = true) : fClamp v lo hi = hi := by
  rw [fClamp, if_neg (by simp [hlo]), if_pos hhi]

theorem fClamp_of_inside {v lo hi : F32} (hlo : fLt v lo = false) (hhi : fGt v hi = false) : fClamp v lo hi = v := by
  rw [fClamp, if_neg (by simp [hlo]), if_neg (by simp [hhi])]

theorem fClamp_of_isNaN {v lo hi : F32} (h : isNaN v = true) : fClamp v lo hi = v :=
  fClamp_of_inside (fLt_eq_false_of_isNaN (.inl h)) (fLt_eq_false_of_isNaN (.inr h))

/-- A clamp between bounds in order that are no NaNs stays between them. -/
theorem fClamp_between {lo hi : F32} (v : F32) (hlo : fLt lo lo = false) (hhi : fLt hi hi = false)
    (horder : fLt hi lo = false) :
    fLt (fClamp v lo hi) lo = false ∧ fGt (fClamp v lo hi) hi = false := by
  by_cases hbelow : fLt v lo = true
  · rw [fClamp_of_below hbelow]
    exact ⟨hlo, horder⟩
  · rw [Bool.not_eq_true] at hbelow
    by_cases habove : fGt v hi = true
    · rw [fClamp_of_above hbelow habove]
      exact ⟨horder, hhi⟩
    · rw [Bool.not_eq_true] at habove
      rw [fClamp_of_inside hbelow habove]
      exact ⟨hbelow, habove⟩


/-! ## Correctly rounded results (00_scope R18, R20) -/

/-- A zero of either sign is the rounding of an exact zero. -/
theorem zero_roundsToNearestEven {r : F32} (hr : isFinite r = true) (hzero : ratValue r = 0) : roundsToNearestEven 0 r := by
  have hsmall : |(0 : ℝ)| < (overflowThreshold : ℝ) := by
    rw [abs_zero, overflowThreshold]
    norm_num
  rw [roundsToNearestEven, if_pos hsmall]
  refine ⟨hr, fun c _ => ?_⟩
  rw [hzero, Rat.cast_zero, sub_zero, sub_zero, abs_zero]
  refine ⟨abs_nonneg _, fun htie hne => absurd ?_ hne⟩
  exact_mod_cast abs_eq_zero.mp htie

theorem exactValue_cast (s : Bool) (m : Nat) (e : Int) :
    ((exactValue s m e : Rat) : ℝ) = if s then -((m : ℝ) * 2 ^ e) else (m : ℝ) * 2 ^ e := by
  cases s <;> simp [exactValue, signed]

/-- roundPack rounds the exact value of its operands, a zero included. -/
theorem roundPack_roundsToNearestEven (s : Bool) (m : Nat) (e : Int) :
    roundsToNearestEven (exactValue s m e : Rat) (roundPack s m e) := by
  rcases Nat.eq_zero_or_pos m with rfl | hm
  · rw [exactValue_eq_zero_iff.mpr rfl, Rat.cast_zero]
    exact zero_roundsToNearestEven (isFinite_zero s) (ratValue_signedZero s)
  · rw [exactValue_cast]
    exact roundPack_nearest hm (.inl rfl)

/-- The sum addFinite makes, in units of the smaller exponent. -/
def alignedSum (sa : Bool) (ma : Nat) (ea : Int) (sb : Bool) (mb : Nat) (eb : Int) : Int :=
  signed sa (ma * 2 ^ (ea - min ea eb).toNat) + signed sb (mb * 2 ^ (eb - min ea eb).toNat)

theorem addFinite_eq (sa : Bool) (ma : Nat) (ea : Int) (sb : Bool) (mb : Nat) (eb : Int) :
    addFinite sa ma ea sb mb eb =
      let x := alignedSum sa ma ea sb mb eb
      if x = 0 then ofSignMagnitude (sa && sb) 0 else roundPack (x < 0) x.natAbs (min ea eb) := rfl

theorem signed_shift (s : Bool) (m : Nat) {e q : Int} (h : q ≤ e) :
    (signed s (m * 2 ^ (e - q).toNat) : Rat) * 2 ^ q = exactValue s m e := by
  have hpow : (2 : Rat) ^ (e - q).toNat * 2 ^ q = 2 ^ e := by
    rw [← zpow_natCast, ← zpow_add₀ (by norm_num), Int.toNat_of_nonneg (by omega), Int.sub_add_cancel]
  rw [exactValue, ← hpow]
  cases s <;> simp [signed] <;> ring

theorem alignedSum_value (sa : Bool) (ma : Nat) (ea : Int) (sb : Bool) (mb : Nat) (eb : Int) :
    (alignedSum sa ma ea sb mb eb : Rat) * 2 ^ min ea eb = exactValue sa ma ea + exactValue sb mb eb := by
  rw [alignedSum, Int.cast_add, add_mul, signed_shift sa ma (min_le_left ea eb), signed_shift sb mb (min_le_right ea eb)]

theorem alignedSum_eq_zero_iff (sa : Bool) (ma : Nat) (ea : Int) (sb : Bool) (mb : Nat) (eb : Int) :
    alignedSum sa ma ea sb mb eb = 0 ↔ exactValue sa ma ea + exactValue sb mb eb = 0 := by
  have h2 : (2 : Rat) ^ min ea eb ≠ 0 := by positivity
  rw [← alignedSum_value, mul_eq_zero, or_iff_left h2, Int.cast_eq_zero]

theorem addFinite_roundsToNearestEven (sa : Bool) (ma : Nat) (ea : Int) (sb : Bool) (mb : Nat) (eb : Int) :
    roundsToNearestEven ((exactValue sa ma ea + exactValue sb mb eb : Rat) : ℝ) (addFinite sa ma ea sb mb eb) := by
  rw [addFinite_eq]
  dsimp only
  split
  next hzero =>
    rw [(alignedSum_eq_zero_iff ..).mp hzero, Rat.cast_zero]
    exact zero_roundsToNearestEven (isFinite_zero _) (ratValue_signedZero _)
  next =>
    rw [← alignedSum_value, ← exactValue_natAbs]
    exact roundPack_roundsToNearestEven ..

theorem divFinite_roundsToNearestEven (sa : Bool) (ma : Nat) (ea : Int) (sb : Bool) {mb : Nat} (eb : Int) (hb : mb ≠ 0)
    (hb24 : mb < 2 ^ 24) :
    roundsToNearestEven ((exactValue sa ma ea / exactValue sb mb eb : Rat) : ℝ) (divFinite (sa != sb) ma ea mb eb) := by
  rcases Nat.eq_zero_or_pos ma with rfl | ha
  · have hq : divFinite (sa != sb) 0 ea mb eb = ofSignMagnitude (sa != sb) 0 := by
      simp [divFinite, withSticky, roundPack]
    rw [hq, exactValue_eq_zero_iff.mpr rfl, zero_div, Rat.cast_zero]
    exact zero_roundsToNearestEven (isFinite_zero _) (ratValue_signedZero _)
  · have hvalue : ((exactValue sa ma ea / exactValue sb mb eb : Rat) : ℝ) =
        if (sa != sb) = true then -((ma : ℝ) * 2 ^ ea / (mb * 2 ^ eb)) else (ma : ℝ) * 2 ^ ea / (mb * 2 ^ eb) := by
      rw [Rat.cast_div, exactValue_cast, exactValue_cast]
      cases sa <;> cases sb <;> simp [neg_div, div_neg]
    rw [hvalue]
    exact divFinite_nearest (Nat.pos_of_ne_zero hb) ha hb24

/-! ## The operations on two finite patterns -/

theorem fAdd_of_finite {a b : F32} {sa sb : Bool} {ma mb : Nat} {ea eb : Int} (ha : unpack a = .finite sa ma ea)
    (hb : unpack b = .finite sb mb eb) : fAdd a b = addFinite sa ma ea sb mb eb := by
  rw [fAdd, ha, hb, addUnpacked]

theorem fSub_of_finite {a b : F32} {sa sb : Bool} {ma mb : Nat} {ea eb : Int} (ha : unpack a = .finite sa ma ea)
    (hb : unpack b = .finite sb mb eb) : fSub a b = addFinite sa ma ea (!sb) mb eb := by
  rw [fSub, ha, hb, Unpacked.negate, addUnpacked]

theorem fMul_of_finite {a b : F32} {sa sb : Bool} {ma mb : Nat} {ea eb : Int} (ha : unpack a = .finite sa ma ea)
    (hb : unpack b = .finite sb mb eb) : fMul a b = roundPack (sa != sb) (ma * mb) (ea + eb) := by
  rw [fMul, ha, hb, mulUnpacked]

theorem fDiv_of_finite {a b : F32} {sa sb : Bool} {ma mb : Nat} {ea eb : Int} (ha : unpack a = .finite sa ma ea)
    (hb : unpack b = .finite sb mb eb) (hmb : mb ≠ 0) : fDiv a b = divFinite (sa != sb) ma ea mb eb := by
  rw [fDiv, ha, hb, divUnpacked, if_neg hmb]

theorem fSqrt_of_zero {a : F32} {s : Bool} {e : Int} (ha : unpack a = .finite s 0 e) : fSqrt a = a := by
  rw [fSqrt, ha]
  rfl

theorem fSqrt_of_positive {a : F32} {m : Nat} {e : Int} (ha : unpack a = .finite false m e) (hm : m ≠ 0) :
    fSqrt a = sqrtFinite m e := by
  rw [fSqrt, ha]
  simp [hm]

theorem fDiv_roundsToNearestEven {a b : F32} (ha : isFinite a = true) (hb : isFinite b = true) (hne : ratValue b ≠ 0) :
    roundsToNearestEven ((ratValue a : ℝ) / ratValue b) (fDiv a b) := by
  obtain ⟨ma, ea, hua, -⟩ := unpack_of_isFinite ha
  obtain ⟨mb, eb, hub, hb24⟩ := unpack_of_isFinite hb
  rw [ratValue_eq_exactValue hub, ne_eq, exactValue_eq_zero_iff] at hne
  rw [fDiv_of_finite hua hub hne, ratValue_eq_exactValue hua, ratValue_eq_exactValue hub, ← Rat.cast_div]
  exact divFinite_roundsToNearestEven _ _ _ _ _ hne hb24

theorem fSqrt_roundsToNearestEven {a : F32} (ha : isFinite a = true) (hpos : 0 ≤ ratValue a) :
    roundsToNearestEven (Real.sqrt (ratValue a)) (fSqrt a) := by
  obtain ⟨m, e, hu, hm24⟩ := unpack_of_isFinite ha
  have hvalue := ratValue_eq_exactValue hu
  rcases Nat.eq_zero_or_pos m with rfl | hm
  · rw [exactValue_eq_zero_iff.mpr rfl] at hvalue
    rw [fSqrt_of_zero hu, hvalue, Rat.cast_zero, Real.sqrt_zero]
    exact zero_roundsToNearestEven ha hvalue
  · have hsign : signBit a = false := by
      by_contra h
      rw [hvalue, ← not_lt, exactValue_neg_iff] at hpos
      exact hpos ⟨by simpa using h, hm.ne'⟩
    rw [hsign] at hu hvalue
    rw [fSqrt_of_positive hu hm.ne', hvalue, exactValue_cast, if_neg Bool.false_ne_true]
    exact sqrtFinite_nearest hm hm24


/-! ## Invalid operations, infinities and zeros (00_scope R14, R18, R20) -/

section

variable (invalid : F32) (u : Unpacked)

theorem addUnpacked_nan : addUnpacked invalid .nan u = invalid ∧ addUnpacked invalid u .nan = invalid := by
  cases u <;> exact ⟨rfl, rfl⟩

theorem mulUnpacked_nan : mulUnpacked invalid .nan u = invalid ∧ mulUnpacked invalid u .nan = invalid := by
  cases u <;> exact ⟨rfl, rfl⟩

theorem divUnpacked_nan : divUnpacked invalid .nan u = invalid ∧ divUnpacked invalid u .nan = invalid := by
  cases u <;> exact ⟨rfl, rfl⟩

end

/-- Each operation of two operands gives a NaN when one of them is a NaN. -/
theorem isNaN_of_nan_operand {a b : F32} (h : isNaN a = true ∨ isNaN b = true) :
    isNaN (fAdd a b) = true ∧ isNaN (fSub a b) = true ∧ isNaN (fMul a b) = true ∧ isNaN (fDiv a b) = true := by
  unfold fAdd fSub fMul fDiv
  rcases h with h | h
  · simp only [unpack_of_isNaN h, addUnpacked_nan, mulUnpacked_nan, divUnpacked_nan, isNaN_nanResult, and_self]
  · simp only [unpack_of_isNaN h, Unpacked.negate, addUnpacked_nan, mulUnpacked_nan, divUnpacked_nan, isNaN_nanResult,
      and_self]

theorem isNaN_fSqrt_of_isNaN {a : F32} (h : isNaN a = true) : isNaN (fSqrt a) = true := by
  rw [fSqrt, unpack_of_isNaN h]
  exact isNaN_nanResult ..

/-- A value below zero is the negative infinity or a nonzero finite value with the sign bit set; neither has a root. -/
theorem isNaN_fSqrt_of_negative {a : F32} (h : fLt a 0 = true) : isNaN (fSqrt a) = true := by
  rcases unpack_cases a with ⟨hnan, -⟩ | ⟨ha, hu⟩ | ⟨hfin, m, e, hu, -⟩
  · exact isNaN_fSqrt_of_isNaN hnan
  · have hsign : signBit a = true := by
      by_contra hpos
      rw [ha, Bool.eq_false_of_not_eq_true hpos] at h
      exact absurd h (by decide)
    rw [fSqrt, hu, hsign]
    exact isNaN_nanResult ..
  · have hzero : ratValue 0 = 0 := ratValue_signedZero false
    rw [fLt_iff_ratValue hfin (by decide), ratValue_eq_exactValue hu, hzero, exactValue_neg_iff] at h
    obtain ⟨hsign, hm⟩ := h
    rw [fSqrt, hu, hsign]
    simp [hm, isNaN_nanResult]

theorem fSqrt_positive_infinity :
    fSqrt (ofSignMagnitude false infinityMagnitude) = ofSignMagnitude false infinityMagnitude := by
  rw [fSqrt, unpack_infinity]
  rfl

section

variable (y z : Bool)

theorem fAdd_infinities :
    fAdd (ofSignMagnitude y infinityMagnitude) (ofSignMagnitude z infinityMagnitude) =
      if y = z then ofSignMagnitude y infinityMagnitude
      else nanResult .add (ofSignMagnitude y infinityMagnitude) (ofSignMagnitude z infinityMagnitude) := by
  rw [fAdd, unpack_infinity, unpack_infinity, addUnpacked]

theorem fSub_infinities :
    fSub (ofSignMagnitude y infinityMagnitude) (ofSignMagnitude z infinityMagnitude) =
      if y = !z then ofSignMagnitude y infinityMagnitude
      else nanResult .sub (ofSignMagnitude y infinityMagnitude) (ofSignMagnitude z infinityMagnitude) := by
  rw [fSub, unpack_infinity, unpack_infinity, Unpacked.negate, addUnpacked]

theorem fMul_infinities :
    fMul (ofSignMagnitude y infinityMagnitude) (ofSignMagnitude z infinityMagnitude) =
      ofSignMagnitude (y != z) infinityMagnitude := by
  rw [fMul, unpack_infinity, unpack_infinity, mulUnpacked]

theorem fDiv_infinities :
    fDiv (ofSignMagnitude y infinityMagnitude) (ofSignMagnitude z infinityMagnitude) =
      nanResult .div (ofSignMagnitude y infinityMagnitude) (ofSignMagnitude z infinityMagnitude) := by
  rw [fDiv, unpack_infinity, unpack_infinity, divUnpacked]

theorem fMul_zero_infinity :
    fMul (ofSignMagnitude y 0) (ofSignMagnitude z infinityMagnitude) =
      nanResult .mul (ofSignMagnitude y 0) (ofSignMagnitude z infinityMagnitude) := by
  rw [fMul, unpack_zero, unpack_infinity, mulUnpacked, if_pos rfl]

theorem fMul_infinity_zero :
    fMul (ofSignMagnitude y infinityMagnitude) (ofSignMagnitude z 0) =
      nanResult .mul (ofSignMagnitude y infinityMagnitude) (ofSignMagnitude z 0) := by
  rw [fMul, unpack_infinity, unpack_zero, mulUnpacked, if_pos rfl]

theorem fDiv_zeros :
    fDiv (ofSignMagnitude y 0) (ofSignMagnitude z 0) = nanResult .div (ofSignMagnitude y 0) (ofSignMagnitude z 0) := by
  rw [fDiv, unpack_zero, unpack_zero, divUnpacked, if_pos rfl, if_pos rfl]

/-- A sum or difference, and a quotient, of an infinity and a finite value, in either order. -/
theorem infinity_with_finite {a : F32} (ha : isFinite a = true) :
    fAdd (ofSignMagnitude z infinityMagnitude) a = ofSignMagnitude z infinityMagnitude ∧
      fAdd a (ofSignMagnitude z infinityMagnitude) = ofSignMagnitude z infinityMagnitude ∧
      fSub (ofSignMagnitude z infinityMagnitude) a = ofSignMagnitude z infinityMagnitude ∧
      fSub a (ofSignMagnitude z infinityMagnitude) = ofSignMagnitude (!z) infinityMagnitude ∧
      fDiv (ofSignMagnitude z infinityMagnitude) a = ofSignMagnitude (z != signBit a) infinityMagnitude ∧
      fDiv a (ofSignMagnitude z infinityMagnitude) = ofSignMagnitude (signBit a != z) 0 := by
  obtain ⟨m, e, hu, -⟩ := unpack_of_isFinite ha
  unfold fAdd fSub fDiv
  rw [unpack_infinity, hu]
  exact ⟨rfl, rfl, rfl, rfl, rfl, rfl⟩

/-- A product of an infinity and a nonzero finite value, in either order, and a nonzero finite value over zero. -/
theorem infinity_of_nonzero {a : F32} (ha : isFinite a = true) (hne : ratValue a ≠ 0) :
    fMul (ofSignMagnitude z infinityMagnitude) a = ofSignMagnitude (z != signBit a) infinityMagnitude ∧
      fMul a (ofSignMagnitude z infinityMagnitude) = ofSignMagnitude (signBit a != z) infinityMagnitude ∧
      fDiv a (ofSignMagnitude z 0) = ofSignMagnitude (signBit a != z) infinityMagnitude := by
  obtain ⟨m, e, hu, -⟩ := unpack_of_isFinite ha
  rw [ratValue_eq_exactValue hu, ne_eq, exactValue_eq_zero_iff] at hne
  unfold fMul fDiv
  rw [unpack_infinity, unpack_zero, hu, divUnpacked, if_pos rfl]
  exact ⟨if_neg hne, if_neg hne, if_neg hne⟩

end

/-! ## Signs of finite results -/

theorem addFinite_of_zero_sum {sa sb : Bool} {ma mb : Nat} {ea eb : Int}
    (h : exactValue sa ma ea + exactValue sb mb eb = 0) :
    addFinite sa ma ea sb mb eb = ofSignMagnitude (sa && sb) 0 := by
  rw [addFinite_eq]
  exact if_pos ((alignedSum_eq_zero_iff ..).mpr h)

theorem fAdd_of_zero_sum {a b : F32} (ha : isFinite a = true) (hb : isFinite b = true)
    (h : ratValue a + ratValue b = 0) : fAdd a b = ofSignMagnitude (signBit a && signBit b) 0 := by
  obtain ⟨ma, ea, hua, -⟩ := unpack_of_isFinite ha
  obtain ⟨mb, eb, hub, -⟩ := unpack_of_isFinite hb
  rw [ratValue_eq_exactValue hua, ratValue_eq_exactValue hub] at h
  rw [fAdd_of_finite hua hub, addFinite_of_zero_sum h]

theorem fSub_of_zero_difference {a b : F32} (ha : isFinite a = true) (hb : isFinite b = true)
    (h : ratValue a - ratValue b = 0) : fSub a b = ofSignMagnitude (signBit a && !signBit b) 0 := by
  obtain ⟨ma, ea, hua, -⟩ := unpack_of_isFinite ha
  obtain ⟨mb, eb, hub, -⟩ := unpack_of_isFinite hb
  rw [ratValue_eq_exactValue hua, ratValue_eq_exactValue hub, sub_eq_add_neg, ← exactValue_not] at h
  rw [fSub_of_finite hua hub, addFinite_of_zero_sum h]

theorem signBit_fMul {a b : F32} (ha : isFinite a = true) (hb : isFinite b = true) :
    signBit (fMul a b) = (signBit a != signBit b) := by
  obtain ⟨ma, ea, hua, -⟩ := unpack_of_isFinite ha
  obtain ⟨mb, eb, hub, -⟩ := unpack_of_isFinite hb
  rw [fMul_of_finite hua hub, signBit_roundPack]

theorem signBit_fDiv {a b : F32} (ha : isFinite a = true) (hb : isFinite b = true) (hne : ratValue b ≠ 0) :
    signBit (fDiv a b) = (signBit a != signBit b) := by
  obtain ⟨ma, ea, hua, -⟩ := unpack_of_isFinite ha
  obtain ⟨mb, eb, hub, -⟩ := unpack_of_isFinite hb
  rw [ratValue_eq_exactValue hub, ne_eq, exactValue_eq_zero_iff] at hne
  rw [fDiv_of_finite hua hub hne, divFinite, signBit_roundPack]

/-! ## The statements of 00_scope -/

/-- Settles O57: strict monotonicity of the exact value along the order key, one place at a time. -/
theorem clampStaysInItsBounds : Obligations.ClampStaysInItsBounds := by
  refine ⟨fun v lo hi => ⟨fClamp_of_isNaN, fClamp_of_below, fClamp_of_above, fClamp_of_inside⟩,
    fun g => fClamp_between g (by decide) (by decide) (by decide),
    fun v w hv hw => ⟨fLt_iff_ratValue hv hw, fLt_iff_ratValue hw hv⟩, fun v => fLt_infinity, by decide,
    fun v w => ⟨rfl, fLt_eq_false_of_isNaN⟩⟩

/-- Settles O58: each result is one rounding of the exact value of its operands. -/
theorem sumsAndProductsRoundToNearestEven : Obligations.SumsAndProductsRoundToNearestEven := by
  intro a b ha hb
  obtain ⟨ma, ea, hua, -⟩ := unpack_of_isFinite ha
  obtain ⟨mb, eb, hub, -⟩ := unpack_of_isFinite hb
  rw [fAdd_of_finite hua hub, fSub_of_finite hua hub, fMul_of_finite hua hub, ratValue_eq_exactValue hua,
    ratValue_eq_exactValue hub]
  refine ⟨?_, ?_, ?_⟩
  · rw [← Rat.cast_add]
    exact addFinite_roundsToNearestEven ..
  · rw [← Rat.cast_sub, sub_eq_add_neg, ← exactValue_not]
    exact addFinite_roundsToNearestEven ..
  · rw [← Rat.cast_mul, ← exactValue_mul]
    exact roundPack_roundsToNearestEven ..

/-- Settles O59: the quotient and the root are cut to integers long enough to round once more. -/
theorem quotientsAndRootsRoundToNearestEven : Obligations.QuotientsAndRootsRoundToNearestEven :=
  ⟨fun _ _ => fDiv_roundsToNearestEven, fun _ => fSqrt_roundsToNearestEven⟩

/-- Settles O60: each clause by the shapes of the operands. -/
theorem invalidOperationsGiveANaN : Obligations.InvalidOperationsGiveANaN := by
  refine ⟨fun _ _ => isNaN_of_nan_operand, fun _ h => h.elim isNaN_fSqrt_of_isNaN isNaN_fSqrt_of_negative,
    fun z => ?_, fun y z => ?_, fun y z => ?_, fun z a ha => ?_,
    ⟨fSqrt_positive_infinity, fun z => fSqrt_of_zero (unpack_zero z)⟩, fun a b ha hb => ?_⟩
  · rw [fAdd_infinities, fSub_infinities, if_neg (by simp), if_neg (by simp)]
    exact ⟨isNaN_nanResult .., isNaN_nanResult ..⟩
  · rw [fMul_zero_infinity, fMul_infinity_zero, fDiv_zeros, fDiv_infinities]
    exact ⟨isNaN_nanResult .., isNaN_nanResult .., isNaN_nanResult .., isNaN_nanResult ..⟩
  · rw [fAdd_infinities, fSub_infinities, fMul_infinities, if_pos rfl, if_pos (by simp)]
    exact ⟨rfl, rfl, rfl⟩
  · obtain ⟨hadd, hadd', hsub, hsub', hdiv, hdiv'⟩ := infinity_with_finite z ha
    exact ⟨hadd, hadd', hsub, hsub', hdiv, hdiv', infinity_of_nonzero z ha⟩
  · exact ⟨fAdd_of_zero_sum ha hb, fSub_of_zero_difference ha hb, signBit_fMul ha hb, signBit_fDiv ha hb⟩

end Sys2Proof.Machine
end

section
/-! SUPPORT. The design invariant and eq_init (10_state R44, R61): what each operation of the equalizer does to them, and from
that what every command and every step does. -/

namespace Sys2Proof.Machine

/-! ## The equalizer's operations keep the design invariant -/

section

variable {e : Equalizer}

theorem designsKept_flatEqualizer : designsKept flatEqualizer := by
  intro _ b _
  simp [flatEqualizer]

/-- A redesigned band holds the design of the record it gets; the others hold what they held (41 R156). -/
theorem designsKept_setBand (b : Fin 10) (g q : F32) (h : designsKept e) : designsKept (setBand b g q e) := by
  intro hinit o hopaque
  by_cases hob : b.val = o.val
  · obtain rfl := Fin.ext hob
    simp
  · simp only [setBand_initialized, setBand_coef, setBand_bands, Fin.getElem_fin, Vector.getElem_set_ne _ _ hob]
      at hinit hopaque ⊢
    exact h hinit o hopaque

theorem designsKept_setAllBands (gains : Vector F32 10) (q : F32) : designsKept (setAllBands gains q e) := by
  intro _ b _
  simp

/-- Every band is opaque afterwards, so that the invariant claims nothing of it (41 R165). -/
theorem designsKept_loadCoefficients (arr : Vector F32 50) : designsKept (loadCoefficients arr e) := by
  intro _ b hopaque
  simp at hopaque

/-- The filter moves delay lines only (41 R158, R159). -/
theorem filterBlock_frame (inbuf : List F32) :
    (filterBlock e inbuf).2 = { e with delay := (filterBlock e inbuf).2.delay } := by
  rcases filterBlock_cases e inbuf with ⟨-, h⟩ | ⟨-, h⟩ <;> rw [h]

end

/-! ## Commands and steps -/

section

variable {i : Instr} {s t : State}

/-- Everything a step that answers a next state can do to the equalizer: it serves a reset, or it leaves the equalizer alone,
or it runs a command. -/
theorem step_eq_cases (h : step s = .next t) :
    (∃ rest, s.pending = .reset :: rest ∧ t.eq = Equalizer.reset) ∨
      ((∀ rest, s.pending ≠ .reset :: rest) ∧ (t.eq = s.eq ∨ ∃ i u, u.eq = s.eq ∧ exec i u = .next t)) := by
  rcases step_cases h with ⟨hp, rfl⟩ | ⟨rest, hp, rfl⟩ | ⟨a, rest, r, hp, ha, rfl⟩ | ⟨addr, w, rest, hp, -, rfl⟩ |
    ⟨w, rest, e, hp, -, rfl⟩ | ⟨w, rest, i, hp, -, hexec⟩
  · exact .inr ⟨by simp [hp], .inl rfl⟩
  · exact .inl ⟨rest, hp, rfl⟩
  · exact .inr ⟨by simp [hp, ha], .inl rfl⟩
  · exact .inr ⟨by simp [hp], .inl (writeLocation_eq ..)⟩
  · exact .inr ⟨by simp [hp], .inl rfl⟩
  · exact .inr ⟨by simp [hp], .inr ⟨i, { s with pending := rest, response := .ack }, rfl, hexec⟩⟩

theorem exec_keeps_designsKept (h : exec i s = .next t) (hs : designsKept s.eq) : designsKept t.eq := by
  rcases exec_eq_cases h with ht | ⟨-, ht⟩ | ⟨b, -, -, ht⟩ | ⟨-, -, gains, q, ht⟩ | ⟨n, -, ht⟩ |
    ⟨-, -, ht⟩ | ⟨-, ht⟩ <;> rw [ht]
  · exact hs
  · exact designsKept_flatEqualizer
  · exact designsKept_setBand b _ _ hs
  · exact designsKept_setAllBands gains q
  · rw [filterBlock_frame]
    exact hs
  · exact designsKept_loadCoefficients _
  · exact hs

theorem designsKept_reset : designsKept Equalizer.reset := fun hinit => absurd hinit Bool.false_ne_true

/-- Settles O25: each operation of the equalizer keeps the invariant, so every command and every step does. -/
theorem stepKeepsTheDesignInvariant : Obligations.StepKeepsTheDesignInvariant := by
  refine ⟨designsKept_reset, fun s t hs h => ?_⟩
  rcases step_eq_cases h with ⟨rest, -, ht⟩ | ⟨-, ht | ⟨i, u, hu, hexec⟩⟩
  · exact ht ▸ designsKept_reset
  · exact ht ▸ hs
  · exact exec_keeps_designsKept hexec (hu ▸ hs)

theorem exec_eqInit_initialized (h : exec .eqInit s = .next t) : t.eq.initialized = true := by
  cases h
  rfl

theorem exec_initialized_of_ne (h : exec i s = .next t) (hi : i ≠ .eqInit) : t.eq.initialized = s.eq.initialized := by
  rcases exec_eq_cases h with ht | ⟨hinit, -⟩ | ⟨b, -, -, ht⟩ | ⟨-, -, gains, q, ht⟩ | ⟨n, -, ht⟩ |
    ⟨-, -, ht⟩ | ⟨-, ht⟩
  · rw [ht]
  · exact absurd hinit hi
  · rw [ht, setBand_initialized]
  · rw [ht, setAllBands_initialized]
  · rw [ht, filterBlock_frame]
  · rw [ht, loadCoefficients_initialized]
  · rw [ht]

/-- No command clears eq_init (10_state R44). -/
theorem exec_keeps_initialized (h : exec i s = .next t) (hs : s.eq.initialized = true) : t.eq.initialized = true := by
  by_cases hi : i = .eqInit
  · subst hi
    exact exec_eqInit_initialized h
  · rw [exec_initialized_of_ne h hi, hs]

/-- Settles O17: a step that serves no reset leaves the equalizer alone or runs a command, and no command clears eq_init. -/
theorem onlyResetClearsEqInit : Obligations.OnlyResetClearsEqInit := by
  refine ⟨fun i s t h => ⟨fun hi => exec_eqInit_initialized (hi ▸ h), exec_initialized_of_ne h⟩, rfl, fun s t hs h => ?_⟩
  rcases step_eq_cases h with ⟨rest, hp, ht⟩ | ⟨hp, hstep⟩
  · exact ⟨fun _ => ⟨rest, hp⟩, fun _ => congrArg Equalizer.initialized ht⟩
  · have hinit : t.eq.initialized = true := by
      rcases hstep with ht | ⟨i, u, hu, hexec⟩
      · rw [ht, hs]
      · exact exec_keeps_initialized hexec (hu ▸ hs)
    refine ⟨fun hfalse => ?_, fun ⟨rest, hreset⟩ => absurd hreset (hp rest)⟩
    rw [hinit] at hfalse
    contradiction

end

end Sys2Proof.Machine
end

section
/-! SUPPORT. What a command does to the registers (10_state R32 to R37): which it writes, and with which STATUS. -/

namespace Sys2Proof.Machine

/-! ## The register a command writes -/

/-- Of the registers only STATUS has changed, to 0, 1 or 2 (10_state R34, R35). -/
def onlyStatusWritten (s t : State) : Prop :=
  ∃ w : Word, (w = 0 ∨ w = 1 ∨ w = 2) ∧ t.regs = { s.regs with status := w }

section

variable {s u : State}

theorem onlyStatusWritten_complete (h : u.regs = s.regs) : onlyStatusWritten s (complete u) :=
  ⟨statusOk, .inr (.inl rfl), by rw [complete_eq, setStatus_regs, h]⟩

theorem onlyStatusWritten_failWith (code : Option ErrorCode) : onlyStatusWritten s (failWith code s) :=
  ⟨statusFailed, .inl rfl, by cases code <;> rfl⟩

theorem onlyStatusWritten_setStatus_statusOf (ok : Bool) (h : u.regs = s.regs) :
    onlyStatusWritten s (setStatus (statusOf ok) u) := by
  refine ⟨statusOf ok, ?_, by rw [setStatus_regs, h]⟩
  cases ok
  · exact .inl rfl
  · exact .inr (.inl rfl)

/-- Everything an array getter does to the registers (44 R273, R274). -/
theorem arrayGetter_regs_cases (v : Vector F32 10) (s : State) :
    onlyStatusWritten s (arrayGetter v s) ∨ (arrayGetter v s).regs = { s.regs with status := 1, resultArr := v } := by
  unfold arrayGetter
  split
  · exact .inr rfl
  · exact .inl ⟨statusNull, .inr (.inr rfl), rfl⟩

end

section

variable {i : Instr} {s t : State}

/-- Everything a command can do to the registers: STATUS alone, or one result register of the map or COEF_ARR with OK = 1
(10_state R32, R35, R37). -/
theorem exec_regs_cases (h : exec i s = .next t) :
    onlyStatusWritten s t ∨
      (((∃ b, i = .eqGetBandFrequency b) ∨ i = .ctrlGetProgress ∨ i = .ctrlGetCpuUsage) ∧
        ∃ v, t.regs = { s.regs with status := 1, resultF := v }) ∨
      ((i = .ctrlGetState ∨ i = .ctrlGetCurrentBand ∨ i = .ctrlGetLastError) ∧
        ∃ v, t.regs = { s.regs with status := 1, resultI := v }) ∨
      ((i = .ctrlGetCorrectionGains ∨ i = .ctrlGetMeasuredLevels) ∧
        ∃ v, t.regs = { s.regs with status := 1, resultArr := v }) ∨
      (i = .fdDesign ∧ ∃ v, t.regs = { s.regs with status := 1, designOut := v }) ∨
      (i = .eqGetCoefficients ∧ ∃ v, t.regs = { s.regs with status := 1, coefArr := v }) := by
  cases i <;> simp only [exec] at h <;> cases h
  case fdDesign => exact .inr (.inr (.inr (.inr (.inl ⟨rfl, _, rfl⟩))))
  case eqInit | eqReset | ctrlInit | ctrlStop => exact .inl (onlyStatusWritten_complete rfl)
  case eqSetBandGain | eqSetAllGains | eqSetCoefficients | eqProcessBlock | ctrlStart =>
    left
    split
    · exact onlyStatusWritten_complete rfl
    · exact onlyStatusWritten_failWith _
  case ctrlProcessBlock =>
    left
    split
    · exact onlyStatusWritten_complete (tick_regs _ _)
    · exact onlyStatusWritten_failWith _
  case ctrlApplyGains => exact .inl (onlyStatusWritten_setStatus_statusOf _ rfl)
  case eqGetCoefficients => exact .inr (.inr (.inr (.inr (.inr ⟨rfl, _, rfl⟩))))
  case eqGetBandFrequency b => exact .inr (.inl ⟨.inl ⟨b, rfl⟩, _, rfl⟩)
  case ctrlGetProgress => exact .inr (.inl ⟨.inr (.inl rfl), _, rfl⟩)
  case ctrlGetCpuUsage => exact .inr (.inl ⟨.inr (.inr rfl), _, rfl⟩)
  case ctrlGetState => exact .inr (.inr (.inl ⟨.inl rfl, _, rfl⟩))
  case ctrlGetCurrentBand => exact .inr (.inr (.inl ⟨.inr (.inl rfl), _, rfl⟩))
  case ctrlGetLastError => exact .inr (.inr (.inl ⟨.inr (.inr rfl), _, rfl⟩))
  case ctrlGetCorrectionGains =>
    exact (arrayGetter_regs_cases _ s).imp id fun hr => .inr (.inr (.inl ⟨.inl rfl, _, hr⟩))
  case ctrlGetMeasuredLevels =>
    exact (arrayGetter_regs_cases _ s).imp id fun hr => .inr (.inr (.inl ⟨.inr rfl, _, hr⟩))

theorem exec_status (h : exec i s = .next t) : t.regs.status = 0 ∨ t.regs.status = 1 ∨ t.regs.status = 2 := by
  rcases exec_regs_cases h with ⟨w, hw, hr⟩ | ⟨-, v, hr⟩ | ⟨-, v, hr⟩ | ⟨-, v, hr⟩ | ⟨-, v, hr⟩ |
    ⟨-, v, hr⟩ <;> rw [hr]
  · exact hw
  all_goals exact .inr (.inl rfl)

/-! ## Commands complete and leave the port alone -/

theorem exec_answers (i : Instr) (s : State) : ∃ t, exec i s = .next t := by
  cases i <;> exact ⟨_, rfl⟩

/-- No command touches the port's queue or its answer (log 1). -/
theorem exec_port (h : exec i s = .next t) : t.pending = s.pending ∧ t.response = s.response := by
  cases i <;> simp only [exec] at h <;> cases h
  case eqSetBandGain | eqSetAllGains | eqSetCoefficients | eqProcessBlock | ctrlStart => split <;> exact ⟨rfl, rfl⟩
  case ctrlProcessBlock =>
    split
    · exact ⟨tick_pending _ _, tick_response _ _⟩
    · exact ⟨rfl, rfl⟩
  case ctrlGetCorrectionGains | ctrlGetMeasuredLevels =>
    unfold arrayGetter
    split <;> exact ⟨rfl, rfl⟩
  all_goals exact ⟨rfl, rfl⟩

/-- Settles O13: every arm of the dispatch answers a next state, and what it does to the registers fixes STATUS. -/
theorem everyCommandCompletes : Obligations.EveryCommandCompletes := by
  intro i s
  obtain ⟨t, h⟩ := exec_answers i s
  exact ⟨t, h, exec_status h, exec_port h⟩

/-- Settles O14: no write of the host reaches STATUS, so a step keeps it, serves a reset, rejects a word or runs a command. -/
theorem stepKeepsStatusLegal : Obligations.StepKeepsStatusLegal := by
  intro s t hs h
  rcases step_cases h with ⟨-, rfl⟩ | ⟨rest, -, rfl⟩ | ⟨a, rest, r, -, -, rfl⟩ | ⟨addr, w, rest, -, -, rfl⟩ |
    ⟨w, rest, e, -, -, rfl⟩ | ⟨w, rest, i, -, -, hexec⟩
  · exact hs
  · exact .inl rfl
  · exact hs
  · simpa only [statusLegal, writeLocation_status] using hs
  · exact .inr (.inr (.inr rfl))
  · rcases exec_status hexec with h0 | h1 | h2
    · exact .inl h0
    · exact .inr (.inl h1)
    · exact .inr (.inr (.inl h2))

/-- Settles O19: each clause is one case of what a command can do to the registers; a rejected word writes STATUS only. -/
theorem resultRegistersChangeOnlyByTheirCommands : Obligations.ResultRegistersChangeOnlyByTheirCommands := by
  refine ⟨fun i s t h => ?_, fun w e s t hd h => ?_⟩
  · rcases exec_regs_cases h with ⟨w, -, hr⟩ | ⟨hi, v, hr⟩ | ⟨hi, v, hr⟩ | ⟨hi, v, hr⟩ | ⟨hi, v, hr⟩ | ⟨-, v, hr⟩ <;> rw [hr]
    · exact ⟨absurd rfl, absurd rfl, absurd rfl, absurd rfl⟩
    · exact ⟨fun _ => ⟨hi, rfl⟩, absurd rfl, absurd rfl, absurd rfl⟩
    · exact ⟨absurd rfl, fun _ => ⟨hi, rfl⟩, absurd rfl, absurd rfl⟩
    · exact ⟨absurd rfl, absurd rfl, fun _ => ⟨hi, rfl⟩, absurd rfl⟩
    · exact ⟨absurd rfl, absurd rfl, absurd rfl, fun _ => ⟨hi, rfl⟩⟩
    · exact ⟨absurd rfl, absurd rfl, absurd rfl, absurd rfl⟩
  · simp only [runCommandWord, hd] at h
    cases h
    exact ⟨rfl, rfl, rfl, rfl⟩

/-- Settles O20: no case of what a command can do to the registers names an operand register, and one names COEF_ARR. -/
theorem commandsLeaveOperandRegistersAlone : Obligations.CommandsLeaveOperandRegistersAlone := by
  intro i s t h
  rcases exec_regs_cases h with ⟨w, -, hr⟩ | ⟨-, v, hr⟩ | ⟨-, v, hr⟩ | ⟨-, v, hr⟩ | ⟨-, v, hr⟩ | ⟨hi, v, hr⟩ <;> rw [hr]
  case inr.inr.inr.inr.inr => exact ⟨rfl, rfl, rfl, rfl, rfl, rfl, rfl, absurd hi⟩
  all_goals exact ⟨rfl, rfl, rfl, rfl, rfl, rfl, rfl, fun _ => rfl⟩

end

end Sys2Proof.Machine
end

section
/-! SUPPORT. The reset state (10_state R59) and the invariants of Safety.lean on it. -/

namespace Sys2Proof.Machine

theorem statusLegal_reset : statusLegal State.reset := .inl rfl

theorem delaysLinked_reset : delaysLinked Equalizer.reset := fun b => by
  simp [Equalizer.reset, DelayLine.rest]

/-- Settles O12: each register, each entry of each array and each unit of State.reset. -/
theorem resetValuesOfTheTable : Obligations.ResetValuesOfTheTable := by
  refine ⟨rfl, ⟨rfl, rfl, rfl, rfl, rfl, rfl, rfl, rfl, rfl⟩, ?gains, ?design, ?coefficients, rfl, ?bands, rfl, rfl, rfl, rfl,
    ?arrays, rfl, rfl, rfl, fun _ => rfl⟩
  case gains | design | coefficients => simp [State.reset, Regs.reset]
  case bands => simp [State.reset, Equalizer.reset, DelayLine.rest]
  case arrays => simp [State.reset, Calibration.reset]

/-- Settles O22: the sample RAM is empty, the controller is Idle and the equalizer is uninitialized. -/
theorem invariantsHoldAtReset : Obligations.InvariantsHoldAtReset := by
  have hram : ramSafe State.reset := ⟨rfl, fun c hc => absurd hc List.not_mem_nil⟩
  have hunits : unitsSafe State.reset.cal := by decide
  exact ⟨statusLegal_reset, hram, ⟨rfl, rfl, rfl⟩, hunits, delaysLinked_reset, designsKept_reset⟩

end Sys2Proof.Machine
end

section
/-! SUPPORT. A step that serves a word access at an offset of the address map (10_state R32, R33; 20_memory R70 to R80), and
the settlements about the port. -/

namespace Sys2Proof.Machine

open Sys2Proof.Claims

/-! ## Serving an aligned access -/

/-- The step that takes a command word from the port (10_state R33). -/
theorem step_commandWord {s : State} {w : Word} {rest : List HostAccess} (h : s.pending = .write 0 .word w :: rest) :
    step s = runCommandWord w { s with pending := rest, response := .ack } := by
  have haligned : accessAligned 0 .word = true := accessAligned_cmd
  have hcmd : locate 0 = .register .cmd := locate_cmd
  simp only [step, h, serve, haligned, hcmd, if_true, respond]

theorem runCommandWord_of_decode {s : State} {w : Word} {i : Instr} (h : decode w = .ok i) :
    runCommandWord w s = exec i s := by
  simp only [runCommandWord, h]

theorem accessAligned_of_offset {o : Nat} (hal : o % 4 = 0) (ho : o < 2 ^ 32) :
    accessAligned (BitVec.ofNat 32 o) .word = true := by
  have hn : (BitVec.ofNat 32 o).toNat = o := by rw [BitVec.toNat_ofNat, Nat.mod_eq_of_lt ho]
  simp [accessAligned, hn, hal]

section

variable (l : Location) (w : Word) (s : State) (rest : List HostAccess)

/-- What a read gives depends on no access that is held. -/
theorem readLocation_pending : readLocation l { s with pending := rest } = readLocation l s := by
  cases l with
  | register r => cases r <;> rfl
  | sample i => rfl
  | reserved => rfl

/-- A write at a location reaches the registers and the sample RAM alone, and depends on no access that is held. -/
theorem writeLocation_pending :
    writeLocation l w { s with pending := rest } =
      { s with regs := (writeLocation l w s).regs, sram := (writeLocation l w s).sram, pending := rest } := by
  cases l with
  | register r => cases r <;> rfl
  | sample i => rfl
  | reserved => rfl

end

section

variable {s : State} {w : Word} {o : Nat}

theorem readsAt_locate (hal : o % 4 = 0) (ho : o < 2 ^ 32) :
    readsAt s o (readLocation (locate (BitVec.ofNat 32 o)) s) := by
  intro rest
  simp only [step, serve, accessAligned_of_offset hal ho, if_true, readLocation_pending, respond]

theorem writesAt_locate (hal : o % 4 = 0) (ho : o < 2 ^ 32) (hcmd : locate (BitVec.ofNat 32 o) ≠ .register .cmd) :
    writesAt s o w (writeLocation (locate (BitVec.ofNat 32 o)) w s).regs
      (writeLocation (locate (BitVec.ofNat 32 o)) w s).sram := by
  intro rest
  simp only [step, serve, accessAligned_of_offset hal ho, if_true, if_neg hcmd, writeLocation_pending, respond]

/-! ## Registers, samples and reserved offsets -/

theorem locate_of_registerAt {r : HostReg} (ho : o < 0x1000) (h : registerAt o = some r) :
    locate (BitVec.ofNat 32 o) = .register r := by
  rw [locate_register ho, h]

/-- The reserved offsets of the map (20_memory R74, R89): between the registers, between them and the window, and above it. -/
abbrev reservedOffset (o : Nat) : Prop :=
  (0x028 ≤ o ∧ o < 0x040) ∨ (0x068 ≤ o ∧ o < 0x080) ∨ (0x0A8 ≤ o ∧ o < 0x0C0) ∨ (0x0D4 ≤ o ∧ o < 0x100) ∨
    (0x1C8 ≤ o ∧ o < 0x1000) ∨ 0x1000 + 4 * sampleRamWords ≤ o

/-- No register lies at a reserved offset (10_state R32, 20_memory R89). -/
theorem registerAt_reserved (ho : o < 0x1000) (h : reservedOffset o) : registerAt o = none := by
  have hscalar : 0x024 < o := by omega
  unfold registerAt
  repeat rw [if_neg (by omega)]
  repeat rw [dif_neg (by omega)]

theorem locate_reserved (ho : o < 2 ^ 32) (h : reservedOffset o) : locate (BitVec.ofNat 32 o) = .reserved := by
  by_cases hwindow : o < 0x1000
  · rw [locate_register hwindow, registerAt_reserved hwindow h]
  · exact locate_above (by omega) ho

theorem readsAt_register {r : HostReg} (h : registerAt o = some r) (ho : o < 0x1000) (hal : o % 4 = 0) :
    readsAt s o (readRegister r s) := by
  have hread := readsAt_locate (s := s) hal (by omega)
  rwa [locate_of_registerAt ho h] at hread

theorem readsAt_sample {i : Nat} (h : i < sampleRamWords) : readsAt s (0x1000 + 4 * i) (readSram s.sram i) := by
  have hb := sampleRamWords_bounds
  have hread := readsAt_locate (s := s) (o := 0x1000 + 4 * i) (by omega) (by omega)
  rwa [locate_sample h] at hread

theorem readsAt_reserved (hal : o % 4 = 0) (ho : o < 2 ^ 32) (h : reservedOffset o) : readsAt s o 0 := by
  have hread := readsAt_locate (s := s) hal ho
  rwa [locate_reserved ho h] at hread

theorem writesAt_register {r : HostReg} (h : registerAt o = some r) (ho : o < 0x1000) (hal : o % 4 = 0)
    (hcmd : r ≠ .cmd) : writesAt s o w (writeRegister r w s).regs (writeRegister r w s).sram := by
  have hl := locate_of_registerAt ho h
  have hwrite := writesAt_locate (s := s) (w := w) hal (by omega) (by simp [hl, hcmd])
  rwa [hl] at hwrite

theorem writesAt_reserved (hal : o % 4 = 0) (ho : o < 2 ^ 32) (h : reservedOffset o) : writesAt s o w s.regs s.sram := by
  have hl := locate_reserved ho h
  have hwrite := writesAt_locate (s := s) (w := w) hal ho (by simp [hl])
  rwa [hl] at hwrite

end

/-- Settles O5: CMD stands at offset 0 and takes aligned words. -/
theorem stepRunsTheDecodedCommand : Obligations.StepRunsTheDecodedCommand := by
  refine ⟨fun s w rest i hp hd => ?_, fun s hp => ?_⟩
  · rw [step_commandWord hp, runCommandWord_of_decode hd]
  · simp only [step, hp]

/-- Settles O8: the register, the sample or the reserved offset that stands at each address. -/
theorem readsReturnTheCurrentValue : Obligations.ReadsReturnTheCurrentValue := by
  intro s
  refine ⟨readsAt_register (r := .cmd) rfl (by decide) rfl, readsAt_register (r := .status) rfl (by decide) rfl,
    readsAt_register (r := .argGain) rfl (by decide) rfl, readsAt_register (r := .argQ) rfl (by decide) rfl,
    readsAt_register (r := .argFc) rfl (by decide) rfl, readsAt_register (r := .argFs) rfl (by decide) rfl,
    readsAt_register (r := .argIn) rfl (by decide) rfl, readsAt_register (r := .argOut) rfl (by decide) rfl,
    readsAt_register (r := .resultF) rfl (by decide) rfl, readsAt_register (r := .resultI) rfl (by decide) rfl,
    fun i => readsAt_register (registerAt_gainArr i) (by omega) (by omega),
    fun i => readsAt_register (registerAt_resultArr i) (by omega) (by omega),
    fun j => readsAt_register (registerAt_designOut j) (by omega) (by omega),
    fun m => readsAt_register (registerAt_coefArr m) (by omega) (by omega),
    fun i => readsAt_sample, fun o => readsAt_reserved⟩

/-- Settles O9: what stands at each address takes the word when it is an RW register and ignores it otherwise. -/
theorem writesStoreOrAreIgnored : Obligations.WritesStoreOrAreIgnored := by
  intro s w
  refine ⟨writesAt_register (r := .argGain) rfl (by decide) rfl (by decide),
    writesAt_register (r := .argQ) rfl (by decide) rfl (by decide),
    writesAt_register (r := .argFc) rfl (by decide) rfl (by decide),
    writesAt_register (r := .argFs) rfl (by decide) rfl (by decide),
    writesAt_register (r := .argIn) rfl (by decide) rfl (by decide),
    writesAt_register (r := .argOut) rfl (by decide) rfl (by decide),
    fun i => writesAt_register (registerAt_gainArr i) (by omega) (by omega) (by simp),
    fun m => writesAt_register (registerAt_coefArr m) (by omega) (by omega) (by simp),
    writesAt_register (r := .status) rfl (by decide) rfl (by decide),
    writesAt_register (r := .resultF) rfl (by decide) rfl (by decide),
    writesAt_register (r := .resultI) rfl (by decide) rfl (by decide),
    fun i => writesAt_register (registerAt_resultArr i) (by omega) (by omega) (by simp),
    fun j => writesAt_register (registerAt_designOut j) (by omega) (by omega) (by simp), fun o => writesAt_reserved⟩

end Sys2Proof.Machine
end

section
/-! SUPPORT. COEF_ARR as EQ_GET_COEFFICIENTS writes it and EQ_SET_COEFFICIENTS reads it (10_state R41; 41 R164, R165). -/

namespace Sys2Proof.Machine

theorem exportedCoefficients_entry (coef : Vector Coefficients 10) (b : Fin 10) {j : Nat} (hj : j < 5) :
    (exportedCoefficients coef)[5 * b.val + j] = coefficientOf coef[b] j := by
  have hband : (5 * b.val + j) / 5 = b.val := by omega
  have hindex : (5 * b.val + j) % 5 = j := by omega
  simp [exportedCoefficients, hband, hindex]

/-- EQ_SET_COEFFICIENTS reads back the set EQ_GET_COEFFICIENTS has written (41 R164, R165). -/
theorem coefficientsAt_exportedCoefficients (coef : Vector Coefficients 10) (b : Fin 10) :
    coefficientsAt (exportedCoefficients coef) b = coef[b] := by
  have h0 := exportedCoefficients_entry coef b (j := 0) (by decide)
  have h1 := exportedCoefficients_entry coef b (j := 1) (by decide)
  have h2 := exportedCoefficients_entry coef b (j := 2) (by decide)
  have h3 := exportedCoefficients_entry coef b (j := 3) (by decide)
  have h4 := exportedCoefficients_entry coef b (j := 4) (by decide)
  simp only [Nat.add_zero] at h0
  simp only [coefficientsAt, h0, h1, h2, h3, h4, coefficientOf]

theorem loadCoefficients_exportedCoefficients (e : Equalizer) :
    (loadCoefficients (exportedCoefficients e.coef) e).coef = e.coef := by
  ext b hb
  rw [loadCoefficients_coef, Vector.getElem_ofFn]
  exact coefficientsAt_exportedCoefficients e.coef ⟨b, hb⟩

theorem exec_eqGetCoefficients (s : State) :
    exec .eqGetCoefficients s =
      .next { s with regs := { s.regs with status := 1, coefArr := exportedCoefficients s.eq.coef } } := rfl

theorem exec_eqSetCoefficients_initialized {s : State} (h : s.eq.initialized = true) :
    exec .eqSetCoefficients s =
      .next { s with regs := { s.regs with status := 1 }, eq := loadCoefficients s.regs.coefArr s.eq } := by
  simp only [exec, execEqSetCoefficients, if_pos h]
  rfl

theorem exec_eqSetCoefficients_uninitialized {s : State} (h : s.eq.initialized = false) :
    exec .eqSetCoefficients s = .next { s with regs := { s.regs with status := 0 } } := by
  simp only [exec, execEqSetCoefficients, h, Bool.false_eq_true, if_false]
  rfl

/-- Settles O40: coefficient j of band b is entry 5b + j both ways, so that the second command undoes the first. -/
theorem coefficientExportAndImport : Obligations.CoefficientExportAndImport := by
  refine ⟨fun s => ⟨_, exec_eqGetCoefficients s, rfl, fun b => ?_⟩,
    fun s hs => ⟨_, exec_eqSetCoefficients_initialized hs, rfl, fun b => ⟨?_, ?_⟩⟩,
    fun s => exec_eqSetCoefficients_uninitialized, fun s hs => ?_⟩
  · exact ⟨exportedCoefficients_entry s.eq.coef b (j := 0) (by decide), exportedCoefficients_entry _ b (by decide),
      exportedCoefficients_entry _ b (by decide), exportedCoefficients_entry _ b (by decide),
      exportedCoefficients_entry _ b (by decide)⟩
  · simp [coefficientsAt]
  · simp
  · exact ⟨_, _, exec_eqGetCoefficients s, exec_eqSetCoefficients_initialized hs,
      loadCoefficients_exportedCoefficients s.eq, rfl⟩

end Sys2Proof.Machine
end

section
/-! SUPPORT. Who reaches the sample RAM (20_memory R71 to R78): a refused access and every command but two leave it, a write
of a sample changes its four bytes, and a process command stores one block inside the window, computed from its input block,
the equalizer and the controller. -/

namespace Sys2Proof.Machine

open Sys2Proof.Claims

/-! ## Accesses of the port -/

/-- The port takes an access of a whole word at a multiple of 4, and no other (20_memory R73). -/
theorem accessAligned_iff {addr : Word} {size : AccessSize} :
    accessAligned addr size = true ↔ size = .word ∧ addr.toNat % 4 = 0 := by
  simp [accessAligned]

/-- Settles O7: the port answers what it does not take with a bus error, on a read and on a write. -/
theorem busErrorChangesNoState : Obligations.BusErrorChangesNoState := by
  intro s addr data size rest h
  have hrefused : ¬ accessAligned addr size = true := mt accessAligned_iff.mp h
  constructor <;> simp only [step, serve, if_neg hrefused, respond]

/-- The four bytes of a word, each at its place (20_memory R75). -/
theorem extractLsb'_bytes (b3 b2 b1 b0 : Byte) :
    (b3 ++ b2 ++ b1 ++ b0).extractLsb' 0 8 = b0 ∧ (b3 ++ b2 ++ b1 ++ b0).extractLsb' 8 8 = b1 ∧
      (b3 ++ b2 ++ b1 ++ b0).extractLsb' 16 8 = b2 ∧ (b3 ++ b2 ++ b1 ++ b0).extractLsb' 24 8 = b3 := by
  refine ⟨BitVec.extractLsb'_append_eq_right, ?_, ?_, ?_⟩
  · rw [BitVec.extractLsb'_append_eq_of_le (by decide)]
    exact BitVec.extractLsb'_append_eq_right
  · rw [BitVec.extractLsb'_append_eq_of_le (by decide), BitVec.extractLsb'_append_eq_of_le (by decide)]
    exact BitVec.extractLsb'_append_eq_right
  · rw [BitVec.extractLsb'_append_eq_of_le (by decide), BitVec.extractLsb'_append_eq_of_le (by decide)]
    exact BitVec.extractLsb'_append_eq_left

theorem readByte_of_readWord {m : Memory} {a : Nat} {w : Word} (h : readWord m a = w) :
    readByte m a = w.extractLsb' 0 8 ∧ readByte m (a + 1) = w.extractLsb' 8 8 ∧
      readByte m (a + 2) = w.extractLsb' 16 8 ∧ readByte m (a + 3) = w.extractLsb' 24 8 := by
  obtain ⟨h0, h1, h2, h3⟩ := extractLsb'_bytes (readByte m (a + 3)) (readByte m (a + 2)) (readByte m (a + 1)) (readByte m a)
  subst h
  exact ⟨h0.symm, h1.symm, h2.symm, h3.symm⟩

theorem writesAt_sample {s : State} {w : Word} {i : Nat} (h : i < sampleRamWords) :
    writesAt s (0x1000 + 4 * i) w s.regs (writeSram s.sram i w) := by
  have hb := sampleRamWords_bounds
  have hl := locate_sample h
  have hwrite := writesAt_locate (s := s) (w := w) (o := 0x1000 + 4 * i) (by omega) (by omega) (by simp [hl])
  rwa [hl] at hwrite

/-- Settles O10: the write stores one word at the sample's address, and the word read back gives its four bytes. -/
theorem sampleRamKeepsTheWordWritten : Obligations.SampleRamKeepsTheWordWritten := by
  intro s w i hi hs
  have hword : readSram (writeSram s.sram i w) i = w := readSram_writeSram_self hs
  obtain ⟨hb0, hb1, hb2, hb3⟩ := readByte_of_readWord hword
  exact ⟨_, writesAt_sample hi, hword, hb0, hb1, hb2, hb3, fun j => readSram_writeSram_ne,
    fun a => readByte_writeWord_ne⟩

/-! ## The two process commands -/

section

variable {s : State} {n : Nat}

theorem exec_eqProcessBlock_inRange (h : inRange s n) :
    exec (.eqProcessBlock n) s = .next (complete (storeOutput (filterBlock s.eq (inputBlock s n)).1
      { s with eq := (filterBlock s.eq (inputBlock s n)).2 })) := by
  simp only [exec, execEqProcessBlock, if_pos (buffersInRam_iff.mpr h)]

theorem exec_ctrlProcessBlock_inRange (h : inRange s n) :
    exec (.ctrlProcessBlock n) s =
      .next (complete (storeOutput (tick (inputBlock s n) s).1 (tick (inputBlock s n) s).2)) := by
  simp only [exec, execCtrlProcessBlock, if_pos (buffersInRam_iff.mpr h)]

theorem exec_eqProcessBlock_outOfRange (h : ¬ inRange s n) : exec (.eqProcessBlock n) s = .next (failWith none s) := by
  simp only [exec, execEqProcessBlock, if_neg (mt buffersInRam_iff.mp h)]

theorem exec_ctrlProcessBlock_outOfRange (h : ¬ inRange s n) :
    exec (.ctrlProcessBlock n) s = .next (failWith (some .invalidParameters) s) := by
  simp only [exec, execCtrlProcessBlock, if_neg (mt buffersInRam_iff.mp h)]

end

/-! ## Commands that leave the sample RAM alone -/

theorem arrayGetter_sram (v : Vector F32 10) (s : State) (m : Memory) :
    arrayGetter v { s with sram := m } = { arrayGetter v s with sram := m } := by
  unfold arrayGetter
  split <;> rfl

section

variable {i : Instr} {s t : State} {n : Nat}

/-- A command other than the two process commands acts alike on every sample RAM and hands it on (20_memory R78). -/
theorem exec_withSram (hi : ∀ n, i ≠ .eqProcessBlock n ∧ i ≠ .ctrlProcessBlock n) (h : exec i s = .next t)
    (m : Memory) : exec i { s with sram := m } = .next { t with sram := m } := by
  cases i <;> simp only [exec] at h ⊢ <;> cases h
  case eqProcessBlock n => exact absurd rfl (hi n).1
  case ctrlProcessBlock n => exact absurd rfl (hi n).2
  case eqSetBandGain => unfold execEqSetBandGain; split <;> rfl
  case eqSetAllGains => unfold execEqSetAllGains; split <;> rfl
  case eqSetCoefficients => unfold execEqSetCoefficients; split <;> rfl
  case ctrlStart => unfold execCtrlStart; split <;> rfl
  case ctrlGetCorrectionGains => exact congrArg _ (arrayGetter_sram ..)
  case ctrlGetMeasuredLevels => exact congrArg _ (arrayGetter_sram ..)
  all_goals rfl

/-- The RAM handed on is the RAM found: the case of `exec_withSram` with the command's own RAM. -/
theorem exec_sram_of_not_process (hi : ∀ n, i ≠ .eqProcessBlock n ∧ i ≠ .ctrlProcessBlock n) (h : exec i s = .next t) :
    t.sram = s.sram := by
  have hsame : exec i s = .next { t with sram := s.sram } := exec_withSram hi h s.sram
  rw [h] at hsame
  injection hsame with ht
  rw [ht]

theorem exec_sram_of_outOfRange (hr : ¬ inRange s n)
    (h : exec (.eqProcessBlock n) s = .next t ∨ exec (.ctrlProcessBlock n) s = .next t) : t.sram = s.sram := by
  rw [exec_eqProcessBlock_outOfRange hr, exec_ctrlProcessBlock_outOfRange hr] at h
  rcases h with h | h <;> cases h <;> rfl

/-- Settles O18: any other command acts alike on every sample RAM, and a failed range check ends the command at once. -/
theorem onlyProcessCommandsAccessTheRam : Obligations.OnlyProcessCommandsAccessTheRam := by
  refine ⟨fun i s t hi h => ⟨fun a => ?_, exec_withSram hi h⟩, fun n s t hr h a => ?_⟩
  · rw [exec_sram_of_not_process hi h]
  · rw [exec_sram_of_outOfRange hr h]

/-- Everything a command can do to the sample RAM: leave it, or store one block that lies inside it at ARG_OUT
(20_memory R76 to R78). -/
theorem exec_sram_cases (h : exec i s = .next t) :
    t.sram = s.sram ∨ ∃ outbuf : List F32, s.regs.argOut.toNat + outbuf.length ≤ sampleRamWords ∧
      t.sram = writeBlock s.sram s.regs.argOut.toNat outbuf := by
  by_cases hi : ∀ n, i ≠ .eqProcessBlock n ∧ i ≠ .ctrlProcessBlock n
  · exact .inl (exec_sram_of_not_process hi h)
  obtain ⟨n, hn⟩ : ∃ n, i = .eqProcessBlock n ∨ i = .ctrlProcessBlock n := by
    simpa only [not_forall, not_and_or, not_not] using hi
  by_cases hr : inRange s n
  · right
    rcases hn with rfl | rfl
    · rw [exec_eqProcessBlock_inRange hr] at h
      cases h
      exact ⟨(filterBlock s.eq (inputBlock s n)).1, by simpa using hr.2, rfl⟩
    · rw [exec_ctrlProcessBlock_inRange hr] at h
      cases h
      exact ⟨(tick (inputBlock s n) s).1, by simpa using hr.2, by simp [bufferBase]⟩
  · left
    rcases hn with rfl | rfl
    · exact exec_sram_of_outOfRange hr (.inl h)
    · exact exec_sram_of_outOfRange hr (.inr h)

end

/-! ## The canonical form and the window -/

section

variable {s t : State}

/-- A block stored inside the window keeps the canonical form and adds no cell outside it (20_memory R71, R77). -/
theorem ramSafe_writeBlock {base : Nat} {vs : List F32} (hfit : base + vs.length ≤ sampleRamWords)
    (ht : t.sram = writeBlock s.sram base vs) (hs : ramSafe s) : ramSafe t := by
  obtain ⟨hwf, hwindow⟩ := hs
  unfold ramSafe
  rw [ht]
  refine ⟨memoryWf_writeBlock hwf, fun c hc => ?_⟩
  rcases mem_writeBlock hc with hold | ⟨hlow, hhigh⟩
  · exact hwindow c hold
  · unfold sramAddress at *
    omega

theorem ramSafe_writeLocation {addr : Word} {w : Word} (hs : ramSafe s) : ramSafe (writeLocation (locate addr) w s) := by
  rcases writeLocation_sram_cases (locate addr) w s with ⟨i, hl, ht⟩ | ht
  · exact ramSafe_writeBlock (vs := [w]) (locate_sample_lt hl) ht hs
  · simpa only [ramSafe, ht] using hs

theorem exec_keeps_ramSafe {i : Instr} (h : exec i s = .next t) (hs : ramSafe s) : ramSafe t := by
  rcases exec_sram_cases h with ht | ⟨outbuf, hfit, ht⟩
  · simpa only [ramSafe, ht] using hs
  · exact ramSafe_writeBlock hfit ht hs

/-- Settles O26: a step empties the sample RAM, leaves it, writes a sample of the window or runs a command. -/
theorem stepKeepsTheSampleRamCanonical : Obligations.StepKeepsTheSampleRamCanonical := by
  intro s t hs h
  rcases step_cases h with ⟨-, rfl⟩ | ⟨rest, -, rfl⟩ | ⟨a, rest, r, -, -, rfl⟩ | ⟨addr, w, rest, -, -, rfl⟩ |
    ⟨w, rest, e, -, -, rfl⟩ | ⟨w, rest, i, -, -, hexec⟩
  · exact hs
  · exact ⟨rfl, fun c hc => absurd hc List.not_mem_nil⟩
  · exact hs
  · exact ramSafe_writeLocation (s := { s with pending := rest }) hs
  · exact hs
  · exact exec_keeps_ramSafe hexec hs

end

/-! ## Overlapping buffers -/

section

variable {s s' : State} {n : Nat}

theorem inputBlock_congr
    (h : ∀ k < n, readSram s.sram (s.regs.argIn.toNat + k) = readSram s'.sram (s'.regs.argIn.toNat + k)) :
    inputBlock s n = inputBlock s' n :=
  List.map_congr_left fun k hk => h k (List.mem_range.mp hk)

/-- Beyond its input block a tick reads the equalizer and the controller alone (44 R234, R242). -/
theorem tick_congr (inbuf : List F32) (heq : s.eq = s'.eq) (hcal : s.cal = s'.cal) :
    (tick inbuf s).1 = (tick inbuf s').1 ∧ (tick inbuf s).2.eq = (tick inbuf s').2.eq ∧
      (tick inbuf s).2.cal = (tick inbuf s').2.cal := by
  unfold tick applyTick
  rw [hcal]
  split <;> simp only [heq, hcal, and_self]

/-- A stored block reads the same at its own place in either memory, whatever the memories held (20_memory R76). -/
theorem readSram_writeBlock_congr {m m' : Memory} {base base' k : Nat} {out out' : List F32} (hwf : memoryWf m = true)
    (hwf' : memoryWf m' = true) (hout : out = out') (hk : k < out.length) :
    readSram (writeBlock m base out) (base + k) = readSram (writeBlock m' base' out') (base' + k) := by
  subst hout
  rw [readSram_writeBlock hwf hk, readSram_writeBlock hwf' hk]

/-- Settles O39: the whole input block is read before a word is stored, so equal input blocks give equal output blocks. -/
theorem overlapGivesTheDisjointResult : Obligations.OverlapGivesTheDisjointResult := by
  intro s s' t t' n i hi hr hr' hwf hwf' heq hcal hin h h'
  have hblock : inputBlock s n = inputBlock s' n := inputBlock_congr hin
  rcases hi with rfl | rfl
  · rw [exec_eqProcessBlock_inRange hr, hblock, heq] at h
    rw [exec_eqProcessBlock_inRange hr'] at h'
    cases h
    cases h'
    exact ⟨rfl, hcal, fun k hk => readSram_writeBlock_congr hwf hwf' rfl (by simpa using hk)⟩
  · rw [exec_ctrlProcessBlock_inRange hr, hblock] at h
    rw [exec_ctrlProcessBlock_inRange hr'] at h'
    cases h
    cases h'
    obtain ⟨hout, hteq, htcal⟩ := tick_congr (inputBlock s' n) heq hcal
    refine ⟨hteq, htcal, fun k hk => ?_⟩
    simp only [complete_eq, setStatus_sram, storeOutput_sram, tick_regs, tick_sram, bufferBase]
    exact readSram_writeBlock_congr hwf hwf' hout (by simpa using hk)

end

end Sys2Proof.Machine
end

section
/-! SUPPORT. Decoding as one bound on the operand (30_encoding R100 to R109): a format admits the operand values below its
bound, and its must-be-0 bits are zero exactly when w[31:8] is below it. The opcode map and the commands agree under that
reading, and the settlements about words follow. -/

namespace Sys2Proof

/-! ## The formats (30_encoding R102 to R104) -/

/-- How many operand values the format admits: none but 0, a BAND of 4 bits, or an N of 16 bits. -/
def OpcodeRow.operandBound : OpcodeRow → Nat
  | .formatN _ => 1
  | .formatB _ => 16
  | .formatP _ => 65536

/-- The command the row makes of an operand value. -/
def OpcodeRow.command : OpcodeRow → Nat → Instr
  | .formatN i, _ => i
  | .formatB command, operand => command operand
  | .formatP command, operand => command operand

/-- Why a word of the row with a nonzero must-be-0 bit is rejected (30_encoding R109). -/
def OpcodeRow.rejection : OpcodeRow → DecodeError
  | .formatN _ => .nonzeroAboveOpcode
  | .formatB _ => .nonzeroAboveBand
  | .formatP _ => .nonzeroAboveLength

/-! ## Decoding through the rows (30_encoding R100) -/

section

variable {w : Word} {i : Instr} {row : OpcodeRow}

theorem decode_of_opcodeRow_none (h : opcodeRow (w.toNat % 256) = none) : decode w = .error .unassignedOpcode := by
  obtain ⟨hop, -⟩ := field_word w
  simp only [decode, hop, h]

/-- The must-be-0 bits of each format say that w[31:8] is below the format's bound, and then the operand field is all of
w[31:8]. -/
theorem decode_of_opcodeRow (h : opcodeRow (w.toNat % 256) = some row) :
    decode w = if w.toNat / 256 < row.operandBound then .ok (row.command (w.toNat / 256)) else .error row.rejection := by
  obtain ⟨hop, hnone, haboveBand, haboveLength, hband, hlength⟩ := field_word w
  simp only [decode, hop, h, hnone, haboveBand, haboveLength, hband, hlength]
  cases row <;> simp only [OpcodeRow.operandBound, OpcodeRow.command, OpcodeRow.rejection]
  case formatN i => exact ite_congr (propext (by omega)) (fun _ => rfl) fun _ => rfl
  case formatB command => exact ite_congr (propext (by omega)) (fun hlt => by rw [Nat.mod_eq_of_lt hlt]) fun _ => rfl
  case formatP command => exact ite_congr (propext (by omega)) (fun hlt => by rw [Nat.mod_eq_of_lt hlt]) fun _ => rfl

theorem decode_of_operandBound_le (h : opcodeRow (w.toNat % 256) = some row) (hle : row.operandBound ≤ w.toNat / 256) :
    decode w = .error row.rejection := by
  rw [decode_of_opcodeRow h, if_neg (Nat.not_lt.mpr hle)]

theorem decode_eq_ok_iff :
    decode w = .ok i ↔ ∃ row, opcodeRow (w.toNat % 256) = some row ∧ w.toNat / 256 < row.operandBound ∧
      row.command (w.toNat / 256) = i := by
  constructor
  · intro hd
    cases hrow : opcodeRow (w.toNat % 256) with
    | none =>
      rw [decode_of_opcodeRow_none hrow] at hd
      cases hd
    | some row =>
      rw [decode_of_opcodeRow hrow] at hd
      split at hd
      next hlt => exact ⟨row, rfl, hlt, Except.ok.inj hd⟩
      next => cases hd
  · rintro ⟨row, hrow, hlt, rfl⟩
    rw [decode_of_opcodeRow hrow, if_pos hlt]

end

/-! ## The opcode map and the commands (30_encoding R106) -/

/-- A row under an opcode makes well-formed commands with that opcode and the operand it is given. -/
theorem opcodeRow_command {op operand : Nat} {row : OpcodeRow} (h : opcodeRow op = some row)
    (hlt : operand < row.operandBound) :
    (row.command operand).wellFormed = true ∧ (row.command operand).opcode = op ∧
      (row.command operand).operandField = operand := by
  unfold opcodeRow at h
  split at h <;> cases h
  case h_3 | h_5 | h_9 | h_12 => exact ⟨decide_eq_true hlt, rfl, rfl⟩
  all_goals exact ⟨rfl, rfl, (Nat.lt_one_iff.mp hlt).symm⟩

/-- Every well-formed command has its row, under its opcode. -/
theorem exists_opcodeRow {i : Instr} (h : i.wellFormed = true) :
    ∃ row, opcodeRow i.opcode = some row ∧ i.operandField < row.operandBound ∧ row.command i.operandField = i := by
  cases i
  case eqSetBandGain | eqGetBandFrequency | eqProcessBlock | ctrlProcessBlock =>
    exact ⟨_, rfl, of_decide_eq_true h, rfl⟩
  all_goals exact ⟨_, rfl, Nat.one_pos, rfl⟩

/-- Settles O1: the word of a command holds the opcode of the command's row and an operand below the row's bound. -/
theorem decodeOfEncodeIsTheCommand : Obligations.DecodeOfEncodeIsTheCommand := by
  intro i hwf
  have hop := opcode_lt i
  have hword := encode_toNat hwf
  have hlow : (encode i).toNat % 256 = i.opcode := by omega
  have hhigh : (encode i).toNat / 256 = i.operandField := by omega
  rw [decode_eq_ok_iff, hlow, hhigh]
  exact exists_opcodeRow hwf

/-- Settles O2: the command's opcode is the word's low byte and its operand field the rest of the word. -/
theorem encodeOfDecodeIsTheWord : Obligations.EncodeOfDecodeIsTheWord := by
  intro w i hd
  obtain ⟨row, hrow, hlt, rfl⟩ := decode_eq_ok_iff.mp hd
  obtain ⟨hwf, hop, hoperand⟩ := opcodeRow_command hrow hlt
  refine ⟨hwf, BitVec.eq_of_toNat_eq ?_⟩
  rw [encode_toNat hwf, hop, hoperand]
  exact Nat.mod_add_div w.toNat 256

/-! ## Rejected words (30_encoding R109) -/

section

variable {op : Nat}

/-- The reserved opcodes have no row. -/
theorem opcodeRow_reserved
    (h : op = 0x00 ∨ (0x02 ≤ op ∧ op ≤ 0x0F) ∨ (0x18 ≤ op ∧ op ≤ 0x1F) ∨ 0x2C ≤ op) : opcodeRow op = none := by
  unfold opcodeRow
  split
  case h_22 => rfl
  all_goals omega

theorem opcodeRow_formatB (h : op = 0x11 ∨ op = 0x17) : ∃ command, opcodeRow op = some (.formatB command) := by
  rcases h with rfl | rfl <;> exact ⟨_, rfl⟩

theorem opcodeRow_formatP (h : op = 0x13 ∨ op = 0x22) : ∃ command, opcodeRow op = some (.formatP command) := by
  rcases h with rfl | rfl <;> exact ⟨_, rfl⟩

theorem opcodeRow_formatN
    (h : op = 0x01 ∨ op = 0x10 ∨ op = 0x12 ∨ (0x14 ≤ op ∧ op ≤ 0x16) ∨ op = 0x20 ∨ op = 0x21 ∨
      (0x23 ≤ op ∧ op ≤ 0x2B)) : ∃ i, opcodeRow op = some (.formatN i) := by
  rcases h with rfl | rfl | rfl | ⟨hlow, hhigh⟩ | rfl | rfl | ⟨hlow, hhigh⟩
  case inr.inr.inr.inl | inr.inr.inr.inr.inr.inr => interval_cases op <;> exact ⟨_, rfl⟩
  all_goals exact ⟨_, rfl⟩

end

/-- Settles O3: a reserved opcode has no row, and a nonzero must-be-0 bit puts w[31:8] at or above the bound of the row. -/
theorem reservedEncodingsAreRejected : Obligations.ReservedEncodingsAreRejected := by
  refine fun w => ⟨fun hop => decode_of_opcodeRow_none (opcodeRow_reserved hop), ?band, ?length, ?opcode⟩
  case band =>
    rintro ⟨hop, hbits⟩
    obtain ⟨command, hrow⟩ := opcodeRow_formatB hop
    exact decode_of_operandBound_le hrow (show 16 ≤ w.toNat / 256 by omega)
  case length =>
    rintro ⟨hop, hbits⟩
    obtain ⟨command, hrow⟩ := opcodeRow_formatP hop
    exact decode_of_operandBound_le hrow (show 65536 ≤ w.toNat / 256 by omega)
  case opcode =>
    rintro ⟨hop, hbits⟩
    obtain ⟨i, hrow⟩ := opcodeRow_formatN hop
    exact decode_of_operandBound_le hrow (show 1 ≤ w.toNat / 256 by omega)

/-- Settles O4: eleven closed words, each decoded by evaluation. -/
theorem wordsOfTheSpecDecode : Obligations.WordsOfTheSpecDecode := by
  unfold Obligations.WordsOfTheSpecDecode
  decide

end Sys2Proof
end

section
/-! SUPPORT. The step that takes a rejected command word from the port (30_encoding R110). -/

namespace Sys2Proof.Machine

theorem runCommandWord_of_decode_error {s : State} {w : Word} {e : DecodeError} (h : decode w = .error e) :
    runCommandWord w s = .next (rejectWord s) := by
  simp only [runCommandWord, h]

/-- Settles O6: the rejection of a word writes STATUS alone. -/
theorem rejectedWordWritesOnlyStatus : Obligations.RejectedWordWritesOnlyStatus := by
  intro s w rest e hp hd
  rw [step_commandWord hp, runCommandWord_of_decode_error hd]
  rfl

end Sys2Proof.Machine
end

section
/-! SUPPORT. FilterDesigner (40 R130 to R136): binary32 results that are exact, the values the accuracy contract fixes, and the
design at 0 dB and at fc = 0 made from them. -/

namespace Sys2Proof.Machine

/-! ## Patterns fixed by their value -/

/-- A pattern is its place in the order and its sign; only the two zeros share a place. -/
theorem eq_of_orderKey_of_signBit {v w : F32} (hkey : orderKey v = orderKey w) (hsign : signBit v = signBit w) :
    v = w := by
  have hmag : v.toNat % 2 ^ 31 = w.toNat % 2 ^ 31 := by
    unfold orderKey signed at hkey
    rw [hsign] at hkey
    split at hkey <;> omega
  rw [eq_ofSignMagnitude v, eq_ofSignMagnitude w, hsign, hmag]

theorem orderKey_eq_of_ratValue {v w : F32} (hv : isFinite v = true) (hw : isFinite w = true)
    (h : ratValue v = ratValue w) : orderKey v = orderKey w := by
  rw [ratValue_eq_valueAt hv, ratValue_eq_valueAt hw] at h
  exact valueAt_strictMonoOn.injOn (orderKey_of_isFinite hv) (orderKey_of_isFinite hw) h

theorem ratValue_lt_iff_orderKey {v w : F32} (hv : isFinite v = true) (hw : isFinite w = true) :
    ratValue v < ratValue w ↔ orderKey v < orderKey w := by
  rw [ratValue_eq_valueAt hv, ratValue_eq_valueAt hw,
    valueAt_strictMonoOn.lt_iff_lt (orderKey_of_isFinite hv) (orderKey_of_isFinite hw)]

theorem abs_ratValue_le_largestFinite {w : F32} (hw : isFinite w = true) : |ratValue w| ≤ ratValue largestFinite := by
  have hmin : isFinite 0xFF7FFFFF#32 = true := by decide
  have hmax : isFinite largestFinite = true := by decide
  have hminValue : ratValue 0xFF7FFFFF#32 = -ratValue largestFinite :=
    ratValue_true_magnitude (k := 2139095039) (by decide)
  have hminKey : orderKey 0xFF7FFFFF#32 = -2139095039 := by decide
  have hmaxKey : orderKey largestFinite = 2139095039 := by decide
  obtain ⟨hlow, hhigh⟩ := orderKey_of_isFinite hw
  rw [infinityMagnitude_eq] at hlow hhigh
  rw [abs_le, ← hminValue, ← not_lt, ← not_lt, ratValue_lt_iff_orderKey hw hmin, ratValue_lt_iff_orderKey hmax hw,
    hminKey, hmaxKey]
  omega

theorem ratValue_largestFinite : ratValue largestFinite = 2 ^ 128 - 2 ^ 104 := by
  rw [ratValue_eq_exactValue (show unpack largestFinite = .finite false 16777215 104 from rfl)]
  norm_num [exactValue, signed]

theorem abs_ratValue_lt_overflowThreshold {w : F32} (hw : isFinite w = true) :
    |(ratValue w : ℝ)| < (overflowThreshold : ℝ) := by
  have hle := abs_ratValue_le_largestFinite hw
  have hlt : ratValue largestFinite < overflowThreshold := by
    rw [ratValue_largestFinite, overflowThreshold]
    norm_num
  exact_mod_cast hle.trans_lt hlt

/-- A binary32 value is its own rounding; the sign tells the two zeros apart. -/
theorem eq_of_roundsToNearestEven {w r : F32} (hw : isFinite w = true) (h : roundsToNearestEven (ratValue w : ℝ) r)
    (hsign : signBit r = signBit w) : r = w := by
  rw [roundsToNearestEven, if_pos (abs_ratValue_lt_overflowThreshold hw)] at h
  obtain ⟨hr, hnearest⟩ := h
  have hvalue : ratValue r = ratValue w := by
    have hle := (hnearest w hw).1
    rw [sub_self, abs_zero, abs_nonpos_iff, sub_eq_zero] at hle
    exact_mod_cast hle
  exact eq_of_orderKey_of_signBit (orderKey_eq_of_ratValue hr hw hvalue) hsign

/-- A rounded product or quotient whose exact value is that of a pattern with the right sign is that pattern. -/
theorem fMul_eq_of_ratValue {a b w : F32} (ha : isFinite a = true) (hb : isFinite b = true) (hw : isFinite w = true)
    (hvalue : ratValue a * ratValue b = ratValue w) (hsign : (signBit a != signBit b) = signBit w) : fMul a b = w := by
  obtain ⟨-, -, hround⟩ := sumsAndProductsRoundToNearestEven a b ha hb
  rw [← Rat.cast_mul, hvalue] at hround
  exact eq_of_roundsToNearestEven hw hround ((signBit_fMul ha hb).trans hsign)

theorem fDiv_eq_of_ratValue {a b w : F32} (ha : isFinite a = true) (hb : isFinite b = true) (hne : ratValue b ≠ 0)
    (hw : isFinite w = true) (hvalue : ratValue a / ratValue b = ratValue w)
    (hsign : (signBit a != signBit b) = signBit w) : fDiv a b = w := by
  have hround := fDiv_roundsToNearestEven ha hb hne
  rw [← Rat.cast_div, hvalue] at hround
  exact eq_of_roundsToNearestEven hw hround ((signBit_fDiv ha hb hne).trans hsign)

/-! ## Exact products and quotients -/

theorem ratValue_fOne : ratValue fOne = 1 := by
  rw [ratValue_eq_exactValue (show unpack fOne = .finite false 8388608 (-23) from rfl)]
  norm_num [exactValue, signed]

theorem ratValue_fTwo : ratValue fTwo = 2 := by
  rw [ratValue_eq_exactValue (show unpack fTwo = .finite false 8388608 (-22) from rfl)]
  norm_num [exactValue, signed]

theorem isFinite_fOne : isFinite fOne = true := by decide

theorem signBit_fOne : signBit fOne = false := by decide

/-- Multiplying and dividing by 1.0 changes no pattern but a NaN's, an infinity included. -/
theorem fMul_fOne_and_fDiv_fOne {a : F32} (h : isNaN a = false) : fMul a fOne = a ∧ fDiv a fOne = a := by
  have hone : ratValue fOne ≠ 0 := by rw [ratValue_fOne]; exact one_ne_zero
  rcases unpack_cases a with ⟨hnan, -⟩ | ⟨hinf, -⟩ | ⟨hfin, -⟩
  · simp [h] at hnan
  · obtain ⟨-, -, -, -, hdiv, -⟩ := infinity_with_finite (signBit a) isFinite_fOne
    obtain ⟨hmul, -⟩ := infinity_of_nonzero (signBit a) isFinite_fOne hone
    rw [signBit_fOne, Bool.bne_false, ← hinf] at hdiv hmul
    exact ⟨hmul, hdiv⟩
  · exact ⟨fMul_eq_of_ratValue hfin isFinite_fOne hfin (by rw [ratValue_fOne, mul_one]) (by simp [signBit_fOne]),
      fDiv_eq_of_ratValue hfin isFinite_fOne hone hfin (by rw [ratValue_fOne, div_one]) (by simp [signBit_fOne])⟩

theorem fDiv_self {a : F32} (ha : isFinite a = true) (hne : ratValue a ≠ 0) : fDiv a a = fOne :=
  fDiv_eq_of_ratValue ha ha hne isFinite_fOne (by rw [div_self hne, ratValue_fOne]) (by simp [signBit_fOne])

theorem signBit_signedZero (s : Bool) : signBit (ofSignMagnitude s 0) = s := signBit_ofSignMagnitude (by norm_num)

theorem fMul_signedZero (z : Bool) {a : F32} (ha : isFinite a = true) :
    fMul (ofSignMagnitude z 0) a = ofSignMagnitude (z != signBit a) 0 :=
  fMul_eq_of_ratValue (isFinite_zero z) ha (isFinite_zero _) (by simp [ratValue_signedZero])
    (by simp [signBit_signedZero])

theorem fDiv_signedZero (z : Bool) {a : F32} (ha : isFinite a = true) (hne : ratValue a ≠ 0) :
    fDiv (ofSignMagnitude z 0) a = ofSignMagnitude (z != signBit a) 0 :=
  fDiv_eq_of_ratValue (isFinite_zero z) ha hne (isFinite_zero _) (by simp [ratValue_signedZero])
    (by simp [signBit_signedZero])

/-- Doubling a nonzero value overflows or gives a nonzero value: `q` itself is nearer to 2q than a zero is. -/
theorem fMul_fTwo_cases {q : F32} (hq : isFinite q = true) (hne : ratValue q ≠ 0) :
    (∃ s, fMul fTwo q = ofSignMagnitude s infinityMagnitude) ∨
      isFinite (fMul fTwo q) = true ∧ ratValue (fMul fTwo q) ≠ 0 := by
  obtain ⟨-, -, hround⟩ := sumsAndProductsRoundToNearestEven fTwo q (by decide) hq
  rw [roundsToNearestEven] at hround
  split at hround
  case isFalse => exact .inl ⟨_, hround⟩
  case isTrue =>
    obtain ⟨hfin, hnearest⟩ := hround
    refine .inr ⟨hfin, fun hzero => hne ?_⟩
    have hle := (hnearest q hq).1
    rw [hzero, ratValue_fTwo] at hle
    push_cast at hle
    rw [zero_sub, abs_neg, abs_mul, abs_two, show (ratValue q : ℝ) - 2 * ratValue q = -ratValue q by ring,
      abs_neg] at hle
    have hreal : |(ratValue q : ℝ)| ≤ 0 := by linarith
    exact_mod_cast abs_nonpos_iff.mp hreal

theorem fDiv_signedZero_doubled (z : Bool) {q : F32} (hq : isFinite q = true) (hne : ratValue q ≠ 0) :
    ∃ s, fDiv (ofSignMagnitude z 0) (fMul fTwo q) = ofSignMagnitude s 0 := by
  rcases fMul_fTwo_cases hq hne with ⟨y, hinf⟩ | ⟨hfin, hnonzero⟩
  · obtain ⟨-, -, -, -, -, hdiv⟩ := infinity_with_finite y (isFinite_zero z)
    rw [hinf]
    exact ⟨_, hdiv⟩
  · exact ⟨_, fDiv_signedZero z hfin hnonzero⟩

/-! ## What the accuracy contract fixes (00_scope R20) -/

/-- Less than one unit around a binary32 value holds no other one: the unit reaches its neighbours on both sides. -/
theorem orderKey_eq_of_withinUlps {tolerance : Rat} {r c below above : F32} (htol : tolerance < 1)
    (hc : isFinite c = true) (hbelow : isFinite below = true) (habove : isFinite above = true)
    (hlow : orderKey below + 1 = orderKey c) (hhigh : orderKey c + 1 = orderKey above)
    (h : withinUlps tolerance r (ratValue c : ℝ)) : orderKey r = orderKey c := by
  obtain ⟨hbound, -⟩ := h
  obtain ⟨hr, hunit⟩ := hbound (by exact_mod_cast abs_ratValue_le_largestFinite hc)
  have hbelowc : ratValue below < ratValue c := (ratValue_lt_iff_orderKey hbelow hc).mpr (by omega)
  have hcabove : ratValue c < ratValue above := (ratValue_lt_iff_orderKey hc habove).mpr (by omega)
  have hunitBelow : |ratValue r - ratValue c| ≤ tolerance * (ratValue c - ratValue below) := by
    exact_mod_cast hunit below c hbelow hc (by exact_mod_cast hbelowc.le) le_rfl hbelowc
  have hunitAbove : |ratValue r - ratValue c| ≤ tolerance * (ratValue above - ratValue c) := by
    exact_mod_cast hunit c above hc habove le_rfl (by exact_mod_cast hcabove.le) hcabove
  have hafter : ratValue below < ratValue r := by
    have := neg_abs_le (ratValue r - ratValue c)
    have := mul_lt_of_lt_one_left (sub_pos.mpr hbelowc) htol
    linarith
  have hbefore : ratValue r < ratValue above := by
    have := le_abs_self (ratValue r - ratValue c)
    have := mul_lt_of_lt_one_left (sub_pos.mpr hcabove) htol
    linarith
  rw [ratValue_lt_iff_orderKey hbelow hr] at hafter
  rw [ratValue_lt_iff_orderKey hr habove] at hbefore
  omega

theorem eq_fOne_of_withinUlps {tolerance : Rat} {r : F32} (htol : tolerance < 1) (h : withinUlps tolerance r 1) :
    r = fOne := by
  have hvalue : (1 : ℝ) = (ratValue fOne : ℝ) := by rw [ratValue_fOne, Rat.cast_one]
  rw [hvalue] at h
  have hkey := orderKey_eq_of_withinUlps (below := 0x3F7FFFFF#32) (above := 0x3F800001#32) htol isFinite_fOne (by decide)
    (by decide) (by decide) (by decide) h
  have hkeyOne : orderKey fOne = 1065353216 := by decide
  have hsign : signBit r = false := by
    by_contra hs
    rw [Bool.not_eq_false] at hs
    rw [hkeyOne, orderKey, signed, if_pos hs] at hkey
    omega
  exact eq_of_orderKey_of_signBit hkey (hsign.trans signBit_fOne.symm)

/-- The two ways the statements write a zero of either sign. -/
theorem eq_signedZero {x : F32} (h : x = 0x00000000#32 ∨ x = 0x80000000#32) : ∃ z, x = ofSignMagnitude z 0 :=
  h.elim (⟨false, ·⟩) (⟨true, ·⟩)

theorem signedZero_cases (z : Bool) : ofSignMagnitude z 0 = 0x00000000#32 ∨ ofSignMagnitude z 0 = 0x80000000#32 := by
  cases z
  · exact .inl rfl
  · exact .inr rfl

/-- POW10 of a zero gain over 40.0 is 1.0 under any tolerance below one unit (40 R133). -/
theorem pow10_of_zero_gain {p : Primitives} {tolerance : Rat} (hp : accuratePrimitives tolerance p) (htol : tolerance < 1)
    {g : F32} (hg : g = 0x00000000#32 ∨ g = 0x80000000#32) : p.pow10 (fDiv g fForty) = fOne := by
  obtain ⟨-, -, hpow, -⟩ := hp
  obtain ⟨z, rfl⟩ := eq_signedZero hg
  have hquot : fDiv (ofSignMagnitude z 0) fForty = ofSignMagnitude z 0 := by cases z <;> rfl
  have h := hpow _ (isFinite_zero z)
  rw [ratValue_signedZero, Rat.cast_zero, Real.rpow_zero] at h
  rw [hquot]
  exact eq_fOne_of_withinUlps htol h

/-! ## The design (40 R131 to R135) -/

theorem designWith_b1_eq_a1 (p : Primitives) (fc g q fs : F32) :
    (designWith p fc g q fs).b1 = (designWith p fc g q fs).a1 := rfl

section

variable {p : Primitives} {fc g q fs alpha : F32}

/-- With A = 1.0 and an alpha that is no NaN, alpha * A and alpha / A are both alpha. -/
theorem designWith_of_unit_amplitude (hA : p.pow10 (fDiv g fForty) = fOne)
    (halpha : fDiv (p.sin (fDiv (fMul fTwoPi fc) fs)) (fMul fTwo q) = alpha) (hnan : isNaN alpha = false) :
    (designWith p fc g q fs).b2 = (designWith p fc g q fs).a2 ∧
      (designWith p fc g q fs).b0 = fDiv (fAdd fOne alpha) (fAdd fOne alpha) := by
  obtain ⟨hmul, hdiv⟩ := fMul_fOne_and_fDiv_fOne hnan
  simp only [designWith, hA, halpha, hmul, hdiv, and_self]

/-- At fc = 0 the angle is a zero (40 R134). -/
theorem angle_of_zero_frequency (hfc : fc = 0x00000000#32 ∨ fc = 0x80000000#32) (hfs : isFinite fs = true)
    (hne : ratValue fs ≠ 0) : ∃ z, fDiv (fMul fTwoPi fc) fs = ofSignMagnitude z 0 := by
  obtain ⟨z, rfl⟩ := eq_signedZero hfc
  have hmul : fMul fTwoPi (ofSignMagnitude z 0) = ofSignMagnitude z 0 := by cases z <;> rfl
  rw [hmul]
  exact ⟨_, fDiv_signedZero z hfs hne⟩

/-- With COS = 1.0 and an alpha that is a zero of either sign, each sum is 1.0. -/
theorem designWith_of_zero_alpha (hA : isFinite (p.pow10 (fDiv g fForty)) = true)
    (hne : ratValue (p.pow10 (fDiv g fForty)) ≠ 0) (hcos : p.cos (fDiv (fMul fTwoPi fc) fs) = fOne)
    {z : Bool} (halpha : fDiv (p.sin (fDiv (fMul fTwoPi fc) fs)) (fMul fTwo q) = ofSignMagnitude z 0) :
    designWith p fc g q fs = ⟨fOne, fMinusTwo, fOne, fMinusTwo, fOne⟩ := by
  have hadd (y : Bool) : fAdd fOne (ofSignMagnitude y 0) = fOne := by cases y <;> rfl
  have hsub (y : Bool) : fSub fOne (ofSignMagnitude y 0) = fOne := by cases y <;> rfl
  have hone : fDiv fOne fOne = fOne := rfl
  have htwo : fDiv (fMul fMinusTwo fOne) fOne = fMinusTwo := rfl
  simp only [designWith, hcos, halpha, fMul_signedZero z hA, fDiv_signedZero z hA hne, hadd, hsub, hone, htwo]

end

/-- Settles O28: A is 1.0 at 0 dB, so both halves of the design are one formula; at fc = 0 alpha is a zero. -/
theorem flatDesignIsTheIdentityFilter : Obligations.FlatDesignIsTheIdentityFilter := by
  refine ⟨fun p tolerance fc g q fs hp htol hg => ?flat,
    fun p tolerance fc g q fs hp hfc hfs hfs0 hq hq0 hA hA0 => ?zero⟩
  case flat =>
    have hA := pow10_of_zero_gain hp htol hg
    refine ⟨hA, designWith_b1_eq_a1 p fc g q fs, fun hnan => ?_⟩
    obtain ⟨hnumerator, hfirst⟩ := designWith_of_unit_amplitude (fc := fc) (q := q) (fs := fs) hA rfl hnan
    exact ⟨hnumerator, fun hfin hne => hfirst.trans (fDiv_self hfin hne)⟩
  case zero =>
    obtain ⟨-, -, -, -, hexact⟩ := hp
    obtain ⟨y, hangle⟩ := angle_of_zero_frequency hfc hfs hfs0
    obtain ⟨hsin, hcos⟩ := hexact _ (signedZero_cases y)
    obtain ⟨x, hsin⟩ := eq_signedZero hsin
    rw [← hangle] at hsin hcos
    obtain ⟨z, halpha⟩ := fDiv_signedZero_doubled x hq hq0
    rw [← hsin] at halpha
    exact designWith_of_zero_alpha hA hA0 hcos halpha

theorem exec_fdDesign (s : State) :
    exec .fdDesign s =
      .next (complete (setDesignOut (design s.regs.argFc s.regs.argGain s.regs.argQ s.regs.argFs) s)) := rfl

/-- Settles O27: the five outputs of `design`, written to DESIGN_OUT with OK. -/
theorem fdDesignResult : Obligations.FdDesignResult := by
  intro s
  refine ⟨rfl, ?_⟩
  rw [exec_fdDesign, complete_eq, statusOk_eq]
  rfl

end Sys2Proof.Machine
end

section
/-! SUPPORT. The cascade (41 R151 to R154): the memory two neighbouring sections share, and the order of samples and
sections. -/

namespace Sys2Proof.Machine

open Sys2Proof.Claims

/-! ## Linked delay lines -/

section

variable {e e' : Equalizer} {i : Instr} {s t : State}

/-- The invariant speaks of the delay lines alone (41 R154). -/
theorem delaysLinked_of_delay_eq (h : e'.delay = e.delay) (he : delaysLinked e) : delaysLinked e' := by
  simpa only [delaysLinked, h] using he

/-- Ten equal delay lines whose inputs are their outputs are linked. -/
theorem delaysLinked_replicate {v w : F32} (h : e.delay = Vector.replicate 10 ⟨v, w, v, w⟩) : delaysLinked e := by
  intro b
  simp [h]

/-- What section b sends out is what section b + 1 takes in, and both remember it (41 R151 to R153). -/
theorem delaysLinked_cascadeSample (x : F32) (he : delaysLinked e) :
    delaysLinked { e with delay := (cascadeSample e.coef e.delay x).2 } := by
  intro b
  obtain ⟨hy1, -⟩ := he b
  have hb : b.val < 10 := by omega
  have hnext : cascadeInput e.coef e.delay x (b.val + 1) =
      (sectionStep e.coef[b.val] e.delay[b.val] (cascadeInput e.coef e.delay x b.val)).1 := by
    rw [cascadeInput, dif_pos hb]
  simp only [cascadeSample_delay, sectionStep_x1, sectionStep_x2, sectionStep_y1, sectionStep_y2]
  exact ⟨hnext.symm, hy1⟩

theorem delaysLinked_cascadeBlock (inbuf : List F32) (he : delaysLinked e) :
    delaysLinked { e with delay := (cascadeBlock e.coef e.delay inbuf).2 } := by
  induction inbuf generalizing e with
  | nil => exact he
  | cons x rest ih =>
    rw [cascadeBlock_cons]
    have hrest := ih (delaysLinked_cascadeSample x he)
    exact hrest

theorem delaysLinked_filterBlock (inbuf : List F32) (he : delaysLinked e) : delaysLinked (filterBlock e inbuf).2 := by
  rcases filterBlock_cases e inbuf with ⟨-, h⟩ | ⟨-, h⟩ <;> rw [h]
  · exact delaysLinked_cascadeBlock inbuf he
  · exact he

theorem exec_keeps_delaysLinked (h : exec i s = .next t) (hs : delaysLinked s.eq) : delaysLinked t.eq := by
  rcases exec_eq_cases h with ht | ⟨-, ht⟩ | ⟨b, -, -, ht⟩ | ⟨-, -, gains, q, ht⟩ | ⟨n, -, ht⟩ |
    ⟨-, -, ht⟩ | ⟨-, ht⟩ <;> rw [ht]
  · exact hs
  · exact delaysLinked_replicate rfl
  · exact delaysLinked_of_delay_eq (setBand_delay ..) hs
  · exact delaysLinked_of_delay_eq (setAllBands_delay ..) hs
  · exact delaysLinked_filterBlock _ hs
  · exact delaysLinked_of_delay_eq (loadCoefficients_delay ..) hs
  · exact delaysLinked_replicate rfl

/-- Settles O24: a command clears every delay line, leaves them all, or filters, and each sample moves the two memories of a
link together. -/
theorem stepKeepsTheDelayLinesLinked : Obligations.StepKeepsTheDelayLinesLinked := by
  refine ⟨delaysLinked_reset, fun s t hs h => ?_⟩
  rcases step_eq_cases h with ⟨rest, -, ht⟩ | ⟨-, ht | ⟨i, u, hu, hexec⟩⟩
  · exact ht ▸ delaysLinked_reset
  · exact ht ▸ hs
  · exact exec_keeps_delaysLinked hexec (hu ▸ hs)

end

/-! ## Sample by sample and section by section -/

section

variable (coef : Vector Coefficients 10)

/-- One section over a whole block, as `sectionBySection` runs it (41 R153). -/
def blockSection (v : List F32 × Vector DelayLine 10) (b : Fin 10) : List F32 × Vector DelayLine 10 :=
  ((sectionBlock coef[b] v.2[b] v.1).1, v.2.set b (sectionBlock coef[b] v.2[b] v.1).2)

theorem sectionBySection_eq (delay : Vector DelayLine 10) (inbuf : List F32) :
    sectionBySection coef delay inbuf = (List.finRange 10).foldl (blockSection coef) (inbuf, delay) := rfl

/-- Whether the delay line of section b is written before or after other sections run makes no difference (41 R151). -/
theorem foldl_cascadeSection_set {b : Fin 10} {bs : List (Fin 10)} (hb : b ∉ bs) (x : F32) (delay : Vector DelayLine 10)
    (d : DelayLine) :
    bs.foldl (cascadeSection coef) (x, delay.set b d) =
      ((bs.foldl (cascadeSection coef) (x, delay)).1, (bs.foldl (cascadeSection coef) (x, delay)).2.set b d) := by
  induction bs generalizing x delay with
  | nil => rfl
  | cons c bs ih =>
    obtain ⟨hne, hmem⟩ := not_or.mp (mt List.mem_cons.mpr hb)
    have hval : b.val ≠ c.val := Fin.val_ne_of_ne hne
    have hsection : cascadeSection coef (x, delay.set b d) c =
        ((cascadeSection coef (x, delay) c).1, (cascadeSection coef (x, delay) c).2.set b d) := by
      simp only [cascadeSection, Fin.getElem_fin, Vector.getElem_set_ne _ _ hval, Vector.set_comm _ _ hval]
    rw [List.foldl_cons, List.foldl_cons, hsection]
    exact ih hmem _ _

theorem foldl_blockSection_nil (bs : List (Fin 10)) (delay : Vector DelayLine 10) :
    bs.foldl (blockSection coef) ([], delay) = ([], delay) := by
  induction bs with
  | nil => rfl
  | cons b bs ih => simpa [blockSection, sectionBlock] using ih

/-- The first sample may run through all the sections before the rest of the block enters the first one: what it leaves in the
delay line of section b waits there, as no later section touches that line (41 R153). -/
theorem foldl_blockSection_cons {bs : List (Fin 10)} (hbs : bs.Nodup) (x : F32) (rest : List F32)
    (delay : Vector DelayLine 10) :
    bs.foldl (blockSection coef) (x :: rest, delay) =
      let r := bs.foldl (cascadeSection coef) (x, delay)
      let t := bs.foldl (blockSection coef) (rest, r.2)
      (r.1 :: t.1, t.2) := by
  induction bs generalizing x rest delay with
  | nil => rfl
  | cons b bs ih =>
    obtain ⟨hb, hbs⟩ := List.nodup_cons.mp hbs
    simp only [List.foldl_cons, blockSection, cascadeSection, sectionBlock, ih hbs, foldl_cascadeSection_set coef hb,
      Fin.getElem_fin, Vector.getElem_set_self, Vector.set_set]

/-- Settles O38: both orders give the first sample's output, then the same recursion on the rest with the same delay lines. -/
theorem cascadeEqualsSectionBySection : Obligations.CascadeEqualsSectionBySection := by
  intro coef delay inbuf
  rw [sectionBySection_eq]
  induction inbuf generalizing delay with
  | nil => rw [cascadeBlock_nil, foldl_blockSection_nil]
  | cons x rest ih =>
    rw [cascadeBlock_cons, ih, foldl_blockSection_cons coef (List.nodup_finRange 10)]
    rfl

end

end Sys2Proof.Machine
end

section
/-! SUPPORT. The setters, EQ_INIT, EQ_RESET and EQ_GET_BAND_FREQUENCY (41 R150, R155 to R157, R163, R166, R167): the next state
of each command, written out once. -/

namespace Sys2Proof.Machine

/-! ## EQ_INIT, EQ_RESET and EQ_GET_BAND_FREQUENCY -/

section

variable (s : State)

theorem exec_eqInit :
    exec .eqInit s = .next { s with regs := { s.regs with status := 1 }, eq := flatEqualizer } := rfl

theorem exec_eqReset :
    exec .eqReset s = .next { s with
      regs := { s.regs with status := 1 }, eq := { s.eq with delay := Vector.replicate 10 DelayLine.rest } } := rfl

theorem exec_eqGetBandFrequency (band : Nat) :
    exec (.eqGetBandFrequency band) s = .next { s with regs := { s.regs with
      status := 1, resultF := if h : band < 10 then bandFreq[band] else bandFreqSentinel } } := rfl

end

/-- Settles O29: each part of the flat equalizer, and the delay lines at rest. -/
theorem eqInitAndResetResult : Obligations.EqInitAndResetResult := by
  intro s
  refine ⟨⟨_, exec_eqInit s, rfl, rfl, fun b => ⟨?coef, ?bands, ?delay⟩⟩, _, exec_eqReset s, rfl, fun b => ?cleared⟩
  case coef => simp [flatEqualizer, designBand, fZero, defaultQ, sampleRate]
  case bands => simp [flatEqualizer, fZero, defaultQ]
  case delay => simp [flatEqualizer, fZero]
  case cleared => simp [DelayLine.rest]

/-- Settles O41: the entry of the table for each band, and the sentinel past it. -/
theorem eqGetBandFrequencyResult : Obligations.EqGetBandFrequencyResult := by
  intro s band
  refine ⟨_, exec_eqGetBandFrequency s band, rfl, ?_, ?_, ?_, ?_, ?_, ?_, ?_, ?_, ?_, ?_, fun hband => ?past⟩
  case past => exact dif_neg (by omega)
  all_goals rintro rfl; rfl

/-! ## EQ_SET_BAND_GAIN -/

section

variable {s s' t t' : State} {band : Nat}

theorem exec_eqSetBandGain_initialized (b : Fin 10) (h : s.eq.initialized = true) :
    exec (.eqSetBandGain b.val) s = .next { s with
      regs := { s.regs with status := 1 }, eq := setBand b s.regs.argGain s.regs.argQ s.eq } := by
  simp only [exec, execEqSetBandGain, dif_pos (And.intro h b.isLt)]
  rfl

theorem exec_eqSetBandGain_fails (h : s.eq.initialized = false ∨ 9 < band) :
    exec (.eqSetBandGain band) s = .next { s with regs := { s.regs with status := 0 } } := by
  have hnot : ¬ (s.eq.initialized = true ∧ band < 10) := by
    rintro ⟨hinit, hband⟩
    rcases h with h | h
    · rw [h] at hinit
      contradiction
    · omega
  simp only [exec, execEqSetBandGain, dif_neg hnot]
  rfl

/-- Of the two operands only their clamped values matter (41 R155). -/
theorem setBand_congr (b : Fin 10) {g g' q q' : F32} (hg : clampGain g = clampGain g') (hq : clampQ q = clampQ q')
    (e : Equalizer) : setBand b g q e = setBand b g' q' e := by
  simp only [setBand, hg, hq]

theorem exec_eqSetBandGain_congr (heq : s.eq = s'.eq) (hg : clampGain s.regs.argGain = clampGain s'.regs.argGain)
    (hq : clampQ s.regs.argQ = clampQ s'.regs.argQ) (h : exec (.eqSetBandGain band) s = .next t)
    (h' : exec (.eqSetBandGain band) s' = .next t') : t.eq = t'.eq := by
  by_cases hruns : s.eq.initialized = true ∧ band < 10
  · obtain ⟨hinit, hband⟩ := hruns
    rw [exec_eqSetBandGain_initialized ⟨band, hband⟩ hinit] at h
    rw [exec_eqSetBandGain_initialized ⟨band, hband⟩ (heq ▸ hinit)] at h'
    cases h
    cases h'
    simp only [setBand_congr _ hg hq, heq]
  · have hfails : s.eq.initialized = false ∨ 9 < band := by
      rw [not_and_or, Bool.not_eq_true] at hruns
      exact hruns.imp_right fun hband => by omega
    rw [exec_eqSetBandGain_fails hfails] at h
    rw [exec_eqSetBandGain_fails (heq ▸ hfails)] at h'
    cases h
    cases h'
    exact heq

end

/-- Settles O30: the band's entry of the two vectors is set, any other entry is the old one. -/
theorem eqSetBandGainResult : Obligations.EqSetBandGainResult := by
  refine fun s band => ⟨?runs, exec_eqSetBandGain_fails⟩
  rintro b rfl hinit
  refine ⟨_, exec_eqSetBandGain_initialized b hinit, rfl, ?coef, ?bands, fun o ho => ?others⟩
  case coef =>
    simp only [setBand_coef, Fin.getElem_fin, Vector.getElem_set_self]
    rfl
  case bands =>
    simp only [setBand_bands, Fin.getElem_fin, Vector.getElem_set_self]
    rfl
  case others =>
    have hne : b.val ≠ o.val := Fin.val_ne_of_ne ho.symm
    simp only [setBand_coef, setBand_bands, Fin.getElem_fin, Vector.getElem_set_ne _ _ hne, and_self]

/-- Settles O31: 50.0 and the bound have one clamped value. -/
theorem outOfRangeSettingActsAsTheBound : Obligations.OutOfRangeSettingActsAsTheBound := by
  have hgain : clampGain 0x42480000#32 = clampGain 0x41400000#32 := by decide
  have hq : clampQ 0x42480000#32 = clampQ 0x41A00000#32 := by decide
  exact fun s band g q => ⟨fun t t' => exec_eqSetBandGain_congr rfl hgain rfl,
    fun t t' => exec_eqSetBandGain_congr rfl rfl hq⟩

/-! ## EQ_SET_ALL_GAINS -/

section

variable {s : State}

theorem exec_eqSetAllGains_initialized (h : s.eq.initialized = true) :
    exec .eqSetAllGains s = .next { s with
      regs := { s.regs with status := 1 }, eq := setAllBands s.regs.gainArr s.regs.argQ s.eq } := by
  simp only [exec, execEqSetAllGains, if_pos h]
  rfl

theorem exec_eqSetAllGains_uninitialized (h : s.eq.initialized = false) :
    exec .eqSetAllGains s = .next { s with regs := { s.regs with status := 0 } } := by
  simp only [exec, execEqSetAllGains, h, Bool.false_eq_true, if_false]
  rfl

end

/-- Settles O32: each entry of the two vectors is the design and the record of its band. -/
theorem eqSetAllGainsResult : Obligations.EqSetAllGainsResult := by
  refine fun s => ⟨fun hinit => ⟨_, exec_eqSetAllGains_initialized hinit, rfl, fun b => ⟨?coef, ?bands⟩⟩,
    exec_eqSetAllGains_uninitialized⟩
  case coef =>
    simp only [setAllBands_coef, Fin.getElem_fin, Vector.getElem_ofFn]
    rfl
  case bands =>
    simp only [setAllBands_bands, Fin.getElem_fin, Vector.getElem_ofFn]
    rfl

/-- Entry by entry, the listed ones are set and the others are kept. -/
theorem getElem_foldl_set {α : Type} {n : Nat} (f : Fin n → α) (bs : List (Fin n)) (v : Vector α n) (o : Fin n) :
    (bs.foldl (fun v b => v.set b (f b)) v)[o] = if o ∈ bs then f o else v[o] := by
  induction bs generalizing v with
  | nil => simp
  | cons b bs ih =>
    rw [List.foldl_cons, ih]
    by_cases hob : o = b
    · subst hob
      simp
    · simp [hob, Vector.getElem_set_ne _ _ (Fin.val_ne_of_ne (Ne.symm hob))]

theorem foldl_set_finRange {α : Type} {n : Nat} (f : Fin n → α) (v : Vector α n) :
    (List.finRange n).foldl (fun v b => v.set b (f b)) v = Vector.ofFn f := by
  ext i hi
  rw [Vector.getElem_ofFn]
  simpa using getElem_foldl_set f (List.finRange n) v ⟨i, hi⟩

/-- Bands set one after another are two vectors written entry by entry (41 R156, R163). -/
theorem foldl_setBand (gains : Vector F32 10) (q : F32) (bs : List (Fin 10)) (e : Equalizer) :
    bs.foldl (fun e b => setBand b gains[b] q e) e = { e with
      coef := bs.foldl (fun v (b : Fin 10) => v.set b (designBand b (clampGain gains[b]) (clampQ q))) e.coef
      bands := bs.foldl (fun v (b : Fin 10) => v.set b ⟨clampGain gains[b], clampQ q, false⟩) e.bands } := by
  induction bs generalizing e with
  | nil => rfl
  | cons b bs ih => exact ih (setBand b gains[b] q e)

theorem foldl_setBand_finRange (gains : Vector F32 10) (q : F32) (e : Equalizer) :
    (List.finRange 10).foldl (fun e b => setBand b gains[b] q e) e = setAllBands gains q e := by
  rw [foldl_setBand, foldl_set_finRange, foldl_set_finRange]
  rfl

/-- Settles O33: as eq_init stays true each of the ten commands sets its band, and ten set bands are all bands. -/
theorem setAllGainsIsTenSetBandGains : Obligations.SetAllGainsIsTenSetBandGains := by
  intro s t hinit h
  rw [exec_eqSetAllGains_initialized hinit] at h
  cases h
  rw [← foldl_setBand_finRange]
  refine (List.foldl_rel (r := fun e e' : Equalizer => e = e' ∧ e.initialized = true) ⟨rfl, hinit⟩ ?_).1
  rintro b - e _ ⟨rfl, he⟩
  rw [exec_eqSetBandGain_initialized b he]
  exact ⟨rfl, he⟩

end Sys2Proof.Machine
end

section
/-! SUPPORT. EQ_PROCESS_BLOCK (41 R158 to R162; 20_memory R76, R77): the next state of each outcome, and the block it stores. -/

namespace Sys2Proof.Machine

open Sys2Proof.Claims

section

variable {s : State} {n : Nat}

theorem inputSamples_eq (s : State) (n : Nat) : inputSamples s n = inputBlock s n := rfl

theorem exec_eqProcessBlock_initialized (hr : inRange s n) (h : s.eq.initialized = true) :
    exec (.eqProcessBlock n) s = .next { s with
      regs := { s.regs with status := 1 }
      eq := { s.eq with delay := (cascadeBlock s.eq.coef s.eq.delay (inputBlock s n)).2 }
      sram := writeBlock s.sram s.regs.argOut.toNat (cascadeBlock s.eq.coef s.eq.delay (inputBlock s n)).1 } := by
  rw [exec_eqProcessBlock_inRange hr, filterBlock, if_pos h]
  rfl

theorem exec_eqProcessBlock_uninitialized (hr : inRange s n) (h : s.eq.initialized = false) :
    exec (.eqProcessBlock n) s = .next { s with
      regs := { s.regs with status := 1 }, sram := writeBlock s.sram s.regs.argOut.toNat (inputBlock s n) } := by
  rw [exec_eqProcessBlock_inRange hr, filterBlock, if_neg (by simp [h])]
  rfl

/-- The block stored at ARG_OUT, word by word, and the bytes around it (20_memory R76, R77). -/
theorem stores_writeBlock {out : List F32} {f : Nat → F32} (hwf : memoryWf s.sram = true) (hlen : out.length = n)
    (hout : ∀ i (hi : i < out.length), out[i] = f i) :
    stores s n f (writeBlock s.sram s.regs.argOut.toNat out) := by
  subst hlen
  exact ⟨fun i hi => (readSram_writeBlock hwf hi).trans (hout i hi), fun a => readByte_writeBlock_ne⟩

end

/-- Settles O34: the cascade's block is stored whole; its recursion and the section's equation are the definitions. -/
theorem eqProcessBlockFilters : Obligations.EqProcessBlockFilters := by
  refine ⟨fun s n hr hinit hwf => ?_, fun coef delay x rest => ⟨cascadeBlock_nil .., cascadeBlock_cons ..⟩,
    fun c d x => rfl⟩
  refine ⟨_, exec_eqProcessBlock_initialized hr hinit, rfl, stores_writeBlock hwf (by simp) fun i hi => ?_⟩
  rw [inputSamples_eq, List.getElem?_eq_getElem hi, Option.getD_some]

/-- Settles O35: the stored block is the input block, whose words were read from the memory before the store. -/
theorem eqProcessBlockPassesThrough : Obligations.EqProcessBlockPassesThrough := fun s n hr hinit hwf =>
  ⟨_, exec_eqProcessBlock_uninitialized hr hinit, rfl,
    stores_writeBlock hwf (length_inputBlock s n) fun _ hi => getElem_readBlock hi⟩

/-- Settles O36: one bound broken breaks the range check. -/
theorem blockOutsideTheRamFails : Obligations.BlockOutsideTheRamFails := by
  intro s n h
  have hr : ¬ inRange s n := by
    rintro ⟨hin, hout⟩
    omega
  rw [exec_eqProcessBlock_outOfRange hr, exec_ctrlProcessBlock_outOfRange hr]
  exact ⟨rfl, rfl⟩

/-- No sample changes nothing, whether the equalizer is initialized or not (41 R162). -/
theorem filterBlock_nil (e : Equalizer) : filterBlock e [] = ([], e) := by
  rcases filterBlock_cases e [] with ⟨-, h⟩ | ⟨-, h⟩ <;> exact h

/-- Settles O37: the range check at n = 0 bounds the bases, and an empty block is filtered and stored without effect. -/
theorem eqProcessBlockOfNothing : Obligations.EqProcessBlockOfNothing := by
  refine fun s => ⟨fun hr => ?_, fun hr => ?_⟩
  · have hempty : inputBlock s 0 = [] := rfl
    rw [exec_eqProcessBlock_inRange hr, hempty, filterBlock_nil]
    rfl
  · rw [exec_eqProcessBlock_outOfRange hr]
    rfl

end Sys2Proof.Machine
end

section
/-! SUPPORT. The fade envelope (42_tone_generator R193). Env(n) depends on n only through its distance from the nearer end
of the tone: one equation per branch of the definition, and the reflection n ↦ 14399 - n, which swaps the two distances. -/

namespace Sys2Proof.Machine

variable {n : Nat}

/-- In the fades, the envelope is the distance from the nearer end over 480. -/
theorem envelope_of_fading (hn : n < 14400) (hk : min n (14399 - n) < 480) :
    envelope n = fDiv (fOfNat (min n (14399 - n))) (fOfNat 480) :=
  (if_neg (Nat.not_le.mpr hn)).trans (if_pos hk)

theorem envelope_of_flat (hn : n < 14400) (hk : 480 ≤ min n (14399 - n)) : envelope n = fOne :=
  (if_neg (Nat.not_le.mpr hn)).trans (if_neg (Nat.not_lt.mpr hk))

theorem envelope_after_tone (hn : 14400 ≤ n) : envelope n = fZero := if_pos hn

/-- The reflection keeps the distance from the nearer end, so it keeps the envelope. -/
theorem envelope_mirror (hn : n < 14400) : envelope (14399 - n) = envelope n := by
  have hm : 14399 - n < 14400 := by omega
  have hdist : min (14399 - n) (14399 - (14399 - n)) = min n (14399 - n) := by omega
  by_cases hk : min n (14399 - n) < 480
  · rw [envelope_of_fading hn hk, envelope_of_fading hm (hdist.trans_lt hk), hdist]
  · have hflat : 480 ≤ min n (14399 - n) := Nat.not_lt.mp hk
    rw [envelope_of_flat hn hflat, envelope_of_flat hm (hflat.trans_eq hdist.symm)]

/-- The fade-in: the start of the tone is the nearer end. -/
theorem envelope_of_fadeIn (hn : n < 480) : envelope n = fDiv (fOfNat n) (fOfNat 480) := by
  have hmin : min n (14399 - n) = n := by omega
  rw [envelope_of_fading (by omega) (by omega), hmin]

/-- Settles O55: the fade-out is the fade-in reflected, and the flat part lies 480 samples or more from both ends. -/
theorem envelopeShape : Obligations.EnvelopeShape := by
  refine fun n => ⟨envelope_of_fadeIn, fun hlo hhi => ?flat, fun hlo hhi => ?fadeOut, envelope_after_tone, envelope_mirror⟩
  case flat => exact envelope_of_flat (by omega) (by omega)
  case fadeOut => rw [← envelope_mirror hhi, envelope_of_fadeIn (by omega)]

end Sys2Proof.Machine
end

section
/-! SUPPORT. FrequencyDetector on silence (43_frequency_detector R213 to R215). A zero of either sign or a NaN is all that a
silent detector's arithmetic makes of its zeros, whatever its coefficient is; neither is above MAG_THRESHOLD. -/

namespace Sys2Proof.Machine

/-! ## Zeros and NaNs (00_scope R14, R18, R20) -/

/-- A zero of either sign, or a NaN. -/
def zeroOrNaN (w : F32) : Prop := (∃ z, w = ofSignMagnitude z 0) ∨ isNaN w = true

section

variable {a b : F32}

theorem zeroOrNaN_zero : zeroOrNaN 0 := .inl ⟨false, rfl⟩

theorem zeroOrNaN_fAdd (ha : zeroOrNaN a) (hb : zeroOrNaN b) : zeroOrNaN (fAdd a b) := by
  rcases ha with ⟨y, rfl⟩ | hnan
  · rcases hb with ⟨z, rfl⟩ | hnan
    · exact .inl ⟨_, fAdd_of_zero_sum (isFinite_zero y) (isFinite_zero z) (by simp [ratValue_signedZero])⟩
    · obtain ⟨hadd, -, -, -⟩ := isNaN_of_nan_operand (.inr hnan)
      exact .inr hadd
  · obtain ⟨hadd, -, -, -⟩ := isNaN_of_nan_operand (.inl hnan)
    exact .inr hadd

theorem zeroOrNaN_fSub (ha : zeroOrNaN a) (hb : zeroOrNaN b) : zeroOrNaN (fSub a b) := by
  rcases ha with ⟨y, rfl⟩ | hnan
  · rcases hb with ⟨z, rfl⟩ | hnan
    · exact .inl ⟨_, fSub_of_zero_difference (isFinite_zero y) (isFinite_zero z) (by simp [ratValue_signedZero])⟩
    · obtain ⟨-, hsub, -, -⟩ := isNaN_of_nan_operand (.inr hnan)
      exact .inr hsub
  · obtain ⟨-, hsub, -, -⟩ := isNaN_of_nan_operand (.inl hnan)
    exact .inr hsub

/-- Anything times a zero is a zero, or a NaN for an infinity. -/
theorem zeroOrNaN_fMul (a : F32) (hb : zeroOrNaN b) : zeroOrNaN (fMul a b) := by
  rcases hb with ⟨z, rfl⟩ | hnan
  · rcases unpack_cases a with ⟨hnan, -⟩ | ⟨hinf, -⟩ | ⟨-, m, e, hu, -⟩
    · obtain ⟨-, -, hmul, -⟩ := isNaN_of_nan_operand (.inl hnan)
      exact .inr hmul
    · rw [hinf, fMul_infinity_zero]
      exact .inr (isNaN_nanResult ..)
    · exact .inl ⟨_, fMul_of_finite hu (unpack_zero z)⟩
  · obtain ⟨-, -, hmul, -⟩ := isNaN_of_nan_operand (.inr hnan)
    exact .inr hmul

theorem zeroOrNaN_fSqrt (ha : zeroOrNaN a) : zeroOrNaN (fSqrt a) := by
  rcases ha with ⟨z, rfl⟩ | hnan
  · exact .inl ⟨z, fSqrt_of_zero (unpack_zero z)⟩
  · exact .inr (isNaN_fSqrt_of_isNaN hnan)

/-- A zero over anything is a zero, or a NaN for a zero divisor. -/
theorem zeroOrNaN_fDiv (ha : zeroOrNaN a) (b : F32) : zeroOrNaN (fDiv a b) := by
  rcases ha with ⟨z, rfl⟩ | hnan
  · rcases unpack_cases b with ⟨hnan, -⟩ | ⟨hinf, -⟩ | ⟨hfin, m, e, hu, -⟩
    · obtain ⟨-, -, -, hdiv⟩ := isNaN_of_nan_operand (.inr hnan)
      exact .inr hdiv
    · obtain ⟨-, -, -, -, -, hdiv⟩ := infinity_with_finite (signBit b) (isFinite_zero z)
      rw [hinf]
      exact .inl ⟨_, hdiv⟩
    · by_cases hne : ratValue b = 0
      · rw [ratValue_eq_exactValue hu, exactValue_eq_zero_iff] at hne
        rw [fDiv, unpack_zero, hu, divUnpacked, if_pos hne, if_pos rfl]
        exact .inr (isNaN_nanResult ..)
      · exact .inl ⟨_, fDiv_signedZero z hfin hne⟩
  · obtain ⟨-, -, -, hdiv⟩ := isNaN_of_nan_operand (.inl hnan)
    exact .inr hdiv

theorem fGt_magThreshold_of_zeroOrNaN (ha : zeroOrNaN a) : fGt a magThreshold = false := by
  rcases ha with ⟨z, rfl⟩ | hnan
  · cases z <;> decide
  · exact fLt_eq_false_of_isNaN (.inr hnan)

end

/-! ## A silent detector (43 R213 to R215) -/

section

variable {d : Detector}

/-- What +0.0 samples keep of a detector that starts at +0.0: the products of its coefficient stay zeros or become NaNs. -/
def silentDetector (d : Detector) : Prop := zeroOrNaN d.s1 ∧ zeroOrNaN d.s2

theorem silentDetector_detUpdate (h : silentDetector d) : silentDetector (detUpdate 0 d) := by
  obtain ⟨h1, h2⟩ := h
  exact ⟨zeroOrNaN_fAdd (zeroOrNaN_fSub (zeroOrNaN_fMul d.coeff h1) h2) zeroOrNaN_zero, h1⟩

theorem silentDetector_foldl (n : Nat) (h : silentDetector d) :
    silentDetector ((List.replicate n 0).foldl (fun d x => detUpdate x d) d) := by
  induction n generalizing d with
  | zero => exact h
  | succ n ih =>
    rw [List.replicate_succ, List.foldl_cons]
    exact ih (silentDetector_detUpdate h)

theorem zeroOrNaN_detMagnitude (h : silentDetector d) : zeroOrNaN (detMagnitude d) := by
  obtain ⟨h1, h2⟩ := h
  have hsquares := zeroOrNaN_fAdd (zeroOrNaN_fMul d.s1 h1) (zeroOrNaN_fMul d.s2 h2)
  have hpower := zeroOrNaN_fSub hsquares (zeroOrNaN_fMul (fMul d.coeff d.s1) h2)
  exact zeroOrNaN_fDiv (zeroOrNaN_fSqrt (zeroOrNaN_fMul fTwo hpower)) _

theorem detFinalizeWith_of_zeroOrNaN (p : Primitives) (h : zeroOrNaN (detMagnitude d)) :
    detFinalizeWith p d = levelFloorDb :=
  if_neg (by rw [fGt_magThreshold_of_zeroOrNaN h]; exact Bool.false_ne_true)

end

/-- The floor's correction is cut to the largest gain (44 R256). -/
theorem correctionOf_levelFloorDb : correctionOf levelFloorDb = gainMaxDb := fClamp_of_above (by decide) (by decide)

/-- Settles O56: silence keeps s1 and s2 zeros or NaNs, so the magnitude is one too, and that reads the floor. The length of the
window does not matter. -/
theorem silentWindowReadsTheFloor : Obligations.SilentWindowReadsTheFloor := by
  refine ⟨fun p d n h1 h2 _ _ => ?window, fun p d hnan => ?nan, correctionOf_levelFloorDb⟩
  case window =>
    have hsilent : silentDetector d := ⟨h1 ▸ zeroOrNaN_zero, h2 ▸ zeroOrNaN_zero⟩
    exact detFinalizeWith_of_zeroOrNaN p (zeroOrNaN_detMagnitude (silentDetector_foldl n hsilent))
  case nan => exact detFinalizeWith_of_zeroOrNaN p (.inr hnan)

end Sys2Proof.Machine
end

section
/-! SUPPORT. CTRL_INIT, CTRL_START, CTRL_STOP, CTRL_APPLY_GAINS and the getters (44 R232, R233, R270 to R280): the next
state of each command, written out once. -/

namespace Sys2Proof.Machine

section

variable (s : State)

theorem exec_ctrlInit :
    exec .ctrlInit s = .next { s with regs := { s.regs with status := 1 }, cal := Calibration.reset } := rfl

theorem exec_ctrlStop :
    exec .ctrlStop s = .next { s with
      regs := { s.regs with status := 1 }
      cal := { s.cal with state := .idle, band := 0, cnt := 0, iteration := 0 } } := rfl

theorem exec_ctrlGetState :
    exec .ctrlGetState s = .next { s with regs := { s.regs with
      status := 1, resultI := BitVec.ofInt 32 (stateCode s.cal.state) } } := rfl

theorem exec_ctrlGetCurrentBand :
    exec .ctrlGetCurrentBand s = .next { s with regs := { s.regs with
      status := 1, resultI := BitVec.ofInt 32 (currentBand s.cal) } } := rfl

theorem exec_ctrlGetLastError :
    exec .ctrlGetLastError s = .next { s with regs := { s.regs with
      status := 1, resultI := BitVec.ofInt 32 (errorNumber s.cal.lastError) } } := rfl

theorem exec_ctrlGetCpuUsage :
    exec .ctrlGetCpuUsage s = .next { s with regs := { s.regs with
      status := 1, resultF := Config.cpuUsage s.cal.state } } := rfl

theorem exec_ctrlGetProgress :
    exec .ctrlGetProgress s = .next { s with regs := { s.regs with status := 1, resultF := progress s.cal } } := rfl

end

section

variable {s : State}

theorem exec_ctrlStart_idle (h : s.cal.state = .idle) :
    exec .ctrlStart s = .next { s with
      regs := { s.regs with status := 1 }
      cal := { startBand 0 { s.cal with iteration := 0, band := 0 } with state := .measuring } } := by
  simp only [exec, execCtrlStart, if_pos h]
  rfl

theorem exec_ctrlStart_fails (h : s.cal.state ≠ .idle) :
    exec .ctrlStart s = .next { s with
      regs := { s.regs with status := 0 }, cal := { s.cal with lastError := .invalidState } } := by
  simp only [exec, execCtrlStart, if_neg h]
  rfl

theorem arrayGetter_done (v : Vector F32 10) (h : s.cal.state = .done) :
    arrayGetter v s = { s with regs := { s.regs with status := 1, resultArr := v } } := by
  rw [arrayGetter, if_pos h]
  rfl

theorem arrayGetter_null (v : Vector F32 10) (h : s.cal.state ≠ .done) :
    arrayGetter v s = { s with regs := { s.regs with status := 2 } } := by
  rw [arrayGetter, if_neg h]
  rfl

theorem exec_ctrlApplyGains_initialized (h : s.eq.initialized = true) :
    exec .ctrlApplyGains s = .next { s with
      regs := { s.regs with status := 1 }
      eq := setAllBands s.regs.gainArr calQ s.eq
      cal := { s.cal with cumulative := s.regs.gainArr } } := by
  simp only [exec, execCtrlApplyGains, setAllGainsCore, if_pos h]
  rfl

theorem exec_ctrlApplyGains_uninitialized (h : s.eq.initialized = false) :
    exec .ctrlApplyGains s = .next { s with
      regs := { s.regs with status := 0 }, cal := { s.cal with cumulative := s.regs.gainArr } } := by
  simp only [exec, execCtrlApplyGains, setAllGainsCore, h, Bool.false_eq_true, if_false]
  rfl

end

/-! ## CTRL_INIT and CTRL_STOP -/

/-- Settles O42: the reset value of each part of the controller, and the four parts CTRL_STOP writes. -/
theorem initAndStopResult : Obligations.InitAndStopResult := by
  refine fun s => ⟨⟨_, exec_ctrlInit s, rfl, rfl, rfl, rfl, rfl, rfl, fun b => ?arrays, rfl, rfl⟩, exec_ctrlStop s⟩
  case arrays => simp [Calibration.reset]

/-! ## The getters -/

/-- Settles O51: each register holds the number of the code, the band or -1. -/
theorem scalarGetterResults : Obligations.ScalarGetterResults := by
  refine fun s => ⟨⟨_, exec_ctrlGetState s, rfl, ?_, ?_, ?_, ?_, ?_, ?_⟩,
    ⟨_, exec_ctrlGetCurrentBand s, rfl, fun h => ?band, fun h => ?none⟩,
    ⟨_, exec_ctrlGetLastError s, rfl, ?_, ?_, ?_, ?_⟩, exec_ctrlGetCpuUsage s⟩
  case band =>
    dsimp only
    rw [currentBand, if_pos h, BitVec.ofInt_natCast]
  case none =>
    dsimp only
    rw [currentBand, if_neg h]
    rfl
  all_goals
    intro h
    dsimp only
    rw [h]
    rfl

/-- Settles O52: one value of the estimate for each state. -/
theorem progressResult : Obligations.ProgressResult := by
  refine fun s => ⟨_, exec_ctrlGetProgress s, rfl, ?rest, fun h => ?measuring, ?computed, fun h => ?done⟩
  case rest | computed => rintro (h | h) <;> simp only [progress, h] <;> rfl
  case measuring | done =>
    simp only [progress, h]
    rfl

/-- Settles O53: both commands are the array getter, which answers in Done alone. -/
theorem arrayGetterResults : Obligations.ArrayGetterResults := fun _ =>
  ⟨fun h => ⟨congrArg _ (arrayGetter_done _ h), congrArg _ (arrayGetter_done _ h)⟩,
    fun h => ⟨congrArg _ (arrayGetter_null _ h), congrArg _ (arrayGetter_null _ h)⟩⟩

/-! ## CTRL_APPLY_GAINS -/

/-- CAL_Q lies between Q_MIN and Q_MAX (00_scope R10). -/
theorem clampQ_calQ : clampQ calQ = calQ := by decide

/-- The equalizer a calibration programs: each band at its clamped gain and Q 2.0 (44 R252). -/
theorem setAllBands_calQ (gains : Vector F32 10) (e : Equalizer) (b : Fin 10) :
    (setAllBands gains calQ e).coef[b] = designBand b (clampGain gains[b]) calQ ∧
      (setAllBands gains calQ e).bands[b] = ⟨clampGain gains[b], calQ, false⟩ := by
  simp only [setAllBands_coef, setAllBands_bands, clampQ_calQ, Fin.getElem_fin, Vector.getElem_ofFn, and_self]

/-- Settles O54: GAIN_ARR is copied as it is, and SetAllGainsCore clamps what it designs with. -/
theorem ctrlApplyGainsResult : Obligations.CtrlApplyGainsResult := fun s =>
  ⟨fun h => ⟨_, exec_ctrlApplyGains_initialized h, rfl, setAllBands_calQ s.regs.gainArr s.eq⟩,
    exec_ctrlApplyGains_uninitialized⟩

end Sys2Proof.Machine
end

section
/-! SUPPORT. The controller's invariants and the sweep (44 R230, R239 to R246, R254, R263): what one measured sample does to
the controller, and from that what every block, command and step does. -/

namespace Sys2Proof.Machine

open Sys2Proof.Claims

/-! ## One measured sample -/

section

variable (mic : F32) (c : Calibration)

@[simp] theorem storeLevel_keeps_lastError : (storeLevel c).lastError = c.lastError := rfl
@[simp] theorem storeLevel_keeps_tone : (storeLevel c).tone = c.tone := rfl
@[simp] theorem storeLevel_keeps_det : (storeLevel c).det = c.det := rfl

@[simp] theorem countSample_cnt : (countSample mic c).cnt = c.cnt + 1 := rfl
@[simp] theorem countSample_lastError : (countSample mic c).lastError = c.lastError := rfl
@[simp] theorem countSample_tone_n : (countSample mic c).tone.n = c.tone.n + 1 := rfl

@[simp] theorem countSample_det_k : (countSample mic c).det.k = c.det.k := by
  unfold countSample
  split <;> rfl

@[simp] theorem countSample_det_len : (countSample mic c).det.len = c.det.len := by
  unfold countSample
  split <;> rfl

/-- The sample that ends a tone below band 9 starts the next band (44 R231, R244). -/
def startNextBand (mic : F32) (c : Calibration) : Calibration :=
  startBand (c.band + 1) { storeLevel (countSample mic c) with band := c.band + 1 }

/-- The sample that ends the tone of band 9 ends the sweep (44 R246). -/
def endSweep (mic : F32) (c : Calibration) : Calibration :=
  { storeLevel (countSample mic c) with band := c.band + 1, state := .computing }

/-- Everything one measured sample does to the controller (44 R244, R246). -/
theorem measureSample_next_cases :
    (c.cnt + 1 ≠ 14400 ∧ (measureSample mic c).2 = countSample mic c) ∨
      (c.cnt + 1 = 14400 ∧ c.band + 1 ≠ 10 ∧ (measureSample mic c).2 = startNextBand mic c) ∨
      (c.cnt + 1 = 14400 ∧ c.band + 1 = 10 ∧ (measureSample mic c).2 = endSweep mic c) := by
  rcases measureSample_cases c mic with ⟨hcnt, h⟩ | ⟨hcnt, h⟩
  · rcases finishTone_cases (countSample mic c) with ⟨hband, hf⟩ | ⟨hband, hf⟩
    · exact .inr (.inr ⟨hcnt, hband, by rw [h, hf]; rfl⟩)
    · exact .inr (.inl ⟨hcnt, hband, by rw [h, hf]; rfl⟩)
  · exact .inl ⟨hcnt, by rw [h]⟩

/-- A measured sample leaves iteration and last_error alone (44 R244, R261). -/
theorem measureSample_frame :
    (measureSample mic c).2.iteration = c.iteration ∧ (measureSample mic c).2.lastError = c.lastError := by
  rcases measureSample_next_cases mic c with ⟨-, h⟩ | ⟨-, -, h⟩ | ⟨-, -, h⟩ <;> rw [h] <;> exact ⟨rfl, rfl⟩

end

theorem measureBlock_frame (mics : List F32) (c : Calibration) :
    (measureBlock mics c).2.iteration = c.iteration ∧ (measureBlock mics c).2.lastError = c.lastError := by
  refine measureBlock_keeps c (P := fun d => d.iteration = c.iteration ∧ d.lastError = c.lastError)
    (fun mic d _ hd => ?_) mics ⟨rfl, rfl⟩
  obtain ⟨hiter, herr⟩ := measureSample_frame mic d
  exact ⟨hiter.trans hd.1, herr.trans hd.2⟩

/-! ## The invariants, operation by operation -/

section

variable {c : Calibration}

/-- The invariant while Measuring (44 R239, R263). -/
theorem controllerSafe_iff_of_measuring (h : c.state = .measuring) :
    controllerSafe c ↔ c.band < 10 ∧ c.cnt < 14400 ∧ c.iteration < 3 ∧ c.tone.n = c.cnt := by
  simp only [controllerSafe, h, numBands, totalSamplesPerTone, maxIterations]

/-- The invariant while Computing (44 R263). -/
theorem controllerSafe_iff_of_computing (h : c.state = .computing) :
    controllerSafe c ↔ c.band = 10 ∧ c.cnt = 14400 ∧ c.iteration < 3 := by
  simp only [controllerSafe, h, numBands, totalSamplesPerTone, maxIterations]

/-- The invariant while Applying (44 R263). -/
theorem controllerSafe_iff_of_applying (h : c.state = .applying) :
    controllerSafe c ↔ c.band = 10 ∧ c.cnt = 14400 ∧ c.iteration < 3 := by
  simp only [controllerSafe, h, numBands, totalSamplesPerTone, maxIterations]

/-- The invariant in Done (44 R263). -/
theorem controllerSafe_iff_of_done (h : c.state = .done) :
    controllerSafe c ↔ c.band = 10 ∧ c.cnt = 14400 ∧ c.iteration + 1 = 3 := by
  simp only [controllerSafe, h, numBands, totalSamplesPerTone, maxIterations]

/-- The bins of the ten bands lie in the window (43 R212). -/
theorem detectorBin_bandFreqAt_le {b : Nat} (hb : b < 10) : detectorBin (bandFreqAt b) 4800 ≤ 4800 := by
  have hbins : ∀ b : Fin 10, detectorBin (bandFreqAt b) 4800 ≤ 4800 := by decide
  exact hbins ⟨b, hb⟩

/-- A started band has its units in range: the tone at sample 0 and the detector on the band's bin (44 R231). -/
theorem unitsSafe_startBand {b : Nat} (hb : b < 10) (herr : c.lastError ≠ .bufferOverflow) :
    unitsSafe (startBand b c) :=
  ⟨Nat.zero_le _, detectorBin_bandFreqAt_le hb, Nat.le_add_left 1 4799, Nat.le_refl _, herr⟩

theorem measureSample_keeps_controllerSafe (mic : F32) (hm : c.state = .measuring) (hs : controllerSafe c) :
    controllerSafe (measureSample mic c).2 := by
  obtain ⟨hband, hcnt, hiter, htone⟩ := (controllerSafe_iff_of_measuring hm).mp hs
  rcases measureSample_next_cases mic c with ⟨hn, h⟩ | ⟨-, hb, h⟩ | ⟨hn, hb, h⟩ <;> rw [h]
  · have hcnt' : c.cnt + 1 < 14400 := by omega
    exact (controllerSafe_iff_of_measuring (c := countSample mic c) hm).mpr ⟨hband, hcnt', hiter, congrArg (· + 1) htone⟩
  · have hband' : c.band + 1 < 10 := by omega
    exact (controllerSafe_iff_of_measuring (c := startNextBand mic c) hm).mpr ⟨hband', Nat.zero_lt_succ _, hiter, rfl⟩
  · exact (controllerSafe_iff_of_computing rfl).mpr ⟨hb, hn, hiter⟩

theorem measureSample_keeps_unitsSafe (mic : F32) (hm : c.state = .measuring) (hs : controllerSafe c)
    (hu : unitsSafe c) : unitsSafe (measureSample mic c).2 := by
  obtain ⟨hband, hcnt, -, htone⟩ := (controllerSafe_iff_of_measuring hm).mp hs
  obtain ⟨-, hk, hlen, hlen', herr⟩ := hu
  have hn : c.tone.n + 1 ≤ 14400 := by omega
  rcases measureSample_next_cases mic c with ⟨-, h⟩ | ⟨-, hb, h⟩ | ⟨-, -, h⟩ <;> rw [h]
  · simp only [unitsSafe, countSample_tone_n, countSample_det_k, countSample_det_len, countSample_lastError]
    exact ⟨hn, hk, hlen, hlen', herr⟩
  · exact unitsSafe_startBand (by omega) herr
  · simp only [unitsSafe, endSweep, storeLevel_keeps_tone, storeLevel_keeps_det, storeLevel_keeps_lastError,
      countSample_tone_n, countSample_det_k, countSample_det_len, countSample_lastError]
    exact ⟨hn, hk, hlen, hlen', herr⟩

theorem measureBlock_keeps_controllerSafe (mics : List F32) (hs : controllerSafe c) :
    controllerSafe (measureBlock mics c).2 :=
  measureBlock_keeps c (fun mic _ => measureSample_keeps_controllerSafe mic) mics hs

theorem measureBlock_keeps_unitsSafe (mics : List F32) (hs : controllerSafe c) (hu : unitsSafe c) :
    unitsSafe (measureBlock mics c).2 :=
  (measureBlock_keeps c (P := fun d => controllerSafe d ∧ unitsSafe d)
    (fun mic _ hm hd => ⟨measureSample_keeps_controllerSafe mic hm hd.1, measureSample_keeps_unitsSafe mic hm hd.1 hd.2⟩)
    mics ⟨hs, hu⟩).2

/-- The start of a sweep (44 R233, R250). -/
theorem controllerSafe_startSweep {iteration : Nat} (hiter : iteration < 3) :
    controllerSafe (startBand 0 { c with iteration := iteration, band := 0, state := .measuring }) :=
  (controllerSafe_iff_of_measuring rfl).mpr ⟨Nat.zero_lt_succ _, Nat.zero_lt_succ _, hiter, rfl⟩

theorem advanceIteration_keeps (ha : c.state = .applying) (hs : controllerSafe c) (hu : unitsSafe c) :
    controllerSafe (advanceIteration c) ∧ unitsSafe (advanceIteration c) := by
  obtain ⟨hband, hcnt, hiter⟩ := (controllerSafe_iff_of_applying ha).mp hs
  have ⟨_, _, _, _, herr⟩ := hu
  rcases advanceIteration_cases c with ⟨hmore, h⟩ | ⟨hlast, h⟩ <;> rw [h]
  · exact ⟨controllerSafe_startSweep hmore, unitsSafe_startBand (by decide) herr⟩
  · rw [controllerSafe_iff_of_done rfl]
    unfold maxIterations at hlast
    exact ⟨⟨hband, hcnt, by dsimp only; omega⟩, hu⟩

end

/-! ## Commands and steps -/

section

variable {i : Instr} {s t : State}

theorem tick_keeps_controllerInvariants (inbuf : List F32) (hs : controllerSafe s.cal) (hu : unitsSafe s.cal) :
    controllerSafe (tick inbuf s).2.cal ∧ unitsSafe (tick inbuf s).2.cal := by
  rcases tick_cases inbuf s with ⟨-, h⟩ | ⟨hc, h⟩ | ⟨ha, h⟩ | ⟨-, h⟩ <;> rw [h]
  · exact ⟨measureBlock_keeps_controllerSafe inbuf hs, measureBlock_keeps_unitsSafe inbuf hs hu⟩
  · exact ⟨(controllerSafe_iff_of_applying rfl).mpr ((controllerSafe_iff_of_computing hc).mp hs), hu⟩
  · exact advanceIteration_keeps ha hs hu
  · exact ⟨hs, hu⟩

/-- Writing an error code other than BufferOverflow touches no other part of the invariants (44 R261). -/
theorem lastError_keeps_controllerInvariants {c : Calibration} {code : ErrorCode} (hcode : code ≠ .bufferOverflow)
    (hs : controllerSafe c) (hu : unitsSafe c) :
    controllerSafe { c with lastError := code } ∧ unitsSafe { c with lastError := code } := by
  obtain ⟨hn, hk, hlen, hlen', -⟩ := hu
  exact ⟨hs, hn, hk, hlen, hlen', hcode⟩

theorem exec_keeps_controllerInvariants (h : exec i s = .next t) (hs : controllerSafe s.cal) (hu : unitsSafe s.cal) :
    controllerSafe t.cal ∧ unitsSafe t.cal := by
  have ⟨_, _, _, _, herr⟩ := hu
  rcases exec_cal_cases h with ht | ⟨-, ht⟩ | ⟨-, -, ht⟩ | ⟨-, -, ht⟩ | ⟨n, -, -, ht⟩ | ⟨n, -, -, ht⟩ | ⟨-, ht⟩ |
    ⟨-, ht⟩ <;> rw [ht]
  · exact ⟨hs, hu⟩
  · exact ⟨⟨rfl, rfl, rfl⟩, by decide⟩
  · exact ⟨controllerSafe_startSweep (Nat.zero_lt_succ _), unitsSafe_startBand (by decide) herr⟩
  · exact lastError_keeps_controllerInvariants (by decide) hs hu
  · exact tick_keeps_controllerInvariants _ hs hu
  · exact lastError_keeps_controllerInvariants (by decide) hs hu
  · exact ⟨⟨rfl, rfl, rfl⟩, hu⟩
  · exact ⟨hs, hu⟩

/-- Everything a step can do to the controller: it serves a reset, leaves the controller alone, or runs a command. -/
theorem step_cal_cases (h : step s = .next t) :
    (∃ rest, s.pending = .reset :: rest ∧ t.cal = Calibration.reset) ∨
      ((∀ rest, s.pending ≠ .reset :: rest) ∧ t.cal = s.cal) ∨
      ∃ w rest i u, s.pending = .write 0 .word w :: rest ∧ decode w = .ok i ∧ u.cal = s.cal ∧ exec i u = .next t := by
  rcases step_cases h with ⟨hp, rfl⟩ | ⟨rest, hp, rfl⟩ | ⟨a, rest, r, hp, ha, rfl⟩ | ⟨addr, w, rest, hp, -, rfl⟩ |
    ⟨w, rest, e, hp, -, rfl⟩ | ⟨w, rest, i, hp, hd, hexec⟩
  · exact .inr (.inl ⟨by simp [hp], rfl⟩)
  · exact .inl ⟨rest, hp, rfl⟩
  · exact .inr (.inl ⟨by simp [hp, ha], rfl⟩)
  · exact .inr (.inl ⟨by simp [hp], writeLocation_cal ..⟩)
  · exact .inr (.inl ⟨by simp [hp], rfl⟩)
  · exact .inr (.inr ⟨w, rest, i, { s with pending := rest, response := .ack }, hp, hd, rfl, hexec⟩)

/-- Settles O23: a step resets the controller, leaves it alone or runs a command, and each command keeps the invariants, a
tick sample by sample. -/
theorem stepKeepsTheControllerInvariants : Obligations.StepKeepsTheControllerInvariants := by
  intro s t hs hu h
  rcases step_cal_cases h with ⟨rest, -, ht⟩ | ⟨-, ht⟩ | ⟨w, rest, i, u, -, -, hcal, hexec⟩
  · rw [ht]
    exact ⟨⟨rfl, rfl, rfl⟩, by decide⟩
  · rw [ht]
    exact ⟨hs, hu⟩
  · exact exec_keeps_controllerInvariants hexec (hcal ▸ hs) (hcal ▸ hu)

end

end Sys2Proof.Machine
end

section
/-! SUPPORT. The sweep (44 R230, R240 to R246, R254, R261): how far a tick moves it, the state each tick leaves, and the
error code. -/

namespace Sys2Proof.Machine

open Sys2Proof.Claims

/-! ## The sweep position (44 R240) -/

/-- How many samples of the sweep have been measured (44 R240). -/
def sweepPosition (c : Calibration) : Nat := 14400 * c.band + c.cnt

section

variable {c : Calibration}

theorem sweepPosition_lt (hm : c.state = .measuring) (hs : controllerSafe c) : sweepPosition c < 144000 := by
  obtain ⟨hband, hcnt, -⟩ := (controllerSafe_iff_of_measuring hm).mp hs
  unfold sweepPosition
  omega

/-- One sample moves the sweep by one, or is its last (44 R244, R246). -/
theorem measureSample_advances (mic : F32) (hm : c.state = .measuring) :
    ((measureSample mic c).2.state = .measuring ∧ sweepPosition (measureSample mic c).2 = sweepPosition c + 1) ∨
      ((measureSample mic c).2.state = .computing ∧ sweepPosition c + 1 = 144000) := by
  rcases measureSample_next_cases mic c with ⟨-, h⟩ | ⟨hcnt, -, h⟩ | ⟨hcnt, hband, h⟩ <;> rw [h]
  · exact .inl ⟨hm, rfl⟩
  · refine .inl ⟨hm, ?_⟩
    simp only [sweepPosition, startNextBand, startBand_band, startBand_cnt]
    omega
  · refine .inr ⟨rfl, ?_⟩
    unfold sweepPosition
    omega

theorem measureBlock_advances (mics : List F32) (hm : c.state = .measuring) (hs : controllerSafe c) :
    (sweepPosition c + mics.length < 144000 → (measureBlock mics c).2.state = .measuring ∧
        sweepPosition (measureBlock mics c).2 = sweepPosition c + mics.length) ∧
      (144000 ≤ sweepPosition c + mics.length → (measureBlock mics c).2.state = .computing) := by
  induction mics generalizing c with
  | nil => exact ⟨fun _ => ⟨hm, rfl⟩, fun hend => absurd (sweepPosition_lt hm hs) (Nat.not_lt.mpr hend)⟩
  | cons mic rest ih =>
    rw [measureBlock_measuring _ _ _ hm, List.length_cons]
    rcases measureSample_advances mic hm with ⟨hstate, hpos⟩ | ⟨hstate, hpos⟩
    · obtain ⟨hinside, hend⟩ := ih hstate (measureSample_keeps_controllerSafe mic hm hs)
      rw [hpos, Nat.add_assoc, Nat.add_comm 1] at hinside hend
      exact ⟨hinside, hend⟩
    · rw [measureBlock_stopped _ _ (by rw [hstate]; decide)]
      exact ⟨fun hinside => by omega, fun _ => hstate⟩

end

/-! ## Ticks by the state they find (44 R230, R234) -/

section

variable (inbuf : List F32) {s : State}

theorem tick_of_measuring (h : s.cal.state = .measuring) :
    tick inbuf s = ((measureBlock inbuf s.cal).1, { s with cal := (measureBlock inbuf s.cal).2 }) := by
  simp only [tick, h]

theorem tick_of_computing (h : s.cal.state = .computing) :
    tick inbuf s = (silence inbuf.length, { s with cal := computeTick s.cal }) := by
  simp only [tick, h]

theorem tick_of_applying (h : s.cal.state = .applying) : tick inbuf s = (silence inbuf.length, applyTick s) := by
  simp only [tick, h]

theorem tick_outside_a_run (h : s.cal.state = .idle ∨ s.cal.state = .done ∨ s.cal.state = .error) :
    tick inbuf s = (silence inbuf.length, s) := by
  rcases h with h | h | h <;> simp only [tick, h]

/-- No tick writes last_error (44 R261). -/
theorem tick_lastError (inbuf : List F32) (s : State) : (tick inbuf s).2.cal.lastError = s.cal.lastError := by
  rcases tick_cases inbuf s with ⟨-, h⟩ | ⟨-, h⟩ | ⟨-, h⟩ | ⟨-, h⟩ <;> rw [h]
  · exact (measureBlock_frame inbuf s.cal).2
  · rfl
  · rcases advanceIteration_cases s.cal with ⟨-, ha⟩ | ⟨-, ha⟩ <;> simp only [applyTick, ha, startBand_lastError]

theorem advanceIteration_of_lt {c : Calibration} (h : c.iteration + 1 < 3) :
    advanceIteration c = startBand 0 { c with iteration := c.iteration + 1, band := 0, state := .measuring } :=
  if_pos ⟨rfl, h⟩

theorem advanceIteration_of_last {c : Calibration} (h : ¬ c.iteration + 1 < 3) :
    advanceIteration c = { c with state := .done } :=
  if_neg fun hmore => h hmore.2

end

section

variable {i : Instr} {s t u : State} {n : Nat}

/-- What an accepted block leaves of the controller and the registers. -/
theorem exec_ctrlProcessBlock_tick (hr : inRange s n) (h : exec (.ctrlProcessBlock n) s = .next t) :
    t.cal = (tick (inputBlock s n) s).2.cal ∧ t.regs = { s.regs with status := 1 } := by
  rw [exec_ctrlProcessBlock_inRange hr] at h
  cases h
  exact ⟨rfl, by simp⟩

/-- Everything an accepted block does to the sweep (44 R240, R244, R246). -/
theorem exec_ctrlProcessBlock_advances (hr : inRange s n) (hs : controllerSafe s.cal) (hm : s.cal.state = .measuring)
    (h : exec (.ctrlProcessBlock n) s = .next t) :
    (sweepPosition s.cal + n < 144000 → t.cal.state = .measuring ∧ sweepPosition t.cal = sweepPosition s.cal + n) ∧
      (144000 ≤ sweepPosition s.cal + n → t.cal.state = .computing) ∧
      controllerSafe t.cal ∧ t.cal.iteration = s.cal.iteration := by
  obtain ⟨ht, -⟩ := exec_ctrlProcessBlock_tick hr h
  rw [tick_of_measuring _ hm] at ht
  obtain ⟨hinside, hend⟩ := measureBlock_advances (inputBlock s n) hm hs
  obtain ⟨hiter, -⟩ := measureBlock_frame (inputBlock s n) s.cal
  rw [length_inputBlock] at hinside hend
  rw [ht]
  exact ⟨hinside, hend, measureBlock_keeps_controllerSafe _ hs, hiter⟩

/-- Settles O47: the sweep position moves sample by sample, and the invariant fixes band and cnt in Computing. -/
theorem tickAdvancesTheSweep : Obligations.TickAdvancesTheSweep := by
  intro s t n hr hs hm h
  obtain ⟨hinside, hend, hsafe, -⟩ := exec_ctrlProcessBlock_advances hr hs hm h
  refine ⟨fun hlt => ?inside, fun hle => ?done⟩
  case inside =>
    obtain ⟨hstate, hpos⟩ := hinside hlt
    obtain ⟨-, hcnt, -⟩ := (controllerSafe_iff_of_measuring hstate).mp hsafe
    exact ⟨hstate, hcnt, hpos⟩
  case done =>
    obtain ⟨hband, hcnt, -⟩ := (controllerSafe_iff_of_computing (hend hle)).mp hsafe
    exact ⟨hend hle, hband, hcnt⟩

/-- The Computing tick ends in Applying of the same iteration (44 R248). -/
theorem exec_ctrlProcessBlock_computing (hr : inRange s n) (hc : s.cal.state = .computing)
    (h : exec (.ctrlProcessBlock n) s = .next t) : t.cal.state = .applying ∧ t.cal.iteration = s.cal.iteration := by
  obtain ⟨ht, -⟩ := exec_ctrlProcessBlock_tick hr h
  rw [ht, tick_of_computing _ hc]
  exact ⟨rfl, rfl⟩

/-- The Applying tick begins the next sweep while iterations are left (44 R249, R250). -/
theorem exec_ctrlProcessBlock_applying (hr : inRange s n) (ha : s.cal.state = .applying)
    (hiter : s.cal.iteration + 1 < 3) (h : exec (.ctrlProcessBlock n) s = .next t) :
    t.cal.state = .measuring ∧ t.cal.iteration = s.cal.iteration + 1 ∧ t.cal.band = 0 := by
  obtain ⟨ht, -⟩ := exec_ctrlProcessBlock_tick hr h
  rw [ht, tick_of_applying _ ha]
  simp only [applyTick, advanceIteration_of_lt hiter, startBand_state, startBand_iteration, startBand_band, and_self]

/-- A command that is no accepted tick and none of CTRL_START, CTRL_STOP and CTRL_INIT changes no state (44 R230). -/
theorem exec_keeps_ctrlState (h : exec i s = .next t) (hr : ∀ n, i = .ctrlProcessBlock n → ¬ inRange s n)
    (hstart : i ≠ .ctrlStart) (hstop : i ≠ .ctrlStop) (hinit : i ≠ .ctrlInit) : t.cal.state = s.cal.state := by
  rcases exec_cal_cases h with ht | ⟨hi, -⟩ | ⟨hi, -⟩ | ⟨hi, -⟩ | ⟨n, hi, hb, -⟩ | ⟨n, -, -, ht⟩ | ⟨hi, -⟩ | ⟨-, ht⟩
  · rw [ht]
  · exact absurd hi hinit
  · exact absurd hi hstart
  · exact absurd hi hstart
  · exact absurd (buffersInRam_iff.mp hb) (hr n hi)
  · rw [ht]
  · exact absurd hi hstop
  · rw [ht]

/-- Settles O15: one clause per row of the table, each by the command's own next state. -/
theorem controllerTransitions : Obligations.ControllerTransitions := by
  refine fun i s t h => ⟨?started, ?failed, ?ticks, ?stopped, exec_keeps_ctrlState h⟩
  case started =>
    rintro rfl hidle
    rw [exec_ctrlStart_idle hidle] at h
    cases h
    exact ⟨rfl, rfl, rfl⟩
  case failed =>
    rintro rfl hidle
    rw [exec_ctrlStart_fails hidle] at h
    cases h
    exact ⟨rfl, rfl, rfl⟩
  case stopped =>
    rintro (rfl | rfl) <;> cases h <;> rfl
  case ticks =>
    rintro n rfl hr
    obtain ⟨ht, -⟩ := exec_ctrlProcessBlock_tick hr h
    refine ⟨fun hm hs => ?measuring, fun hc => (exec_ctrlProcessBlock_computing hr hc h).1,
      fun ha hiter => exec_ctrlProcessBlock_applying hr ha hiter h, fun ha hiter => ?done, fun hrest => ?rest⟩
    case measuring =>
      obtain ⟨hinside, hend, -⟩ := exec_ctrlProcessBlock_advances hr hs hm h
      split
      next hle => exact hend hle
      next hlt => exact (hinside (Nat.not_le.mp hlt)).1
    case done =>
      rw [ht, tick_of_applying _ ha]
      simp only [applyTick, advanceIteration_of_last hiter]
    case rest => rw [ht, tick_outside_a_run _ hrest]

/-! ## The error code (44 R261) -/

/-- Everything a command can do to last_error: keep it, or one of the three writes (44 R232, R233, R243). -/
theorem exec_lastError_cases (h : exec i s = .next t) :
    (t.cal.lastError = s.cal.lastError ∧ (i = .ctrlStart → s.cal.state = .idle) ∧
        (∀ n, i = .ctrlProcessBlock n → inRange s n) ∧ i ≠ .ctrlInit) ∨
      (i = .ctrlInit ∧ t.cal.lastError = .none) ∨
      (i = .ctrlStart ∧ s.cal.state ≠ .idle ∧ t.cal.lastError = .invalidState) ∨
      ∃ n, i = .ctrlProcessBlock n ∧ ¬ inRange s n ∧ t.cal.lastError = .invalidParameters := by
  by_cases hinit : i = .ctrlInit
  · subst hinit
    cases h
    exact .inr (.inl ⟨rfl, rfl⟩)
  by_cases hstart : i = .ctrlStart ∧ s.cal.state ≠ .idle
  · obtain ⟨rfl, hidle⟩ := hstart
    rw [exec_ctrlStart_fails hidle] at h
    cases h
    exact .inr (.inr (.inl ⟨rfl, hidle, rfl⟩))
  by_cases hblock : ∃ n, i = .ctrlProcessBlock n ∧ ¬ inRange s n
  · obtain ⟨n, rfl, hr⟩ := hblock
    rw [exec_ctrlProcessBlock_outOfRange hr] at h
    cases h
    exact .inr (.inr (.inr ⟨n, rfl, hr, rfl⟩))
  have hidle : i = .ctrlStart → s.cal.state = .idle := fun hi => not_not.mp fun hne => hstart ⟨hi, hne⟩
  have hr : ∀ n, i = .ctrlProcessBlock n → inRange s n := fun n hi => not_not.mp fun hne => hblock ⟨n, hi, hne⟩
  refine .inl ⟨?_, hidle, hr, hinit⟩
  rcases exec_cal_cases h with ht | ⟨hi, -⟩ | ⟨-, -, ht⟩ | ⟨hi, hne, -⟩ | ⟨n, -, -, ht⟩ | ⟨n, hi, hb, -⟩ | ⟨-, ht⟩ |
    ⟨-, ht⟩
  case inr.inl => exact absurd hi hinit
  case inr.inr.inr.inl => exact absurd (hidle hi) hne
  case inr.inr.inr.inr.inr.inl =>
    rw [buffersInRam_iff.mpr (hr n hi)] at hb
    contradiction
  case inr.inr.inr.inr.inl => rw [ht, tick_lastError]
  all_goals exact (congrArg Calibration.lastError ht).trans rfl

/-- Settles O16: a step resets the controller, leaves it alone or runs a command, and of the commands three write the code,
each a constant. -/
theorem lastErrorPolicy : Obligations.LastErrorPolicy := by
  refine ⟨fun i s t h => ?commands, fun s t h hne => ?steps, fun s t rest hp h => ?reset, fun s t hs h => ?overflow⟩
  case commands =>
    rcases exec_lastError_cases h with ⟨hkept, hidle, hr, hi⟩ | ⟨rfl, ht⟩ | ⟨rfl, hidle, ht⟩ | ⟨n, rfl, hr, ht⟩
    · exact ⟨fun hstart hne => absurd (hidle hstart) hne, fun n hn hne => absurd (hr n hn) hne,
        fun hinit => absurd hinit hi, fun _ _ _ => hkept⟩
    · exact ⟨nofun, nofun, fun _ => ht, fun _ _ hne => absurd rfl hne⟩
    · exact ⟨fun _ _ => ht, nofun, nofun, fun hstart => absurd (hstart rfl) hidle⟩
    · exact ⟨nofun, fun _ _ _ => ht, nofun, fun _ hblock => absurd (hblock n rfl) hr⟩
  case steps =>
    rcases step_cal_cases h with ⟨rest, hp, ht⟩ | ⟨-, ht⟩ | ⟨w, rest, i, u, hp, hd, hcal, hexec⟩
    · exact .inl ⟨rest, hp, by rw [ht]; rfl⟩
    · exact absurd (congrArg Calibration.lastError ht) hne
    · refine .inr ⟨w, rest, i, hp, hd, ?_⟩
      rcases exec_lastError_cases hexec with ⟨hkept, -⟩ | ⟨hi, -⟩ | ⟨hi, -⟩ | ⟨n, hi, -⟩
      · exact absurd (hcal ▸ hkept) hne
      · exact .inr (.inl hi)
      · exact .inl hi
      · exact .inr (.inr ⟨n, hi⟩)
  case reset =>
    rcases step_cal_cases h with ⟨-, -, ht⟩ | ⟨hno, -⟩ | ⟨w, rest', i, u, hp', -⟩
    · rw [ht]
      rfl
    · exact absurd hp (hno rest)
    · rw [hp] at hp'
      cases hp'
  case overflow =>
    rcases step_cal_cases h with ⟨-, -, ht⟩ | ⟨-, ht⟩ | ⟨w, rest, i, u, -, -, hcal, hexec⟩
    · rw [ht]
      decide
    · rwa [ht]
    · rcases exec_lastError_cases hexec with ⟨hkept, -⟩ | ⟨-, ht⟩ | ⟨-, -, ht⟩ | ⟨n, -, -, ht⟩
      · rwa [hkept, hcal]
      all_goals rw [ht]; decide

/-! ## Block accounting (44 R254) -/

/-- Both states have their buffers at the same place, so that a block is in range for both or for neither. -/
def sameBuffers (s t : State) : Prop := t.regs.argIn = s.regs.argIn ∧ t.regs.argOut = s.regs.argOut

theorem inRange_of_sameBuffers (hb : sameBuffers s t) (hr : inRange s n) : inRange t n := by
  obtain ⟨hin, hout⟩ := hb
  rwa [inRange, hin, hout]

/-- `t` is Measuring at this iteration and sweep position, with the buffers of `s`. -/
def measuringAt (s : State) (iteration position : Nat) (t : State) : Prop :=
  sameBuffers s t ∧ t.cal.state = .measuring ∧ controllerSafe t.cal ∧ t.cal.iteration = iteration ∧
    sweepPosition t.cal = position

/-- No command moves the buffers (10_state R36). -/
theorem exec_sameBuffers (hb : sameBuffers s t) (h : exec i t = .next u) : sameBuffers s u := by
  obtain ⟨hin, hout⟩ := hb
  obtain ⟨-, -, -, -, hin', hout', -⟩ := commandsLeaveOperandRegistersAlone i t u h
  exact ⟨hin'.trans hin, hout'.trans hout⟩

variable {iteration position : Nat}

theorem exec_ctrlProcessBlock_measuringAt (ht : measuringAt s iteration position t) (hr : inRange s n)
    (hn : position + n < 144000) (h : exec (.ctrlProcessBlock n) t = .next u) :
    measuringAt s iteration (position + n) u := by
  obtain ⟨hb, hm, hs, hiter, rfl⟩ := ht
  obtain ⟨hinside, -, hsafe, hiter'⟩ := exec_ctrlProcessBlock_advances (inRange_of_sameBuffers hb hr) hs hm h
  obtain ⟨hstate, hpos⟩ := hinside hn
  exact ⟨exec_sameBuffers hb h, hstate, hsafe, hiter'.trans hiter, hpos⟩

theorem runCommands_cons (h : exec i s = .next t) (is : List Instr) : runCommands (i :: is) s = runCommands is t := by
  simp only [runCommands, h]

theorem runCommands_append {is : List Instr} (js : List Instr) (h : runCommands is s = some t) :
    runCommands (is ++ js) s = runCommands js t := by
  induction is generalizing s with
  | nil =>
    cases h
    rfl
  | cons i is ih =>
    obtain ⟨u, hu⟩ := exec_answers i s
    rw [runCommands_cons hu] at h
    rw [List.cons_append, runCommands_cons hu, ih h]

theorem exec_ctrlStart_measuringAt (h : s.cal.state = .idle) :
    ∃ t, exec .ctrlStart s = .next t ∧ measuringAt s 0 0 t :=
  ⟨_, exec_ctrlStart_idle h, ⟨rfl, rfl⟩, rfl, controllerSafe_startSweep (Nat.zero_lt_succ _), rfl, rfl⟩

theorem runCommands_blocks {ns : List Nat} (ht : measuringAt s iteration position t) (hr : ∀ n ∈ ns, inRange s n)
    (hsum : position + ns.sum < 144000) :
    ∃ u, runCommands (ns.map .ctrlProcessBlock) t = some u ∧ measuringAt s iteration (position + ns.sum) u := by
  induction ns generalizing t position with
  | nil => exact ⟨t, rfl, ht⟩
  | cons n ns ih =>
    rw [List.sum_cons, ← Nat.add_assoc] at hsum ⊢
    obtain ⟨hn, hns⟩ := List.forall_mem_cons.mp hr
    obtain ⟨u, hu⟩ := exec_answers (.ctrlProcessBlock n) t
    rw [List.map_cons, runCommands_cons hu]
    exact ih (exec_ctrlProcessBlock_measuringAt ht hn (by omega) hu) hns hsum

/-- Settles O48: the blocks move the sweep from 0 by their sum, and the three ticks after it go their fixed way. -/
theorem blockAccounting : Obligations.BlockAccounting := by
  intro s ns n k l hidle hr hsum
  obtain ⟨hn, hk, hl, hns⟩ : inRange s n ∧ inRange s k ∧ inRange s l ∧ ∀ m ∈ ns, inRange s m := by
    simpa only [List.forall_mem_cons] using hr
  obtain ⟨s₀, hstart, hs₀⟩ := exec_ctrlStart_measuringAt hidle
  obtain ⟨s₁, hrun, hb, hm, hs, hiter, hpos⟩ := runCommands_blocks hs₀ hns (by omega)
  rw [Nat.zero_add] at hpos
  refine ⟨⟨s₁, (runCommands_cons hstart _).trans hrun, hm, hpos, hiter⟩, fun hend => ?_⟩
  obtain ⟨t, ht⟩ := exec_answers (.ctrlProcessBlock n) s₁
  obtain ⟨u, hu⟩ := exec_answers (.ctrlProcessBlock k) t
  obtain ⟨v, hv⟩ := exec_answers (.ctrlProcessBlock l) u
  have hbt := exec_sameBuffers hb ht
  have hbu := exec_sameBuffers hbt hu
  obtain ⟨-, hcomputing, -, hitert⟩ := exec_ctrlProcessBlock_advances (inRange_of_sameBuffers hb hn) hs hm ht
  obtain ⟨hstateu, hiteru⟩ :=
    exec_ctrlProcessBlock_computing (inRange_of_sameBuffers hbt hk) (hcomputing (by omega)) hu
  have hiteru0 : u.cal.iteration = 0 := by rw [hiteru, hitert, hiter]
  obtain ⟨hstatev, hiterv, -⟩ :=
    exec_ctrlProcessBlock_applying (inRange_of_sameBuffers hbu hl) hstateu (by omega) hv
  refine ⟨t, u, v, ?_, hcomputing (by omega), hu, hstateu, hv, hstatev, by omega⟩
  rw [runCommands_cons hstart, List.map_append, runCommands_append _ hrun]
  exact runCommands_cons ht []

end

end Sys2Proof.Machine
end

section
/-! SUPPORT. The ticks outside Measuring (44 R237, R248 to R253): the next state of each, and the silence they write. -/

namespace Sys2Proof.Machine

open Sys2Proof.Claims

section

variable {s : State} {n : Nat}

/-- An accepted block is its tick with the speaker block stored and STATUS set (44 R234). -/
theorem exec_ctrlProcessBlock_eq (hr : inRange s n) :
    exec (.ctrlProcessBlock n) s = .next { (tick (inputBlock s n) s).2 with
      regs := { s.regs with status := 1 }
      sram := writeBlock s.sram s.regs.argOut.toNat (tick (inputBlock s n) s).1 } := by
  rw [exec_ctrlProcessBlock_inRange hr]
  simp only [complete_eq, setStatus, storeOutput, tick_regs, tick_sram, bufferBase, statusOk_eq]
  rfl

theorem exec_ctrlProcessBlock_outside_a_run (hr : inRange s n)
    (h : s.cal.state = .idle ∨ s.cal.state = .done ∨ s.cal.state = .error) :
    exec (.ctrlProcessBlock n) s = .next { s with
      regs := { s.regs with status := 1 }, sram := writeBlock s.sram s.regs.argOut.toNat (silence n) } := by
  rw [exec_ctrlProcessBlock_eq hr, tick_outside_a_run _ h, length_inputBlock]

theorem exec_ctrlProcessBlock_computeTick (hr : inRange s n) (h : s.cal.state = .computing) :
    exec (.ctrlProcessBlock n) s = .next { s with
      regs := { s.regs with status := 1 }
      sram := writeBlock s.sram s.regs.argOut.toNat (silence n)
      cal := computeTick s.cal } := by
  rw [exec_ctrlProcessBlock_eq hr, tick_of_computing _ h, length_inputBlock]

theorem exec_ctrlProcessBlock_applyTick (hr : inRange s n) (h : s.cal.state = .applying) :
    exec (.ctrlProcessBlock n) s = .next { s with
      regs := { s.regs with status := 1 }
      sram := writeBlock s.sram s.regs.argOut.toNat (silence n)
      eq := (setAllGainsCore s.cal.cumulative calQ s.eq).1
      cal := advanceIteration s.cal } := by
  rw [exec_ctrlProcessBlock_eq hr, tick_of_applying _ h, length_inputBlock]
  rfl

@[simp] theorem length_silence (n : Nat) : (silence n).length = n := List.length_replicate

theorem getElem_silence (n i : Nat) (h : i < (silence n).length) : (silence n)[i] = 0x00000000#32 :=
  List.getElem_replicate h

/-- A stored silence is n words of +0.0 (44 R237). -/
theorem stores_silence (hwf : memoryWf s.sram = true) :
    stores s n (fun _ => 0x00000000#32) (writeBlock s.sram s.regs.argOut.toNat (silence n)) :=
  stores_writeBlock hwf (length_silence n) (getElem_silence n)

end

/-- Settles O44: the tick is the silence and the state it found. -/
theorem tickOutsideARunIsSilent : Obligations.TickOutsideARunIsSilent := fun _ _ hr hwf h =>
  ⟨_, exec_ctrlProcessBlock_outside_a_run hr h, rfl, stores_silence hwf⟩

/-! ## The Computing tick (44 R248) -/

/-- The first sweep takes the correction as it is (44 R248). -/
theorem accumulate_first (cumulative correction : F32) : accumulate 0 cumulative correction = correction := if_pos rfl

/-- Later sweeps add the damped correction (44 R248). -/
theorem accumulate_later {iteration : Nat} (h : iteration ≠ 0) (cumulative correction : F32) :
    accumulate iteration cumulative correction =
      fClamp (fAdd cumulative (fMul correction damping)) gainMinDb gainMaxDb := if_neg h

theorem computeTick_entry (c : Calibration) (b : Fin 10) :
    (computeTick c).correction[b] = correctionOf c.measured[b] ∧
      (computeTick c).cumulative[b] = accumulate c.iteration c.cumulative[b] (correctionOf c.measured[b]) := by
  simp only [computeTick, Fin.getElem_fin, Vector.getElem_ofFn, and_self]

/-- Settles O49: entry by entry, the correction and what it makes of the cumulative gain. -/
theorem computingTickResult : Obligations.ComputingTickResult := by
  refine fun s n hr hwf h => ⟨_, exec_ctrlProcessBlock_computeTick hr h, rfl, stores_silence hwf, fun b => ?_⟩
  obtain ⟨hcorrection, hcumulative⟩ := computeTick_entry s.cal b
  refine ⟨hcorrection, fun hfirst => ?first, fun hlater => ?later⟩
  case first => rw [hcumulative, hfirst, accumulate_first, hcorrection]
  case later =>
    rw [hcumulative, accumulate_later hlater, hcorrection]
    rfl

/-! ## The Applying tick (44 R249 to R253) -/

/-- SetAllGainsCore reaches the coefficients and the band records alone (44 R252). -/
theorem setAllGainsCore_frame (gains : Vector F32 10) (q : F32) (e : Equalizer) :
    (setAllGainsCore gains q e).1 =
      { e with coef := (setAllGainsCore gains q e).1.coef, bands := (setAllGainsCore gains q e).1.bands } := by
  rcases setAllGainsCore_cases q gains e with ⟨-, h⟩ | ⟨-, h⟩
  · rw [h]
    rfl
  · rw [h]

/-- The next sweep writes the counters and the units, Done the state alone; the arrays and last_error stay (44 R249). -/
theorem advanceIteration_frame (c : Calibration) :
    advanceIteration c = { c with
      state := (advanceIteration c).state, band := (advanceIteration c).band, cnt := (advanceIteration c).cnt,
      iteration := (advanceIteration c).iteration, tone := (advanceIteration c).tone,
      det := (advanceIteration c).det } := by
  rcases advanceIteration_cases c with ⟨-, h⟩ | ⟨-, h⟩
  · rw [h]
    rfl
  · rw [h]

/-- StartBand sets up the tone and the detector for the frequency of its band (44 R231). -/
theorem bandStarted_startBand (b : Fin 10) (c : Calibration) : bandStarted bandFreq[b] (startBand b c) := by
  have hfreq : bandFreqAt b = bandFreq[b] := by simp [bandFreqAt]
  refine ⟨rfl, ?_, ?_⟩
  · rw [startBand_tone, hfreq]
    rfl
  · rw [startBand_det, hfreq]
    rfl

/-- Settles O50: the equalizer is SetAllGainsCore's and the controller advanceIteration's, each with its frame. -/
theorem applyingTickResult : Obligations.ApplyingTickResult := by
  refine fun s n hr hwf h => ⟨_, exec_ctrlProcessBlock_applyTick hr h, ?frame, stores_silence hwf, fun hinit => ?kept,
    fun hinit => ?programmed, fun hmore => ?sweep, fun hlast => ?done⟩
  case frame =>
    rw [← setAllGainsCore_frame, ← advanceIteration_frame]
  case kept => simp only [setAllGainsCore, hinit, Bool.false_eq_true, if_false]
  case programmed =>
    simp only [setAllGainsCore, if_pos hinit]
    exact setAllBands_calQ s.cal.cumulative s.eq
  case sweep =>
    dsimp only
    rw [advanceIteration_of_lt hmore]
    exact ⟨rfl, rfl, rfl, bandStarted_startBand 0 _⟩
  case done => exact advanceIteration_of_last hlast

end Sys2Proof.Machine
end

section
/-! SUPPORT. Measuring sample by sample (44 R231, R236 to R238, R244 to R247; 42 R192, 43 R213, R214): the block inside a
tone, the block that ends one, and a tick cut in two. -/

namespace Sys2Proof.Machine

open Sys2Proof.Claims

/-! ## The units over a block -/

/-- The first of k + 1 samples may be taken first or last. -/
theorem toneAfter_one (t : Tone) (k : Nat) : toneAfter (toneAfter t 1) k = toneAfter t (k + 1) := by
  induction k with
  | zero => rfl
  | succ k ih =>
    rw [toneAfter, ih]
    rfl

/-- The speaker sample and the unit after it, as the statements write them (42 R192). -/
theorem toneNext_eq (t : Tone) : toneNext t = (speakerSample t, toneAfter t 1) := rfl

/-- The detector's recursion, as the statements write it (43 R213). -/
theorem detectorAfter_cons (d : Detector) (x : F32) (rest : List F32) :
    detectorAfter d (x :: rest) = detectorAfter (detUpdate x d) rest := rfl

/-- The next n speaker samples of a tone (42 R192). -/
def speakerBlock (t : Tone) (n : Nat) : List F32 := (List.range n).map fun i => speakerSample (toneAfter t i)

section

variable (t : Tone) (n : Nat)

@[simp] theorem length_speakerBlock : (speakerBlock t n).length = n := by simp [speakerBlock]

theorem getElem_speakerBlock (i : Nat) (h : i < (speakerBlock t n).length) :
    (speakerBlock t n)[i] = speakerSample (toneAfter t i) := by
  simp [speakerBlock]

theorem speakerBlock_succ : speakerBlock t (n + 1) = speakerSample t :: speakerBlock (toneAfter t 1) n := by
  simp only [speakerBlock, List.range_succ_eq_map, List.map_cons, List.map_map, Function.comp_def, toneAfter_one]
  rfl

end

/-- The controller after samples that all lie in one tone, before the end of the tone is looked at (44 R244). -/
def countBlock (mics : List F32) (c : Calibration) : Calibration :=
  { c with
    cnt := c.cnt + mics.length
    tone := toneAfter c.tone mics.length
    det := detectorAfter c.det (mics.drop (9600 - c.cnt)) }

section

variable {c : Calibration}

theorem countBlock_nil (c : Calibration) : countBlock [] c = c := by
  rw [countBlock, List.drop_nil]
  rfl

/-- The detector hears a sample when 9600 have gone before it (44 R236). -/
theorem countBlock_cons (mic : F32) (rest : List F32) (h : c.cnt < 14400) :
    countBlock (mic :: rest) c = countBlock rest (countSample mic c) := by
  have hdet : detectorAfter c.det ((mic :: rest).drop (9600 - c.cnt)) =
      detectorAfter (countSample mic c).det (rest.drop (9600 - (c.cnt + 1))) := by
    by_cases hwindow : 9600 ≤ c.cnt
    · have hin : inWindow c.cnt = true := decide_eq_true ⟨hwindow, h⟩
      rw [Nat.sub_eq_zero_of_le hwindow, Nat.sub_eq_zero_of_le (by omega), List.drop_zero, List.drop_zero,
        detectorAfter_cons, countSample, if_pos hin]
    · have hout : ¬ inWindow c.cnt = true := fun hin => hwindow (of_decide_eq_true hin).1
      rw [show 9600 - c.cnt = 9600 - (c.cnt + 1) + 1 by omega, List.drop_succ_cons, countSample, if_neg hout]
  have hcnt : c.cnt + (rest.length + 1) = (countSample mic c).cnt + rest.length := by
    rw [countSample_cnt]
    omega
  have htone : toneAfter c.tone (rest.length + 1) = toneAfter (countSample mic c).tone rest.length :=
    (toneAfter_one c.tone rest.length).symm
  rw [countBlock, List.length_cons, hcnt, htone, hdet]
  rfl

/-- A sample before the end of its tone moves the units and the count (44 R244). -/
theorem measureBlock_before_end (mic : F32) (rest : List F32) (hm : c.state = .measuring) (h : c.cnt + 1 ≠ 14400) :
    measureBlock (mic :: rest) c =
      (speakerSample c.tone :: (measureBlock rest (countSample mic c)).1, (measureBlock rest (countSample mic c)).2) := by
  rcases measureSample_cases c mic with ⟨hlast, -⟩ | ⟨-, hsample⟩
  · exact absurd hlast h
  · rw [measureBlock_measuring _ _ _ hm, hsample, toneNext_eq]

theorem measureSample_at_end (mic : F32) (h : c.cnt + 1 = 14400) :
    measureSample mic c = (speakerSample c.tone, finishTone (countSample mic c)) := by
  rcases measureSample_cases c mic with ⟨-, hsample⟩ | ⟨hne, -⟩
  · exact hsample
  · exact absurd h hne

/-- A block that stays inside its tone (44 R244). -/
theorem measureBlock_inside_tone (mics : List F32) (hm : c.state = .measuring) (h : c.cnt + mics.length < 14400) :
    measureBlock mics c = (speakerBlock c.tone mics.length, countBlock mics c) := by
  induction mics generalizing c with
  | nil => rw [measureBlock_nil, countBlock_nil]; rfl
  | cons mic rest ih =>
    rw [List.length_cons] at h ⊢
    have hrest := ih (c := countSample mic c) hm (by rw [countSample_cnt]; omega)
    rw [measureBlock_before_end mic rest hm (by omega), hrest, speakerBlock_succ, countBlock_cons _ _ (by omega)]
    rfl

/-- A block that ends with the last sample of its tone (44 R244 to R247). -/
theorem measureBlock_whole_tone (mic : F32) (rest : List F32) (hm : c.state = .measuring)
    (h : c.cnt + rest.length + 1 = 14400) :
    measureBlock (mic :: rest) c =
      (speakerBlock c.tone (rest.length + 1), finishTone (countBlock (mic :: rest) c)) := by
  induction rest generalizing c mic with
  | nil =>
    rw [measureBlock_measuring _ _ _ hm, measureSample_at_end mic h, countBlock_cons _ _ (by omega), countBlock_nil]
    rfl
  | cons mic' rest ih =>
    rw [List.length_cons] at h ⊢
    have hrest := ih (c := countSample mic c) mic' hm (by rw [countSample_cnt]; omega)
    rw [measureBlock_before_end mic _ hm (by omega), hrest, speakerBlock_succ c.tone, countBlock_cons mic _ (by omega)]
    rfl

/-- The end of a tone below band 9 (44 R231, R244, R247). -/
theorem finishTone_below (b : Fin 10) (hb : c.band = b.val) (h : b.val + 1 < 10) :
    finishTone c = startBand (b.val + 1) { c with
      band := b.val + 1, measured := c.measured.set b (fAdd (detFinalize c.det) (Config.micCal b)) } := by
  rcases finishTone_cases c with ⟨hlast, -⟩ | ⟨-, hf⟩
  · unfold numBands at hlast
    omega
  · rw [hf, storeLevel_band c b hb, hb]

/-- The end of the tone of band 9 (44 R246, R247). -/
theorem finishTone_last (b : Fin 10) (hb : c.band = b.val) (h : b.val = 9) :
    finishTone c = { c with
      band := 10, state := .computing, measured := c.measured.set b (fAdd (detFinalize c.det) (Config.micCal b)) } := by
  rcases finishTone_cases c with ⟨-, hf⟩ | ⟨hmore, -⟩
  · have hnext : c.band + 1 = 10 := by omega
    rw [hf, storeLevel_band c b hb, hnext]
  · unfold numBands at hmore
    omega

end

/-! ## The tick (44 R234, R244) -/

section

variable {s : State} {n : Nat}

theorem exec_ctrlProcessBlock_measuring (hr : inRange s n) (hm : s.cal.state = .measuring) :
    exec (.ctrlProcessBlock n) s = .next { s with
      regs := { s.regs with status := 1 }
      sram := writeBlock s.sram s.regs.argOut.toNat (measureBlock (inputBlock s n) s.cal).1
      cal := (measureBlock (inputBlock s n) s.cal).2 } := by
  rw [exec_ctrlProcessBlock_eq hr, tick_of_measuring _ hm]

/-- Settles O45: no sample of the block ends the tone, so the block only moves the units and the count. -/
theorem measuringTickInsideATone : Obligations.MeasuringTickInsideATone := by
  intro s n hr hwf hm hn
  have hblock := measureBlock_inside_tone (inputBlock s n) hm (by rwa [length_inputBlock])
  refine ⟨_, exec_ctrlProcessBlock_measuring hr hm, ?frame, ?out⟩
  case frame =>
    rw [hblock, countBlock, length_inputBlock]
    rfl
  case out =>
    rw [hblock, length_inputBlock]
    exact stores_writeBlock hwf (length_speakerBlock ..) fun i hi => getElem_speakerBlock _ _ i hi

/-! ## Blocks of two parts -/

theorem readBlock_add (m : Memory) (base j k : Nat) :
    readBlock m base (j + k) = readBlock m base j ++ readBlock m (base + j) k := by
  simp only [readBlock, List.range_add, List.map_append, List.map_map, Function.comp_def, Nat.add_assoc]

/-- The input block cut after j samples (20_memory R77). -/
theorem inputBlock_add (s : State) (j k : Nat) :
    inputBlock s (j + k) = inputBlock s j ++ readBlock s.sram (s.regs.argIn.toNat + j) k := readBlock_add ..

/-- An output block of two parts. -/
theorem stores_append {first rest : List F32} {f g : Nat → F32} {j k : Nat} (hwf : memoryWf s.sram = true)
    (hfirst : first.length = j) (hrest : rest.length = k) (hf : ∀ i (h : i < first.length), first[i] = f i)
    (hg : ∀ i (h : i < rest.length), rest[i] = g (j + i)) :
    stores s (j + k) (fun i => if i < j then f i else g i)
      (writeBlock s.sram s.regs.argOut.toNat (first ++ rest)) := by
  refine stores_writeBlock hwf (by rw [List.length_append, hfirst, hrest]) fun i hi => ?_
  subst hfirst
  by_cases hlow : i < first.length
  · rw [List.getElem_append_left hlow, if_pos hlow, hf]
  · rw [List.getElem_append_right (Nat.not_lt.mp hlow), if_neg hlow, hg, Nat.add_sub_cancel' (Nat.not_lt.mp hlow)]

/-! ## A tick that holds the end of a tone (44 R244 to R247) -/

/-- The block that ends the tone of its band and goes on for k samples, in its two parts. -/
theorem measureBlock_through_tone_end {j k : Nat} (hm : s.cal.state = .measuring) (hj : s.cal.cnt + j + 1 = 14400) :
    measureBlock (inputBlock s (j + 1 + k)) s.cal =
      let c := finishTone (countBlock (inputBlock s (j + 1)) s.cal)
      let r := measureBlock (readBlock s.sram (s.regs.argIn.toNat + (j + 1)) k) c
      (speakerBlock s.cal.tone (j + 1) ++ r.1, r.2) := by
  have hlen := length_inputBlock s (j + 1)
  obtain ⟨mic, rest, hcons⟩ := List.exists_cons_of_length_eq_add_one hlen
  rw [hcons, List.length_cons, Nat.add_right_cancel_iff] at hlen
  rw [inputBlock_add, measureBlock_append, hcons, measureBlock_whole_tone mic rest hm (by omega), hlen]

/-- The samples after the end of a tone, as the statement cuts them out of the block. -/
theorem drop_inputSamples (s : State) (j k m : Nat) :
    (inputSamples s (j + k)).drop (j + m) = (readBlock s.sram (s.regs.argIn.toNat + j) k).drop m := by
  have hlen := length_inputBlock s j
  rw [inputSamples_eq, inputBlock_add, ← List.drop_drop, List.drop_append_of_le_length hlen.ge,
    List.drop_of_length_le hlen.le, List.nil_append]

variable {b : Fin 10} {j k : Nat}

/-- The levels after the tone of band b: that of its window, heard by the detector in the last j + 1 samples (44 R247). -/
def levelsAfter (s : State) (b : Fin 10) (j : Nat) : Vector F32 10 :=
  s.cal.measured.set b
    (fAdd (detectorLevel (detectorAfter s.cal.det ((inputSamples s (j + 1)).drop (9600 - s.cal.cnt)))) (Config.micCal b))

/-- The first samples of a tone (44 R231, R244). -/
theorem countBlock_startBand (mics : List F32) (b : Nat) (c : Calibration) :
    countBlock mics (startBand b c) = { c with
      cnt := mics.length
      tone := toneAfter (startBand b c).tone mics.length
      det := detectorAfter (startBand b c).det (mics.drop 9600) } := by
  rw [countBlock, startBand_cnt, Nat.zero_add]
  rfl

/-- Below band 9 the block goes on with the first samples of the next band's tone (44 R245). -/
theorem measureBlock_into_next_band (hm : s.cal.state = .measuring) (hj : s.cal.cnt + j + 1 = 14400)
    (hb : s.cal.band = b.val) (h : b.val + 1 < 10) (hk : k < 14400) :
    measureBlock (inputBlock s (j + 1 + k)) s.cal =
      let c := startBand (b.val + 1) s.cal
      (speakerBlock s.cal.tone (j + 1) ++ speakerBlock c.tone k, { s.cal with
        band := b.val + 1, cnt := k, measured := levelsAfter s b j, tone := toneAfter c.tone k
        det := detectorAfter c.det ((inputSamples s (j + 1 + k)).drop (j + 1 + 9600)) }) := by
  have hnext := finishTone_below (c := countBlock (inputBlock s (j + 1)) s.cal) b hb h
  have hrest := measureBlock_inside_tone (c := finishTone (countBlock (inputBlock s (j + 1)) s.cal))
    (readBlock s.sram (s.regs.argIn.toNat + (j + 1)) k) (by rw [hnext]; exact hm)
    (by rw [hnext, length_readBlock, startBand_cnt]; omega)
  rw [measureBlock_through_tone_end hm hj, drop_inputSamples]
  dsimp only
  rw [hrest, hnext, countBlock_startBand, length_readBlock]
  rfl

/-- After band 9 the rest of the block is silence (44 R246). -/
theorem measureBlock_past_the_sweep (hm : s.cal.state = .measuring) (hj : s.cal.cnt + j + 1 = 14400)
    (hb : s.cal.band = b.val) (h : b.val = 9) :
    measureBlock (inputBlock s (j + 1 + k)) s.cal =
      (speakerBlock s.cal.tone (j + 1) ++ silence k, { s.cal with
        state := .computing, band := 10, cnt := 14400, measured := levelsAfter s b j
        tone := toneAfter s.cal.tone (j + 1)
        det := detectorAfter s.cal.det ((inputSamples s (j + 1)).drop (9600 - s.cal.cnt)) }) := by
  have hend := finishTone_last (c := countBlock (inputBlock s (j + 1)) s.cal) b hb h
  have hstopped : (finishTone (countBlock (inputBlock s (j + 1)) s.cal)).state ≠ .measuring := by
    rw [hend]
    exact (by decide : CtrlState.computing ≠ .measuring)
  rw [measureBlock_through_tone_end hm hj]
  dsimp only
  rw [measureBlock_stopped _ _ hstopped, length_readBlock, hend, countBlock, length_inputBlock, ← Nat.add_assoc, hj]
  rfl

/-! ## A tick cut in two (44 R245, R246) -/

/-- What is left of a tick after its first j samples: the buffers moved on by j words, and the controller those samples
leave. -/
def restOfTick (s : State) (j : Nat) (c : Calibration) : State :=
  { s with
    regs := { s.regs with argIn := s.regs.argIn + BitVec.ofNat 32 j, argOut := s.regs.argOut + BitVec.ofNat 32 j }
    cal := c }

theorem toNat_buffer_add {base : Word} {j : Nat} (h : base.toNat + j ≤ sampleRamWords) :
    (base + BitVec.ofNat 32 j).toNat = base.toNat + j := by
  have hb := sampleRamWords_bounds
  rw [BitVec.toNat_add, BitVec.toNat_ofNat]
  omega

section

variable {c : Calibration} (hr : inRange s (j + k))

include hr

theorem inRange_restOfTick : inRange (restOfTick s j c) k := by
  obtain ⟨hin, hout⟩ := hr
  rw [inRange, restOfTick, toNat_buffer_add (by omega), toNat_buffer_add (by omega)]
  omega

theorem inputBlock_restOfTick :
    inputBlock (restOfTick s j c) k = readBlock s.sram (s.regs.argIn.toNat + j) k := by
  obtain ⟨hin, -⟩ := hr
  have hbase : (restOfTick s j c).regs.argIn.toNat = s.regs.argIn.toNat + j := toNat_buffer_add (by omega)
  rw [inputBlock, bufferBase, hbase]
  rfl

end

/-- The rest of a tick that is still Measuring: its samples are measured from there and stored behind the first j words. -/
theorem exec_restOfTick {c : Calibration} (hr : inRange s (j + k)) (hc : c.state = .measuring) :
    ∃ v, exec (.ctrlProcessBlock k) (restOfTick s j c) = .next v ∧
      v.cal = (measureBlock (readBlock s.sram (s.regs.argIn.toNat + j) k) c).2 ∧
      v.sram = writeBlock s.sram (s.regs.argOut.toNat + j)
        (measureBlock (readBlock s.sram (s.regs.argIn.toNat + j) k) c).1 := by
  have ⟨_, hout⟩ := hr
  have hbase : (restOfTick s j c).regs.argOut.toNat = s.regs.argOut.toNat + j := toNat_buffer_add (by omega)
  refine ⟨_, exec_ctrlProcessBlock_measuring (inRange_restOfTick hr) hc, ?_, ?_⟩
  · rw [inputBlock_restOfTick hr]
    rfl
  · rw [inputBlock_restOfTick hr, hbase]
    rfl

/-- Settles O46: a block is measured as its first part and then the rest, and the end of a tone is the end of a part. -/
theorem lastSampleOfATone : Obligations.LastSampleOfATone := by
  refine ⟨?tone, ?cut⟩
  case tone =>
    intro s b j k hr hwf hm hj hb
    refine ⟨fun h hk => ?below, fun h => ?last⟩
    case below =>
      refine ⟨_, startBand (b.val + 1) s.cal, exec_ctrlProcessBlock_measuring hr hm,
        bandStarted_startBand ⟨b.val + 1, h⟩ s.cal, ?_, ?_⟩ <;> rw [measureBlock_into_next_band hm hj hb h hk]
      · rfl
      · have hstores := stores_append hwf (length_speakerBlock s.cal.tone (j + 1))
          (length_speakerBlock (startBand (b.val + 1) s.cal).tone k) (getElem_speakerBlock _ _)
          (g := fun i => speakerSample (toneAfter (startBand (b.val + 1) s.cal).tone (i - (j + 1))))
          fun i hi => by rw [getElem_speakerBlock, Nat.add_sub_cancel_left]
        simpa only [Nat.lt_succ_iff] using hstores
    case last =>
      refine ⟨_, exec_ctrlProcessBlock_measuring hr hm, ?_, ?_⟩ <;> rw [measureBlock_past_the_sweep hm hj hb h]
      · rfl
      · have hstores := stores_append hwf (length_speakerBlock s.cal.tone (j + 1)) (length_silence k)
          (getElem_speakerBlock _ _) (g := fun _ => 0x00000000#32) (getElem_silence k)
        simpa only [Nat.lt_succ_iff] using hstores
  case cut =>
    intro s j k hr hwf hm
    have hrj : inRange s j := ⟨by omega, by omega⟩
    obtain ⟨first, c, hfirst⟩ : ∃ first c, measureBlock (inputBlock s j) s.cal = (first, c) := ⟨_, _, rfl⟩
    have hlen := length_measureBlock s.cal (inputBlock s j)
    rw [hfirst, length_inputBlock] at hlen
    have ht := exec_ctrlProcessBlock_measuring hr hm
    have hu := exec_ctrlProcessBlock_measuring hrj hm
    rw [inputBlock_add, measureBlock_append, hfirst] at ht
    rw [hfirst] at hu
    refine ⟨_, _, ht, hu, rfl, fun hc => ?more, fun hc => ?stopped⟩
    case more =>
      obtain ⟨v, hv, hcal, hsram⟩ := exec_restOfTick hr hc
      refine ⟨v, hv, hcal.symm, ?_⟩
      rw [hsram]
      exact stores_append hwf hlen (by rw [length_measureBlock, length_readBlock])
        (fun i hi => (readSram_writeBlock hwf hi).symm)
        fun i hi => by rw [← Nat.add_assoc, readSram_writeBlock hwf hi]
    case stopped =>
      have hrest := measureBlock_stopped c (readBlock s.sram (s.regs.argIn.toNat + j) k) hc
      rw [length_readBlock] at hrest
      dsimp only
      rw [hrest]
      exact ⟨rfl, stores_append hwf hlen (length_silence k) (fun i hi => (readSram_writeBlock hwf hi).symm)
        (getElem_silence k)⟩

end

end Sys2Proof.Machine
end

section
/-! SUPPORT. What a band is set up with (00_scope R18, R19, R23; 42 R191, 43 R211, R212): f32(i), the unary minus and
round_half_away, and CTRL_START. -/

namespace Sys2Proof.Machine

open Sys2Proof.Claims

/-! ## f32(i) (00_scope R19) -/

/-- A natural number below 2^24 is n last places of 2^q with a normalized n, so nothing is rounded off. -/
theorem roundMagnitude_of_lt {i : Nat} (hpos : 0 < i) (hi : i < 2 ^ 24) :
    ∃ (q : Int) (n : Nat), -149 ≤ q ∧ q ≤ 0 ∧ 2 ^ 23 ≤ n ∧ n < 2 ^ 24 ∧ (n : Rat) * 2 ^ q = i ∧
      roundMagnitude i 0 = (q + 149).toNat * 2 ^ 23 + n := by
  obtain ⟨p, hp⟩ : ∃ p, p + i.log2 = 23 := ⟨23 - i.log2, by have := (Nat.log2_lt hpos.ne').mpr hi; omega⟩
  have hlow : 2 ^ 23 ≤ i * 2 ^ p := by
    calc 2 ^ 23 = 2 ^ i.log2 * 2 ^ p := by rw [← pow_add, Nat.add_comm, hp]
      _ ≤ i * 2 ^ p := Nat.mul_le_mul_right _ (Nat.log2_self_le hpos.ne')
  have hhigh : i * 2 ^ p < 2 ^ 24 := by
    calc i * 2 ^ p < 2 ^ (i.log2 + 1) * 2 ^ p := Nat.mul_lt_mul_of_pos_right Nat.lt_log2_self (Nat.two_pow_pos p)
      _ = 2 ^ 24 := by rw [← pow_add]; congr 1; omega
  have hplace : lastPlace i 0 = -(p : Int) := by
    unfold lastPlace
    omega
  refine ⟨-p, i * 2 ^ p, by omega, by omega, hlow, hhigh, ?value, ?magnitude⟩
  case value =>
    rw [Nat.cast_mul, Nat.cast_pow, Nat.cast_ofNat, zpow_neg, zpow_natCast, mul_assoc, mul_inv_cancel₀ (by positivity),
      mul_one]
  case magnitude =>
    have hshift : ((0 : Int) - -p).toNat = p := by omega
    rw [roundMagnitude, hplace, if_pos (by omega), hshift, infinityMagnitude_eq]
    omega

theorem fOfNat_exact {i : Nat} (hi : i < 2 ^ 24) : isFinite (fOfNat i) = true ∧ ratValue (fOfNat i) = i := by
  rcases Nat.eq_zero_or_pos i with rfl | hpos
  · have hzero : fOfNat 0 = ofSignMagnitude false 0 := rfl
    rw [hzero, ratValue_signedZero]
    exact ⟨isFinite_zero false, rfl⟩
  · obtain ⟨q, n, hq, hq0, hn, hn24, hvalue, hmagnitude⟩ := roundMagnitude_of_lt hpos hi
    have hlt : (q + 149).toNat * 2 ^ 23 + n < infinityMagnitude := by
      rw [infinityMagnitude_eq]
      omega
    rw [infinityMagnitude_eq] at hlt
    rw [fOfNat, roundPack, if_neg hpos.ne', hmagnitude]
    constructor
    · rw [isFinite, expField_ofSignMagnitude (by omega), decide_eq_true_iff]
      omega
    · rw [ratValue_ofSignMagnitude hq hn24.le (fun _ => hn) hlt, ← hvalue]
      rfl

/-! ## The unary minus (00_scope R18) -/

theorem fNeg_eq (a : F32) : fNeg a = ofSignMagnitude (!signBit a) (a.toNat % 2 ^ 31) := by
  have hlow : (fNeg a).toNat % 2 ^ 31 = a.toNat % 2 ^ 31 := by
    rw [fNeg, BitVec.toNat_xor, Nat.xor_mod_two_pow]
    exact Nat.xor_zero _
  have hsign : signBit (fNeg a) = !signBit a := by
    have hbit : a.toNat / 2 ^ 31 = 0 ∨ a.toNat / 2 ^ 31 = 1 := by omega
    rw [signBit, signBit, fNeg, BitVec.toNat_xor, Nat.xor_div_two_pow]
    rcases hbit with h | h <;> rw [h] <;> rfl
  rw [eq_ofSignMagnitude (fNeg a), hlow, hsign]

/-! ## round_half_away (00_scope R23) -/

/-- Half a unit more, cut to an integer, is a nearest integer, of two the larger. -/
theorem round_half_up (m d : Nat) :
    |(((2 * m + 2 ^ d) / 2 ^ (d + 1) : Nat) : Rat) - m / 2 ^ d| ≤ 1 / 2 ∧
      (|(((2 * m + 2 ^ d) / 2 ^ (d + 1) : Nat) : Rat) - m / 2 ^ d| = 1 / 2 →
        (m : Rat) / 2 ^ d < ((2 * m + 2 ^ d) / 2 ^ (d + 1) : Nat)) := by
  have hP : (0 : Rat) < 2 ^ d := by positivity
  have hdiv := Nat.div_add_mod (2 * m + 2 ^ d) (2 ^ (d + 1))
  have hmod := Nat.mod_lt (2 * m + 2 ^ d) (Nat.two_pow_pos (d + 1))
  generalize (2 * m + 2 ^ d) / 2 ^ (d + 1) = q at *
  generalize (2 * m + 2 ^ d) % 2 ^ (d + 1) = r at *
  have hdivRat : (2 : Rat) ^ (d + 1) * q + r = 2 * m + 2 ^ d := by exact_mod_cast hdiv
  have hmodRat : (r : Rat) < 2 ^ (d + 1) := by exact_mod_cast hmod
  rw [pow_succ] at hdivRat hmodRat
  have hrest : (q : Rat) - m / 2 ^ d = 1 / 2 - r / (2 ^ d * 2) := by
    field_simp
    linarith
  have hr0 : 0 ≤ (r : Rat) / (2 ^ d * 2) := by positivity
  have hr1 : (r : Rat) / (2 ^ d * 2) < 1 := by rwa [div_lt_one (by positivity)]
  rw [hrest]
  refine ⟨abs_le.mpr ⟨by linarith, by linarith⟩, fun htie => ?_⟩
  rcases eq_or_eq_neg_of_abs_eq htie with h | h <;> linarith

/-- The magnitude round_half_away gives a finite value m * 2^e. -/
def roundedMagnitude (m : Nat) (e : Int) : Nat :=
  if 0 ≤ e then m * 2 ^ e.toNat else (2 * m + 2 ^ (-e).toNat) / 2 ^ ((-e).toNat + 1)

theorem roundedMagnitude_nearest (m : Nat) (e : Int) :
    |(roundedMagnitude m e : Rat) - m * 2 ^ e| ≤ 1 / 2 ∧
      (|(roundedMagnitude m e : Rat) - m * 2 ^ e| = 1 / 2 → (m : Rat) * 2 ^ e < roundedMagnitude m e) := by
  unfold roundedMagnitude
  rcases le_or_gt 0 e with he | he
  · obtain ⟨d, rfl⟩ := Int.eq_ofNat_of_zero_le he
    rw [if_pos he, Int.toNat_natCast, Nat.cast_mul, Nat.cast_pow, Nat.cast_ofNat, zpow_natCast, sub_self, abs_zero]
    exact ⟨by norm_num, fun h => absurd h (by norm_num)⟩
  · obtain ⟨d, rfl⟩ : ∃ d : Nat, e = -d := ⟨(-e).toNat, by omega⟩
    rw [if_neg (by omega), neg_neg, Int.toNat_natCast, zpow_neg, zpow_natCast, ← div_eq_mul_inv]
    exact round_half_up m d

theorem roundHalfAway_of_unpack {x : F32} {s : Bool} {m : Nat} {e : Int} (h : unpack x = .finite s m e) :
    roundHalfAway x = signed s (roundedMagnitude m e) := by
  rw [roundHalfAway, h]
  rfl

theorem roundHalfAway_nearest {x : F32} (hx : isFinite x = true) :
    |(roundHalfAway x : Rat) - ratValue x| ≤ 1 / 2 ∧
      (|(roundHalfAway x : Rat) - ratValue x| = 1 / 2 → |ratValue x| < |(roundHalfAway x : Rat)|) := by
  obtain ⟨m, e, hu, -⟩ := unpack_of_isFinite hx
  have hnonneg : (0 : Rat) ≤ m * 2 ^ e := by positivity
  have hnearest := roundedMagnitude_nearest m e
  rw [roundHalfAway_of_unpack hu, ratValue_eq_exactValue hu, exactValue]
  generalize roundedMagnitude m e = k at *
  have hk : (0 : Rat) ≤ k := Nat.cast_nonneg k
  cases signBit x
  · simpa only [signed, Bool.false_eq_true, if_false, Int.cast_natCast, abs_of_nonneg hnonneg, abs_of_nonneg hk]
      using hnearest
  · simpa only [signed, if_true, Int.cast_neg, Int.cast_natCast, neg_mul, neg_sub_neg, abs_sub_comm (_ * _), abs_neg,
      abs_of_nonneg hnonneg, abs_of_nonneg hk] using hnearest

/-- The bins of the ten bands (43 R212). -/
theorem bins_of_the_bands :
    (List.finRange 10).map (fun b => roundHalfAway (fDiv (fMul (fOfNat 4800) bandFreq[b]) 0x473B8000#32)) =
      [3, 4, 6, 10, 16, 25, 40, 63, 100, 160] := by decide

/-! ## CTRL_START (44 R231, R233) -/

/-- Settles O43: the start of band 0, the failure, and the four operations that set a band up. -/
theorem ctrlStartResult : Obligations.CtrlStartResult := by
  refine ⟨fun s => ⟨fun hidle => ?started, exec_ctrlStart_fails⟩, fun i => fOfNat_exact, fun a => ?negated,
    fun x => roundHalfAway_nearest, bins_of_the_bands⟩
  case started => exact ⟨_, exec_ctrlStart_idle hidle, rfl, bandStarted_startBand 0 s.cal⟩
  case negated =>
    have hlt : a.toNat % 2 ^ 31 < 2 ^ 31 := Nat.mod_lt _ (by decide)
    rw [fNeg_eq, signBit_ofSignMagnitude hlt, ofSignMagnitude_toNat hlt]
    exact ⟨rfl, by split <;> omega⟩

end Sys2Proof.Machine
end

section
/-! SUPPORT. What a failure leaves behind (60_exceptions R302, R306): how each command can end, and from that the state after
a command whose STATUS is 0. -/

namespace Sys2Proof.Machine

section

variable {i : Instr} {s t : State}

/-- Everything a command can end with (10_state R34; 60 R302): a success, the null of an array getter, or one of the failures,
each in the state the command found but for the gains CTRL_APPLY_GAINS has written (44 R276). -/
theorem exec_endings (h : exec i s = .next t) :
    (∃ u, t = complete u) ∨ (∃ u, t = setStatus statusNull u) ∨ (i ≠ .ctrlApplyGains ∧ t = failWith none s) ∨
      (i = .ctrlStart ∧ t = failWith (some .invalidState) s) ∨
      (∃ n, i = .ctrlProcessBlock n ∧ t = failWith (some .invalidParameters) s) ∨
      (i = .ctrlApplyGains ∧ t = failWith none { s with cal := { s.cal with cumulative := s.regs.gainArr } }) := by
  cases i <;> simp only [exec] at h <;> cases h
  case eqSetBandGain | eqSetAllGains | eqProcessBlock | eqSetCoefficients =>
    split
    · exact .inl ⟨_, rfl⟩
    · exact .inr (.inr (.inl ⟨nofun, rfl⟩))
  case ctrlStart =>
    split
    · exact .inl ⟨_, rfl⟩
    · exact .inr (.inr (.inr (.inl ⟨rfl, rfl⟩)))
  case ctrlProcessBlock n =>
    split
    · exact .inl ⟨_, rfl⟩
    · exact .inr (.inr (.inr (.inr (.inl ⟨n, rfl, rfl⟩))))
  case ctrlApplyGains =>
    rcases setAllGainsCore_cases calQ s.regs.gainArr s.eq with ⟨-, hcore⟩ | ⟨-, hcore⟩ <;> rw [hcore]
    · exact .inl ⟨_, rfl⟩
    · exact .inr (.inr (.inr (.inr (.inr ⟨rfl, rfl⟩))))
  case ctrlGetCorrectionGains | ctrlGetMeasuredLevels =>
    unfold arrayGetter
    split
    · exact .inl ⟨_, rfl⟩
    · exact .inr (.inl ⟨s, rfl⟩)
  all_goals exact .inl ⟨_, rfl⟩

/-- Everything a command that ends with STATUS 0 can have done: neither a success nor a null has that STATUS. -/
theorem exec_failed_cases (h : exec i s = .next t) (hfailed : t.regs.status = 0) :
    (i ≠ .ctrlApplyGains ∧ t = failWith none s) ∨ (i = .ctrlStart ∧ t = failWith (some .invalidState) s) ∨
      (∃ n, i = .ctrlProcessBlock n ∧ t = failWith (some .invalidParameters) s) ∨
      (i = .ctrlApplyGains ∧ t = failWith none { s with cal := { s.cal with cumulative := s.regs.gainArr } }) := by
  rcases exec_endings h with ⟨u, rfl⟩ | ⟨u, rfl⟩ | hends
  · exact absurd hfailed (show statusOk ≠ 0 by decide)
  · exact absurd hfailed (show statusNull ≠ 0 by decide)
  · exact hends

end

/-- Settles O21: each failure writes STATUS and at most its code, CTRL_APPLY_GAINS the gains; a rejected word is no command. -/
theorem failedCommandHasNoOtherEffect : Obligations.FailedCommandHasNoOtherEffect := by
  refine ⟨fun i s t h hfailed hne => ?commands, fun s t h hfailed => ?applyGains,
    fun s w e hd => runCommandWord_of_decode_error hd⟩
  case commands =>
    rcases exec_failed_cases h hfailed with ⟨-, rfl⟩ | ⟨hi, rfl⟩ | ⟨n, hi, rfl⟩ | ⟨hi, -⟩
    · exact ⟨rfl, absurd rfl⟩
    · exact ⟨rfl, fun _ => .inl hi⟩
    · exact ⟨rfl, fun _ => .inr ⟨n, hi⟩⟩
    · exact absurd hi hne
  case applyGains =>
    rcases exec_failed_cases h hfailed with ⟨hne, -⟩ | ⟨hi, -⟩ | ⟨n, hi, -⟩ | ⟨-, rfl⟩
    · exact absurd rfl hne
    · cases hi
    · cases hi
    · rfl

end Sys2Proof.Machine
end

section
/-! SUPPORT. The step that serves a reset (70_reset R330, R331). -/

namespace Sys2Proof.Machine

/-- A reset depends on nothing of the state but the accesses held behind it. -/
theorem step_reset {s : State} {rest : List HostAccess} (h : s.pending = .reset :: rest) :
    step s = .next { State.reset with pending := rest } := by
  simp only [step, h, serve]

/-- Settles O11: the reset stands at the head of the accesses held. -/
theorem resetEventRestoresTheResetState : Obligations.ResetEventRestoresTheResetState :=
  fun _ _ => step_reset rfl

end Sys2Proof.Machine
end
